-- ==== Sys2Proof/Word.lean ====
section
/-! DEFINITION. The word types of the engine: bytes of a frame, 16-bit fields, and text passed through by the transport (00_scope.md R6, 60_exceptions.md R191). -/

namespace Sys2Proof

/-- One byte of a frame or a buffer. -/
abbrev Byte := BitVec 8

/-- A 16-bit field, a register value, the CRC register. -/
abbrev Word := BitVec 16

/-- A value the transport or the host supplies and the block passes through or compares: its bytes.
DESIGN CHOICE (log entry 17). -/
abbrev Text := List Byte

end Sys2Proof
end

