-- ==== Sys2Proof/Config.lean ====
section
/-! DEFINITION. The implementation parameters of 00_scope.md R5, each at the value the spec takes (the OPEN ones too: log entry 20), and the free values of the model. -/

namespace Sys2Proof.Config

/-- `CRC_POLY`, right-shifting form (R5). -/
def crcPoly : Word := 0xA001#16

/-- `CRC_INIT` (R5, R90). -/
def crcInit : Word := 0xFFFF#16

/-- `RD_COILS_MAX` (R5). -/
def rdCoilsMax : Nat := 2000

/-- `RD_REGS_MAX` (R5). -/
def rdRegsMax : Nat := 125

/-- `WR_COILS_MAX`, OPEN (R5). -/
def wrCoilsMax : Nat := 1968

/-- `WR_REGS_MAX`, OPEN (R5). -/
def wrRegsMax : Nat := 123

/-- `MIN_REPLY`, OPEN (R5, R156). -/
def minReply : Nat := 5

/-- `TXBUF`, OPEN (R5, R13). -/
def txBuf : Nat := 256

/-- `RXBUF`, OPEN (R5, R13). -/
def rxBuf : Nat := 256

/-- `TIMEOUT_DEFAULT` in time units, OPEN (R5, R18). -/
def timeoutDefault : Nat := 1000

/-- `QUIET_DEFAULT` in time units, OPEN (R5, R18). -/
def quietDefault : Nat := 4

/-- `RETRY_DEFAULT` (R5, R18). -/
def retryDefault : Nat := 0

/-- `ALLOW_SLAVE_0`, OPEN (R5): a structured Command to slave 0 is refused (R100). -/
def allowSlave0 : Bool := false

/-- FREE VALUE: the elapsed time of a transaction whose `Close` carries a `now` before its `t_start`.
Premise (a) of R152 rules such a run out and the spec gives no value for it. DESIGN CHOICE (log entry 12). -/
opaque elapsedBackwards (tStart now : Nat) : Nat

/-- FREE VALUE: what `Validate` run on its own takes for data byte `i` of a `Bits` operand that has no such byte.
42_decode.md R130 gives `data` its `bc` bytes, so no decoded response lacks one. DESIGN CHOICE (log entry 25). -/
opaque absentCoilByte (data : List Byte) (i : Nat) : Byte

end Sys2Proof.Config
end

