-- ==== Sys2Proof/Syntax.lean ====
section
/-! DEFINITION. The operations of the engine: one constructor of `Instr` per row of spec/opcode_table.json, and the records they carry (10_state.md R12, R30 to R33; 42_decode.md R130; 60_exceptions.md R190, R191). -/

namespace Sys2Proof

/-- The kind of a Command (10_state.md R12, R30). -/
inductive Kind
  | rc | rhr | rir | wsc | wsr | wmc | wmr | raw
  deriving DecidableEq, Repr

/-- The value part of a structured Command (R30): what follows slave id and address. -/
inductive Fields
  | qty (q : Word)                            -- RC, RHR, RIR
  | coil (on : Bool)                          -- WSC
  | value (v : Word)                          -- WSR
  | packed (q : Word) (bytes : List Byte)     -- WMC
  | words (q : Word) (ws : List Word)         -- WMR
  deriving DecidableEq, Repr

/-- A Command (R30): a structured one, presented by its function-code byte, or raw bytes. -/
inductive Command
  | structured (fc slave : Byte) (addr : Word) (fields : Fields)
  | raw (bytes : List Byte)
  deriving DecidableEq, Repr

/-- The request latch `req` (10_state.md R12). -/
structure Req where
  kind : Kind
  slaveId : Byte
  fc : Byte
  addr : Word
  f2 : Word
  deriving DecidableEq, Repr

/-- The reasons of `MalformedResponse` (60_exceptions.md R191). -/
inductive MalformedReason
  | crc | length | slaveId | function | echo
  deriving DecidableEq, Repr

/-- The seven non-Success outcome classes with their info (60_exceptions.md R190 to R198). -/
inductive Failure
  | timedOut
  | malformedResponse (reason : MalformedReason)
  | deviceException (code : Byte)
  | transportError (reason : Text)
  | invalidParameter
  | busy
  | cancelled
  deriving DecidableEq, Repr

/-- What a Success carries (43_validate.md R146). -/
inductive Payload
  | regValues (vs : List Word)
  | coilValues (vs : List Bool)
  | written (addr value : Word)
  | raw (bytes : List Byte)
  deriving DecidableEq, Repr

/-- What `Validate` yields and `Close` takes: an Outcome before `elapsed` is added (R140, R160). -/
inductive Verdict
  | success (p : Payload)
  | failure (f : Failure)
  deriving DecidableEq, Repr

/-- The Outcome record sent to the host: exactly one of eight variants (60_exceptions.md R190). -/
inductive TxnOutcome
  | success (p : Payload) (elapsed : Nat)
  | failure (f : Failure)
  deriving DecidableEq, Repr

/-- `DecodedResponse` (42_decode.md R130). -/
inductive Decoded
  | bits (slave fc bc : Byte) (data : List Byte)
  | regs (slave fc bc : Byte) (values : List Word)
  | echo (slave fc : Byte) (a v : Word)
  | exception (slave fc code : Byte)
  | rawReply (bytes : List Byte)
  deriving DecidableEq, Repr

/-- The result of `Decode`: a decoded response, or `MalformedResponse(reason)` raised (R130). -/
inductive DecodeResult
  | decoded (d : Decoded)
  | malformed (r : MalformedReason)
  deriving DecidableEq, Repr

/-- The value list of a store update (45_register_store.md R182). -/
inductive Values
  | regs (vs : List Word)
  | coils (vs : List Bool)
  deriving DecidableEq, Repr

/-- The answer to the one outstanding `tp.write` (10_state.md R31). -/
inductive WriteResult
  | ok (n : Nat)
  | err (reason : Text)
  deriving DecidableEq, Repr

/-- The two classes that reach `AttemptFail` (44_sequencer.md R159). -/
inductive AttemptClass
  | timedOut
  | transportError (reason : Text)
  deriving DecidableEq, Repr

/-- The `fatal` operand of `AttemptFail` (R159) with the cause R164 tells apart. DESIGN CHOICE (log entry 15). -/
inductive Severity
  | nonfatal
  | fatalTransport
  | fatalHost
  deriving DecidableEq, Repr

/-- One constructor per row of spec/opcode_table.json. Every event carries `now` (00_scope.md R8). -/
inductive Instr
  -- the eight request kinds: "DISPATCH kind RC" and so on (30_encoding.md R84, log entry 5)
  | rc (slave : Byte) (addr qty : Word) (timeout : Option Nat) (now : Nat)
  | rhr (slave : Byte) (addr qty : Word) (timeout : Option Nat) (now : Nat)
  | rir (slave : Byte) (addr qty : Word) (timeout : Option Nat) (now : Nat)
  | wsc (slave : Byte) (addr : Word) (coil : Bool) (timeout : Option Nat) (now : Nat)
  | wsr (slave : Byte) (addr value : Word) (timeout : Option Nat) (now : Nat)
  | wmc (slave : Byte) (addr qty : Word) (packed : List Byte) (timeout : Option Nat) (now : Nat)
  | wmr (slave : Byte) (addr qty : Word) (words : List Word) (timeout : Option Nat) (now : Nat)
  | raw (bytes : List Byte) (timeout : Option Nat) (now : Nat)
  -- the nine reply shapes, on a received frame (42_decode.md R121 to R129, log entry 6)
  | rcReply (frame : List Byte)
  | rhrReply (frame : List Byte)
  | rirReply (frame : List Byte)
  | wscReply (frame : List Byte)
  | wsrReply (frame : List Byte)
  | wmcReply (frame : List Byte)
  | wmrReply (frame : List Byte)
  | excReply (kind : Kind) (frame : List Byte)
  | rawReply (frame : List Byte)
  -- the nine host operations (30_encoding.md R81)
  | dispatch (fc slave : Byte) (addr : Word) (fields : Fields) (timeout : Option Nat) (now : Nat)
  | dispatchRaw (bytes : List Byte) (timeout : Option Nat) (now : Nat)
  | cancel (now : Nat)
  | getRegister (addr : Word) (now : Nat)
  | readHistory (now : Nat)
  | readLastError (now : Nat)
  | cfgWrite (name : Text) (v now : Nat)
  | connect (portName : Text) (baudRate now : Nat)
  | disconnect (now : Nat)
  -- the environment events and the internal step (44_sequencer.md R155, R157, R158, R162, R163)
  | writeResult (res : WriteResult) (now : Nat)
  | rx (bytes : List Byte) (now : Nat)
  | tick (now : Nat)
  | tpFault (reason : Text) (fatal : Bool) (now : Nat)
  | validate (now : Nat)
  -- the procedures (40_crc.md to 45_register_store.md, log entry 7)
  | crcInit
  | crcByte (b : Byte)
  | crc16 (bytes : List Byte)
  | crcBit (d : Bool)
  | appendCrc (bytes : List Byte)
  | verify (frame : List Byte)
  | checkParams (cmd : Command)
  | encodeFrame (cmd : Command)
  | decodeReply (frame : List Byte) (ovf : Bool) (kind : Kind)
  | validateReply (resp : Decoded) (req : Req)
  | startAttempt (now : Nat)
  | evalWait (now : Nat)
  | attemptFail (cls : AttemptClass) (severity : Severity) (now : Nat)
  | close (verdict : Verdict) (now : Nat)
  | storeUpdate (addr : Word) (vs : Values) (now : Nat)
  deriving DecidableEq, Repr

/-- The rows that are steps of the block (00_scope.md R8): the request kinds, the host operations, the
environment events and VALIDATE. The reply rows and the procedures are evaluated inside such steps. -/
def Instr.isEvent : Instr → Bool
  | .rc .. | .rhr .. | .rir .. | .wsc .. | .wsr .. | .wmc .. | .wmr .. | .raw ..
  | .dispatch .. | .dispatchRaw .. | .cancel .. | .getRegister .. | .readHistory .. | .readLastError ..
  | .cfgWrite .. | .connect .. | .disconnect ..
  | .writeResult .. | .rx .. | .tick .. | .tpFault .. | .validate .. => true
  | .rcReply .. | .rhrReply .. | .rirReply .. | .wscReply .. | .wsrReply .. | .wmcReply .. | .wmrReply ..
  | .excReply .. | .rawReply ..
  | .crcInit | .crcByte .. | .crc16 .. | .crcBit .. | .appendCrc .. | .verify .. | .checkParams ..
  | .encodeFrame .. | .decodeReply .. | .validateReply .. | .startAttempt .. | .evalWait ..
  | .attemptFail .. | .close .. | .storeUpdate .. => false

/-- The `now` an event carries (00_scope.md R8); none for a row that is no event. -/
def Instr.eventTime : Instr → Option Nat
  | .rc _ _ _ _ now | .rhr _ _ _ _ now | .rir _ _ _ _ now | .wsc _ _ _ _ now | .wsr _ _ _ _ now
  | .wmc _ _ _ _ _ now | .wmr _ _ _ _ _ now | .raw _ _ now
  | .dispatch _ _ _ _ _ now | .dispatchRaw _ _ now | .cancel now | .getRegister _ now | .readHistory now
  | .readLastError now | .cfgWrite _ _ now | .connect _ _ now | .disconnect now
  | .writeResult _ now | .rx _ now | .tick now | .tpFault _ _ now | .validate now => some now
  | .rcReply .. | .rhrReply .. | .rirReply .. | .wscReply .. | .wsrReply .. | .wmcReply .. | .wmrReply ..
  | .excReply .. | .rawReply ..
  | .crcInit | .crcByte .. | .crc16 .. | .crcBit .. | .appendCrc .. | .verify .. | .checkParams ..
  | .encodeFrame .. | .decodeReply .. | .validateReply .. | .startAttempt .. | .evalWait ..
  | .attemptFail .. | .close .. | .storeUpdate .. => none

end Sys2Proof
end

