-- ==== Sys2Proof/WellFormed.lean ====
section
/-! DEFINITION. Which terms of `Instr` are operations of the spec: the checks that an operand list by itself does not make. Values the spec answers with InvalidParameter are well formed (41_encode.md R100 gives them an effect). -/

namespace Sys2Proof

/-- Bit 7 of a reply's function-code byte, "reserved for exception" (30_encoding.md R71, R73). A frame of fewer
than two bytes has none. -/
def excBit (frame : List Byte) : Bool := (frame.getD 1 0#8).getLsbD 7

/-- The checks. A reply frame stands under the row its bit 7 selects (R71), EXC.reply belongs to a structured kind
(R71), the byte count of a write-multiple request is one byte (R66), an RX chunk is not empty (R157). The list of a `Validate`
operand is not held to its `bc` (42_decode.md R130): such an operand runs. DESIGN CHOICE (log entry 25). -/
def WellFormed : Instr → Bool
  | .rcReply f | .rhrReply f | .rirReply f | .wscReply f | .wsrReply f | .wmcReply f | .wmrReply f => !excBit f
  | .excReply k f => decide (k ≠ .raw) && excBit f
  | .wmc _ _ _ packed _ _ => decide (packed.length < 256)
  | .wmr _ _ _ words _ _ => decide (2 * words.length < 256)
  | .rx bytes _ => decide (bytes ≠ [])
  | .rc .. | .rhr .. | .rir .. | .wsc .. | .wsr .. | .raw ..
  | .rawReply ..
  | .dispatch .. | .dispatchRaw .. | .cancel .. | .getRegister .. | .readHistory .. | .readLastError ..
  | .cfgWrite .. | .connect .. | .disconnect .. | .writeResult .. | .tick .. | .tpFault .. | .validate ..
  | .crcInit | .crcByte .. | .crc16 .. | .crcBit .. | .appendCrc .. | .verify .. | .checkParams ..
  | .encodeFrame .. | .decodeReply .. | .validateReply .. | .startAttempt .. | .evalWait ..
  | .attemptFail .. | .close .. | .storeUpdate .. => true

end Sys2Proof
end

