-- ==== Sys2Proof/Decode.lean ====
section
/-! DEFINITION. From the bytes of one event packet to an instruction, total and rejecting by name, and the encoder.
The frames are the spec's (30_encoding.md R60 to R62, R65 to R68), the numbers 0 to 15 of the op byte are the spec's
(R81); the rest of the packet is the model's own layout, the spec giving none (log entry 3). -/

namespace Sys2Proof

/-! ### Bytes and 16-bit fields (00_scope.md R6, 30_encoding.md R65) -/

/-- `hi8(v) = v[15:8]`. -/
def hi8 (v : Word) : Byte := v.extractLsb' 8 8

/-- `lo8(v) = v[7:0]`. -/
def lo8 (v : Word) : Byte := v.extractLsb' 0 8

/-- `be16(a, b) = a * 256 + b`. -/
def be16 (h l : Byte) : Word := h ++ l

/-- Words as bytes, each high byte first (R65, R108). -/
def wordsToBytes : List Word → List Byte
  | [] => []
  | w :: ws => hi8 w :: lo8 w :: wordsToBytes ws

/-- Bytes as words, two at a time, high byte first (R65, R122). A last odd byte makes no word. -/
def bytesToWords : List Byte → List Word
  | h :: l :: bs => be16 h l :: bytesToWords bs
  | _ => []

/-! ### The function-code map (30_encoding.md R70) -/

/-- The kind a structured Command's function code names; none outside the seven codes (R70, R72). -/
def kindOfFc (fc : Byte) : Option Kind :=
  if fc = 0x01#8 then some .rc
  else if fc = 0x03#8 then some .rhr
  else if fc = 0x04#8 then some .rir
  else if fc = 0x05#8 then some .wsc
  else if fc = 0x06#8 then some .wsr
  else if fc = 0x0F#8 then some .wmc
  else if fc = 0x10#8 then some .wmr
  else none

/-- The value word of function 05 (R68). -/
def coilWord (on : Bool) : Word := if on then 0xFF00#16 else 0x0000#16

/-! ### Names of rejection -/

/-- Why a packet is the encoding of no instruction. -/
inductive Reject
  | emptyPacket
  | unusedOp (op : Nat)                 -- 9 to 15, "a realisation must ignore them" (R81)
  | unknownOp (op : Nat)
  | truncated
  | trailing
  | nonCanonicalNat
  | badTag
  | reservedFunction (fc : Byte)        -- a structured request outside the seven codes (R72)
  | badCoilWord
  | badByteCount
  | emptyChunk
  deriving DecidableEq, Repr

/-! ### Op bytes -/

/-- What the first byte of a packet selects. -/
inductive Op
  | dispatch | dispatchRaw | cancel | getRegister | readHistory | readLastError | cfgWrite | connect | disconnect
  | writeResult | rx | tick | tpFault | validate
  | crcInit | crcByte | crc16 | crcBit | appendCrc | verify | checkParams | encodeFrame | decodeReply
  | validateReply | startAttempt | evalWait | attemptFail | close | storeUpdate
  | request | rawRequest
  | reply (k : Kind)
  deriving DecidableEq, Repr

/-- The op numbers: 0 to 8 are R81's, the others the model's own (log entry 3). -/
def Op.code : Op → Byte
  | .dispatch => 0x00#8
  | .dispatchRaw => 0x01#8
  | .cancel => 0x02#8
  | .getRegister => 0x03#8
  | .readHistory => 0x04#8
  | .readLastError => 0x05#8
  | .cfgWrite => 0x06#8
  | .connect => 0x07#8
  | .disconnect => 0x08#8
  | .writeResult => 0x10#8
  | .rx => 0x11#8
  | .tick => 0x12#8
  | .tpFault => 0x13#8
  | .validate => 0x14#8
  | .crcInit => 0x20#8
  | .crcByte => 0x21#8
  | .crc16 => 0x22#8
  | .crcBit => 0x23#8
  | .appendCrc => 0x24#8
  | .verify => 0x25#8
  | .checkParams => 0x26#8
  | .encodeFrame => 0x27#8
  | .decodeReply => 0x28#8
  | .validateReply => 0x29#8
  | .startAttempt => 0x2A#8
  | .evalWait => 0x2B#8
  | .attemptFail => 0x2C#8
  | .close => 0x2D#8
  | .storeUpdate => 0x2E#8
  | .request => 0x40#8
  | .rawRequest => 0x41#8
  | .reply .rc => 0x50#8
  | .reply .rhr => 0x51#8
  | .reply .rir => 0x52#8
  | .reply .wsc => 0x53#8
  | .reply .wsr => 0x54#8
  | .reply .wmc => 0x55#8
  | .reply .wmr => 0x56#8
  | .reply .raw => 0x57#8

/-- The host operations' ops (R81). -/
def Op.host : List Op :=
  [.dispatch, .dispatchRaw, .cancel, .getRegister, .readHistory, .readLastError, .cfgWrite, .connect, .disconnect]

/-- The events' ops. -/
def Op.event : List Op := [.writeResult, .rx, .tick, .tpFault, .validate]

/-- The procedures' ops. -/
def Op.procedure : List Op :=
  [.crcInit, .crcByte, .crc16, .crcBit, .appendCrc, .verify, .checkParams, .encodeFrame, .decodeReply, .validateReply,
   .startAttempt, .evalWait, .attemptFail, .close, .storeUpdate]

/-- The frames' ops. -/
def Op.frame : List Op :=
  [.request, .rawRequest, .reply .rc, .reply .rhr, .reply .rir, .reply .wsc, .reply .wsr, .reply .wmc, .reply .wmr,
   .reply .raw]

/-- Every op. -/
def Op.all : List Op := Op.host ++ Op.event ++ Op.procedure ++ Op.frame

/-- The op of a first byte, with the unused host op numbers named (R81). -/
def Op.ofByte (b : Byte) : Except Reject Op :=
  match Op.all.find? (fun o => o.code == b) with
  | some o => .ok o
  | none => if b.toNat ≤ 15 then .error (.unusedOp b.toNat) else .error (.unknownOp b.toNat)

/-! ### Operands: writing -/

/-- A natural number in base 128, low digit first, bit 7 set on every byte but the last; `fuel` bounds the digits. -/
def putNatFuel : Nat → Nat → List Byte
  | 0, n => [BitVec.ofNat 8 n]
  | fuel + 1, n => if n < 128 then [BitVec.ofNat 8 n] else BitVec.ofNat 8 (n % 128 + 128) :: putNatFuel fuel (n / 128)

def putNat (n : Nat) : List Byte := putNatFuel n n

def putBool (b : Bool) : List Byte := [if b then 1#8 else 0#8]

def putWord (w : Word) : List Byte := [hi8 w, lo8 w]

def putTimeout : Option Nat → List Byte
  | none => [0#8]
  | some t => 1#8 :: putNat t

/-- A byte string with its length before it. -/
def putBytes (bs : List Byte) : List Byte := putNat bs.length ++ bs

def putWords (ws : List Word) : List Byte := putNat ws.length ++ wordsToBytes ws

def boolsToBytes (bs : List Bool) : List Byte := bs.map (fun b => if b then 1#8 else 0#8)

def putBools (bs : List Bool) : List Byte := putNat bs.length ++ boolsToBytes bs

def Kind.code : Kind → Byte
  | .rc => 0#8 | .rhr => 1#8 | .rir => 2#8 | .wsc => 3#8 | .wsr => 4#8 | .wmc => 5#8 | .wmr => 6#8 | .raw => 7#8

def putFields : Fields → List Byte
  | .qty q => 0#8 :: putWord q
  | .coil on => 1#8 :: putBool on
  | .value v => 2#8 :: putWord v
  | .packed q bs => 3#8 :: (putWord q ++ putBytes bs)
  | .words q ws => 4#8 :: (putWord q ++ putWords ws)

def putCommand : Command → List Byte
  | .structured fc slave addr fields => 0#8 :: fc :: slave :: (putWord addr ++ putFields fields)
  | .raw bs => 1#8 :: putBytes bs

def putReq (r : Req) : List Byte := r.kind.code :: r.slaveId :: r.fc :: (putWord r.addr ++ putWord r.f2)

def putDecoded : Decoded → List Byte
  | .bits s fc bc d => 0#8 :: s :: fc :: bc :: putBytes d
  | .regs s fc bc vs => 1#8 :: s :: fc :: bc :: putWords vs
  | .echo s fc a v => 2#8 :: s :: fc :: (putWord a ++ putWord v)
  | .exception s fc c => [3#8, s, fc, c]
  | .rawReply bs => 4#8 :: putBytes bs

/-- The reason codes of 60_exceptions.md R191. -/
def MalformedReason.code : MalformedReason → Byte
  | .crc => 0#8 | .length => 1#8 | .slaveId => 2#8 | .function => 3#8 | .echo => 4#8

/-- The class codes of 60_exceptions.md R191, then the info. -/
def putFailure : Failure → List Byte
  | .timedOut => [1#8]
  | .malformedResponse r => [2#8, r.code]
  | .deviceException c => [3#8, c]
  | .transportError r => 4#8 :: putBytes r
  | .invalidParameter => [5#8]
  | .busy => [6#8]
  | .cancelled => [7#8]

def putPayload : Payload → List Byte
  | .regValues vs => 0#8 :: putWords vs
  | .coilValues vs => 1#8 :: putBools vs
  | .written a v => 2#8 :: (putWord a ++ putWord v)
  | .raw bs => 3#8 :: putBytes bs

def putVerdict : Verdict → List Byte
  | .success p => 0#8 :: putPayload p
  | .failure f => 1#8 :: putFailure f

def putValues : Values → List Byte
  | .regs vs => 0#8 :: putWords vs
  | .coils vs => 1#8 :: putBools vs

def putWriteResult : WriteResult → List Byte
  | .ok n => 0#8 :: putNat n
  | .err r => 1#8 :: putBytes r

def putAttemptClass : AttemptClass → List Byte
  | .timedOut => [1#8]
  | .transportError r => 4#8 :: putBytes r

def Severity.code : Severity → Byte
  | .nonfatal => 0#8 | .fatalTransport => 1#8 | .fatalHost => 2#8

/-! ### Operands: reading (each answers what it read and the rest) -/

def getByte : List Byte → Except Reject (Byte × List Byte)
  | [] => .error .truncated
  | b :: bs => .ok (b, bs)

def getNat : List Byte → Except Reject (Nat × List Byte)
  | [] => .error .truncated
  | b :: bs =>
    if b.toNat < 128 then .ok (b.toNat, bs)
    else
      match getNat bs with
      | .error e => .error e
      | .ok (n, rest) => if n = 0 then .error .nonCanonicalNat else .ok (b.toNat - 128 + 128 * n, rest)

def getBool : List Byte → Except Reject (Bool × List Byte)
  | [] => .error .truncated
  | b :: bs => if b = 0#8 then .ok (false, bs) else if b = 1#8 then .ok (true, bs) else .error .badTag

def getWord : List Byte → Except Reject (Word × List Byte)
  | h :: l :: bs => .ok (be16 h l, bs)
  | _ => .error .truncated

def getTimeout (bs : List Byte) : Except Reject (Option Nat × List Byte) := do
  let (present, bs) ← getBool bs
  if present then
    let (t, bs) ← getNat bs
    .ok (some t, bs)
  else .ok (none, bs)

/-- The next `n` bytes. -/
def takeBytes (n : Nat) (bs : List Byte) : Except Reject (List Byte × List Byte) :=
  if bs.length < n then .error .truncated else .ok (bs.take n, bs.drop n)

def getBytes (bs : List Byte) : Except Reject (List Byte × List Byte) := do
  let (n, bs) ← getNat bs
  takeBytes n bs

def getWords (bs : List Byte) : Except Reject (List Word × List Byte) := do
  let (n, bs) ← getNat bs
  let (b, bs) ← takeBytes (2 * n) bs
  .ok (bytesToWords b, bs)

def bytesToBools : List Byte → Except Reject (List Bool)
  | [] => .ok []
  | b :: bs => do
    let (v, _) ← getBool [b]
    let vs ← bytesToBools bs
    .ok (v :: vs)

def getBools (bs : List Byte) : Except Reject (List Bool × List Byte) := do
  let (n, bs) ← getNat bs
  let (b, bs) ← takeBytes n bs
  let vs ← bytesToBools b
  .ok (vs, bs)

def Kind.all : List Kind := [.rc, .rhr, .rir, .wsc, .wsr, .wmc, .wmr, .raw]

def getKind (bs : List Byte) : Except Reject (Kind × List Byte) := do
  let (b, bs) ← getByte bs
  match Kind.all.find? (fun k => k.code == b) with
  | some k => .ok (k, bs)
  | none => .error .badTag

def getFields (bs : List Byte) : Except Reject (Fields × List Byte) := do
  let (tag, bs) ← getByte bs
  if tag = 0#8 then
    let (q, bs) ← getWord bs
    .ok (.qty q, bs)
  else if tag = 1#8 then
    let (on, bs) ← getBool bs
    .ok (.coil on, bs)
  else if tag = 2#8 then
    let (v, bs) ← getWord bs
    .ok (.value v, bs)
  else if tag = 3#8 then
    let (q, bs) ← getWord bs
    let (d, bs) ← getBytes bs
    .ok (.packed q d, bs)
  else if tag = 4#8 then
    let (q, bs) ← getWord bs
    let (ws, bs) ← getWords bs
    .ok (.words q ws, bs)
  else .error .badTag

def getCommand (bs : List Byte) : Except Reject (Command × List Byte) := do
  let (tag, bs) ← getByte bs
  if tag = 0#8 then
    let (fc, bs) ← getByte bs
    let (slave, bs) ← getByte bs
    let (addr, bs) ← getWord bs
    let (fields, bs) ← getFields bs
    .ok (.structured fc slave addr fields, bs)
  else if tag = 1#8 then
    let (b, bs) ← getBytes bs
    .ok (.raw b, bs)
  else .error .badTag

def getReq (bs : List Byte) : Except Reject (Req × List Byte) := do
  let (kind, bs) ← getKind bs
  let (slave, bs) ← getByte bs
  let (fc, bs) ← getByte bs
  let (addr, bs) ← getWord bs
  let (f2, bs) ← getWord bs
  .ok (⟨kind, slave, fc, addr, f2⟩, bs)

def getDecoded (bs : List Byte) : Except Reject (Decoded × List Byte) := do
  let (tag, bs) ← getByte bs
  if tag = 0#8 then
    let (s, bs) ← getByte bs
    let (fc, bs) ← getByte bs
    let (bc, bs) ← getByte bs
    let (d, bs) ← getBytes bs
    .ok (.bits s fc bc d, bs)
  else if tag = 1#8 then
    let (s, bs) ← getByte bs
    let (fc, bs) ← getByte bs
    let (bc, bs) ← getByte bs
    let (vs, bs) ← getWords bs
    .ok (.regs s fc bc vs, bs)
  else if tag = 2#8 then
    let (s, bs) ← getByte bs
    let (fc, bs) ← getByte bs
    let (a, bs) ← getWord bs
    let (v, bs) ← getWord bs
    .ok (.echo s fc a v, bs)
  else if tag = 3#8 then
    let (s, bs) ← getByte bs
    let (fc, bs) ← getByte bs
    let (c, bs) ← getByte bs
    .ok (.exception s fc c, bs)
  else if tag = 4#8 then
    let (b, bs) ← getBytes bs
    .ok (.rawReply b, bs)
  else .error .badTag

def MalformedReason.all : List MalformedReason := [.crc, .length, .slaveId, .function, .echo]

def getReason (bs : List Byte) : Except Reject (MalformedReason × List Byte) := do
  let (b, bs) ← getByte bs
  match MalformedReason.all.find? (fun r => r.code == b) with
  | some r => .ok (r, bs)
  | none => .error .badTag

def getFailure (bs : List Byte) : Except Reject (Failure × List Byte) := do
  let (tag, bs) ← getByte bs
  if tag = 1#8 then .ok (.timedOut, bs)
  else if tag = 2#8 then
    let (r, bs) ← getReason bs
    .ok (.malformedResponse r, bs)
  else if tag = 3#8 then
    let (c, bs) ← getByte bs
    .ok (.deviceException c, bs)
  else if tag = 4#8 then
    let (r, bs) ← getBytes bs
    .ok (.transportError r, bs)
  else if tag = 5#8 then .ok (.invalidParameter, bs)
  else if tag = 6#8 then .ok (.busy, bs)
  else if tag = 7#8 then .ok (.cancelled, bs)
  else .error .badTag

def getPayload (bs : List Byte) : Except Reject (Payload × List Byte) := do
  let (tag, bs) ← getByte bs
  if tag = 0#8 then
    let (vs, bs) ← getWords bs
    .ok (.regValues vs, bs)
  else if tag = 1#8 then
    let (vs, bs) ← getBools bs
    .ok (.coilValues vs, bs)
  else if tag = 2#8 then
    let (a, bs) ← getWord bs
    let (v, bs) ← getWord bs
    .ok (.written a v, bs)
  else if tag = 3#8 then
    let (b, bs) ← getBytes bs
    .ok (.raw b, bs)
  else .error .badTag

def getVerdict (bs : List Byte) : Except Reject (Verdict × List Byte) := do
  let (ok, bs) ← getByte bs
  if ok = 0#8 then
    let (p, bs) ← getPayload bs
    .ok (.success p, bs)
  else if ok = 1#8 then
    let (f, bs) ← getFailure bs
    .ok (.failure f, bs)
  else .error .badTag

def getValues (bs : List Byte) : Except Reject (Values × List Byte) := do
  let (tag, bs) ← getByte bs
  if tag = 0#8 then
    let (vs, bs) ← getWords bs
    .ok (.regs vs, bs)
  else if tag = 1#8 then
    let (vs, bs) ← getBools bs
    .ok (.coils vs, bs)
  else .error .badTag

def getWriteResult (bs : List Byte) : Except Reject (WriteResult × List Byte) := do
  let (tag, bs) ← getByte bs
  if tag = 0#8 then
    let (n, bs) ← getNat bs
    .ok (.ok n, bs)
  else if tag = 1#8 then
    let (r, bs) ← getBytes bs
    .ok (.err r, bs)
  else .error .badTag

def getAttemptClass (bs : List Byte) : Except Reject (AttemptClass × List Byte) := do
  let (tag, bs) ← getByte bs
  if tag = 1#8 then .ok (.timedOut, bs)
  else if tag = 4#8 then
    let (r, bs) ← getBytes bs
    .ok (.transportError r, bs)
  else .error .badTag

def Severity.all : List Severity := [.nonfatal, .fatalTransport, .fatalHost]

def getSeverity (bs : List Byte) : Except Reject (Severity × List Byte) := do
  let (b, bs) ← getByte bs
  match Severity.all.find? (fun v => v.code == b) with
  | some v => .ok (v, bs)
  | none => .error .badTag

/-! ### Request frames, reply frames -/

/-- A structured request: the bytes of its frame before the CRC, which the block computes (R61, R66, R68, R101). -/
def decodeRequest (timeout : Option Nat) (now : Nat) : List Byte → Except Reject Instr
  | slave :: fc :: rest =>
    match kindOfFc fc with
    | none => .error (.reservedFunction fc)
    | some kind =>
      match rest with
      | aH :: aL :: vH :: vL :: data =>
        let addr := be16 aH aL
        let f2 := be16 vH vL
        match kind with
        | .rc => if data = [] then .ok (.rc slave addr f2 timeout now) else .error .trailing
        | .rhr => if data = [] then .ok (.rhr slave addr f2 timeout now) else .error .trailing
        | .rir => if data = [] then .ok (.rir slave addr f2 timeout now) else .error .trailing
        | .wsc =>
          if data ≠ [] then .error .trailing
          else if f2 = coilWord true then .ok (.wsc slave addr true timeout now)
          else if f2 = coilWord false then .ok (.wsc slave addr false timeout now)
          else .error .badCoilWord
        | .wsr => if data = [] then .ok (.wsr slave addr f2 timeout now) else .error .trailing
        | .wmc =>
          match data with
          | [] => .error .truncated
          | bc :: packed =>
            if packed.length = bc.toNat then .ok (.wmc slave addr f2 packed timeout now) else .error .badByteCount
        | .wmr =>
          match data with
          | [] => .error .truncated
          | bc :: bytes =>
            if bytes.length = bc.toNat ∧ bc.toNat % 2 = 0 then .ok (.wmr slave addr f2 (bytesToWords bytes) timeout now)
            else .error .badByteCount
        | .raw => .error (.reservedFunction fc)
      | _ => .error .truncated
  | _ => .error .truncated

/-- A reply frame: its row is chosen by the originating kind, bit 7 of byte 1 first (R71). -/
def decodeReplyFrame (kind : Kind) (frame : List Byte) : Instr :=
  match kind with
  | .rc => if excBit frame then .excReply .rc frame else .rcReply frame
  | .rhr => if excBit frame then .excReply .rhr frame else .rhrReply frame
  | .rir => if excBit frame then .excReply .rir frame else .rirReply frame
  | .wsc => if excBit frame then .excReply .wsc frame else .wscReply frame
  | .wsr => if excBit frame then .excReply .wsr frame else .wsrReply frame
  | .wmc => if excBit frame then .excReply .wmc frame else .wmcReply frame
  | .wmr => if excBit frame then .excReply .wmr frame else .wmrReply frame
  | .raw => .rawReply frame

/-! ### The decoder -/

/-- Nothing may follow. -/
def finish (i : Instr) (bs : List Byte) : Except Reject Instr := if bs = [] then .ok i else .error .trailing

/-- The instruction of an op and the operand bytes after it. -/
def decodeOp (op : Op) (bs : List Byte) : Except Reject Instr :=
  match op with
  | .dispatch => do
    let (now, bs) ← getNat bs
    let (timeout, bs) ← getTimeout bs
    let (fc, bs) ← getByte bs
    let (slave, bs) ← getByte bs
    let (addr, bs) ← getWord bs
    let (fields, bs) ← getFields bs
    finish (.dispatch fc slave addr fields timeout now) bs
  | .dispatchRaw => do
    let (now, bs) ← getNat bs
    let (timeout, bs) ← getTimeout bs
    .ok (.dispatchRaw bs timeout now)
  | .cancel => do
    let (now, bs) ← getNat bs
    finish (.cancel now) bs
  | .getRegister => do
    let (now, bs) ← getNat bs
    let (addr, bs) ← getWord bs
    finish (.getRegister addr now) bs
  | .readHistory => do
    let (now, bs) ← getNat bs
    finish (.readHistory now) bs
  | .readLastError => do
    let (now, bs) ← getNat bs
    finish (.readLastError now) bs
  | .cfgWrite => do
    let (now, bs) ← getNat bs
    let (name, bs) ← getBytes bs
    let (v, bs) ← getNat bs
    finish (.cfgWrite name v now) bs
  | .connect => do
    let (now, bs) ← getNat bs
    let (name, bs) ← getBytes bs
    let (baud, bs) ← getNat bs
    finish (.connect name baud now) bs
  | .disconnect => do
    let (now, bs) ← getNat bs
    finish (.disconnect now) bs
  | .writeResult => do
    let (now, bs) ← getNat bs
    let (res, bs) ← getWriteResult bs
    finish (.writeResult res now) bs
  | .rx => do
    let (now, bs) ← getNat bs
    if bs = [] then .error .emptyChunk else .ok (.rx bs now)
  | .tick => do
    let (now, bs) ← getNat bs
    finish (.tick now) bs
  | .tpFault => do
    let (now, bs) ← getNat bs
    let (fatal, bs) ← getBool bs
    .ok (.tpFault bs fatal now)
  | .validate => do
    let (now, bs) ← getNat bs
    finish (.validate now) bs
  | .crcInit => finish .crcInit bs
  | .crcByte => do
    let (b, bs) ← getByte bs
    finish (.crcByte b) bs
  | .crc16 => .ok (.crc16 bs)
  | .crcBit => do
    let (d, bs) ← getBool bs
    finish (.crcBit d) bs
  | .appendCrc => .ok (.appendCrc bs)
  | .verify => .ok (.verify bs)
  | .checkParams => do
    let (cmd, bs) ← getCommand bs
    finish (.checkParams cmd) bs
  | .encodeFrame => do
    let (cmd, bs) ← getCommand bs
    finish (.encodeFrame cmd) bs
  | .decodeReply => do
    let (kind, bs) ← getKind bs
    let (ovf, bs) ← getBool bs
    .ok (.decodeReply bs ovf kind)
  | .validateReply => do
    let (resp, bs) ← getDecoded bs
    let (req, bs) ← getReq bs
    finish (.validateReply resp req) bs
  | .startAttempt => do
    let (now, bs) ← getNat bs
    finish (.startAttempt now) bs
  | .evalWait => do
    let (now, bs) ← getNat bs
    finish (.evalWait now) bs
  | .attemptFail => do
    let (now, bs) ← getNat bs
    let (sev, bs) ← getSeverity bs
    let (cls, bs) ← getAttemptClass bs
    finish (.attemptFail cls sev now) bs
  | .close => do
    let (now, bs) ← getNat bs
    let (v, bs) ← getVerdict bs
    finish (.close v now) bs
  | .storeUpdate => do
    let (now, bs) ← getNat bs
    let (addr, bs) ← getWord bs
    let (vs, bs) ← getValues bs
    finish (.storeUpdate addr vs now) bs
  | .request => do
    let (now, bs) ← getNat bs
    let (timeout, bs) ← getTimeout bs
    decodeRequest timeout now bs
  | .rawRequest => do
    let (now, bs) ← getNat bs
    let (timeout, bs) ← getTimeout bs
    .ok (.raw bs timeout now)
  | .reply kind => .ok (decodeReplyFrame kind bs)

/-- The instruction a packet encodes: total on any bytes, rejecting by name. -/
def decode : List Byte → Except Reject Instr
  | [] => .error .emptyPacket
  | b :: bs =>
    match Op.ofByte b with
    | .error e => .error e
    | .ok op => decodeOp op bs

/-! ### The encoder -/

/-- The bytes of a structured request frame before its CRC (R61). -/
def requestBytes (slave fc : Byte) (addr f2 : Word) (data : List Byte) : List Byte :=
  slave :: fc :: hi8 addr :: lo8 addr :: hi8 f2 :: lo8 f2 :: data

/-- The packet of a request: op, time, optional timeout, frame bytes. -/
def requestPacket (timeout : Option Nat) (now : Nat) (frame : List Byte) : List Byte :=
  Op.request.code :: (putNat now ++ putTimeout timeout ++ frame)

/-- The packet of an instruction. -/
def encode : Instr → List Byte
  | .rc slave addr qty timeout now => requestPacket timeout now (requestBytes slave 0x01#8 addr qty [])
  | .rhr slave addr qty timeout now => requestPacket timeout now (requestBytes slave 0x03#8 addr qty [])
  | .rir slave addr qty timeout now => requestPacket timeout now (requestBytes slave 0x04#8 addr qty [])
  | .wsc slave addr coil timeout now => requestPacket timeout now (requestBytes slave 0x05#8 addr (coilWord coil) [])
  | .wsr slave addr value timeout now => requestPacket timeout now (requestBytes slave 0x06#8 addr value [])
  | .wmc slave addr qty packed timeout now =>
    requestPacket timeout now (requestBytes slave 0x0F#8 addr qty (BitVec.ofNat 8 packed.length :: packed))
  | .wmr slave addr qty words timeout now =>
    requestPacket timeout now (requestBytes slave 0x10#8 addr qty (BitVec.ofNat 8 (2 * words.length) :: wordsToBytes words))
  | .raw bytes timeout now => Op.rawRequest.code :: (putNat now ++ putTimeout timeout ++ bytes)
  | .rcReply f => (Op.reply .rc).code :: f
  | .rhrReply f => (Op.reply .rhr).code :: f
  | .rirReply f => (Op.reply .rir).code :: f
  | .wscReply f => (Op.reply .wsc).code :: f
  | .wsrReply f => (Op.reply .wsr).code :: f
  | .wmcReply f => (Op.reply .wmc).code :: f
  | .wmrReply f => (Op.reply .wmr).code :: f
  | .excReply k f => (Op.reply k).code :: f
  | .rawReply f => (Op.reply .raw).code :: f
  | .dispatch fc slave addr fields timeout now =>
    Op.dispatch.code :: (putNat now ++ putTimeout timeout ++ fc :: slave :: (putWord addr ++ putFields fields))
  | .dispatchRaw bytes timeout now => Op.dispatchRaw.code :: (putNat now ++ putTimeout timeout ++ bytes)
  | .cancel now => Op.cancel.code :: putNat now
  | .getRegister addr now => Op.getRegister.code :: (putNat now ++ putWord addr)
  | .readHistory now => Op.readHistory.code :: putNat now
  | .readLastError now => Op.readLastError.code :: putNat now
  | .cfgWrite name v now => Op.cfgWrite.code :: (putNat now ++ putBytes name ++ putNat v)
  | .connect name baud now => Op.connect.code :: (putNat now ++ putBytes name ++ putNat baud)
  | .disconnect now => Op.disconnect.code :: putNat now
  | .writeResult res now => Op.writeResult.code :: (putNat now ++ putWriteResult res)
  | .rx bytes now => Op.rx.code :: (putNat now ++ bytes)
  | .tick now => Op.tick.code :: putNat now
  | .tpFault reason fatal now => Op.tpFault.code :: (putNat now ++ putBool fatal ++ reason)
  | .validate now => Op.validate.code :: putNat now
  | .crcInit => [Op.crcInit.code]
  | .crcByte b => [Op.crcByte.code, b]
  | .crc16 bytes => Op.crc16.code :: bytes
  | .crcBit d => Op.crcBit.code :: putBool d
  | .appendCrc bytes => Op.appendCrc.code :: bytes
  | .verify f => Op.verify.code :: f
  | .checkParams cmd => Op.checkParams.code :: putCommand cmd
  | .encodeFrame cmd => Op.encodeFrame.code :: putCommand cmd
  | .decodeReply f ovf kind => Op.decodeReply.code :: kind.code :: (putBool ovf ++ f)
  | .validateReply resp req => Op.validateReply.code :: (putDecoded resp ++ putReq req)
  | .startAttempt now => Op.startAttempt.code :: putNat now
  | .evalWait now => Op.evalWait.code :: putNat now
  | .attemptFail cls sev now => Op.attemptFail.code :: (putNat now ++ sev.code :: putAttemptClass cls)
  | .close v now => Op.close.code :: (putNat now ++ putVerdict v)
  | .storeUpdate addr vs now => Op.storeUpdate.code :: (putNat now ++ putWord addr ++ putValues vs)

/-! ### Words of the opcode table (30_encoding.md R74) -/

/-- Byte `i` of the frame whose big-endian 16-bit words, the header word first, are the digits of `w`. -/
def tableByte (w i : Nat) : Byte :=
  if i % 2 = 0 then BitVec.ofNat 8 (w / 2 ^ (16 * (i / 2) + 8)) else BitVec.ofNat 8 (w / 2 ^ (16 * (i / 2)))

/-- The first `n` bytes of that frame. -/
def tableFrame (w n : Nat) : List Byte := (List.range n).map (tableByte w)

/-- The packet that presents a table word: a reply when bit 7 of the function byte is set (the EXC.reply row); a
request of the length its format gives when the function byte is one of the seven; else the bytes of the word as a raw
request, the one row left that matches it (log entry 4). -/
def tablePacket (nbits w : Nat) : List Byte :=
  let v := w % 2 ^ nbits
  let fc := tableByte v 1
  if fc.getLsbD 7 then (Op.reply .rc).code :: tableFrame v 5
  else if fc = 0x0F#8 ∨ fc = 0x10#8 then requestPacket none 0 (tableFrame v (7 + (tableByte v 6).toNat))
  else if (kindOfFc fc).isSome then requestPacket none 0 (tableFrame v 6)
  else encode (.raw (tableFrame v (nbits / 8)) none 0)

/-- What the decoder reads from the words of an opcode-table row. -/
def decodeTableWord (nbits w : Nat) : Option Instr :=
  match decode (tablePacket nbits w) with
  | .ok i => some i
  | .error _ => none

end Sys2Proof
end

