-- ==== Sys2Proof/Machine/CrcUnit.lean ====
section
/-! DEFINITION. The CRC engine as functions of the register (40_crc.md R90 to R97). -/

namespace Sys2Proof.Machine

/-- One shift of the register: logical right by one, then the XOR when the bit shifted out was 1 (R91). -/
def crcShift (crc : Word) : Word :=
  if crc.getLsbD 0 then (crc >>> 1) ^^^ Config.crcPoly else crc >>> 1

/-- `n` shifts. -/
def crcShifts : Nat → Word → Word
  | 0, crc => crc
  | n + 1, crc => crcShifts n (crcShift crc)

/-- `CrcByte(b)`: the byte enters the low half, then eight shifts (R91). -/
def crcByteStep (crc : Word) (b : Byte) : Word := crcShifts 8 (crc ^^^ b.setWidth 16)

/-- `CrcBit(d)`: the bit-serial step (R93). -/
def crcBitStep (crc : Word) (d : Bool) : Word :=
  if crc.getLsbD 0 ^^ d then (crc >>> 1) ^^^ Config.crcPoly else crc >>> 1

/-- The register after folding in the bytes of `bs`, byte 0 first (R92). -/
def crcFold (crc : Word) (bs : List Byte) : Word := bs.foldl crcByteStep crc

/-- `Crc16(B)` (R92). -/
def crc16 (bs : List Byte) : Word := crcFold Config.crcInit bs

/-- `AppendCrc(B)`: low byte first (R95). -/
def appendCrc (bs : List Byte) : List Byte := bs ++ [lo8 (crc16 bs), hi8 (crc16 bs)]

/-- The frame without its two trailing bytes (R96). -/
def dropCrc (f : List Byte) : List Byte := f.take (f.length - 2)

/-- `Verify(F)` (R96). -/
def verifyCrc (f : List Byte) : Bool :=
  if f.length < 2 then false
  else f.getD (f.length - 2) 0#8 == lo8 (crc16 (dropCrc f)) && f.getD (f.length - 1) 0#8 == hi8 (crc16 (dropCrc f))

/-- What an evaluation of `Verify` leaves in the register: the `Crc16` it computed, if it computed one (R92, R96;
DEDUCED, log entry 8). -/
def crcAfterVerify (crc : Word) (f : List Byte) : Word := if f.length < 2 then crc else crc16 (dropCrc f)

end Sys2Proof.Machine
end

