-- ==== Sys2Proof/Machine/Operands.lean ====
section
/-! DEFINITION. The forms of Commands and frames as functions of their operands: parameter check and frame assembly
(41_encode.md), reply shapes (42_decode.md), validation (43_validate.md). -/

namespace Sys2Proof.Machine

/-! ### Commands (41_encode.md R100 to R109) -/

/-- `ceil(qty / 8)` (R66). -/
def coilBytes (qty : Nat) : Nat := (qty + 7) / 8

/-- Conditions 1, 3, 4, 5 of R100 for a structured Command. Fields that do not fit the function code are no shape of
R30 and fail. DESIGN CHOICE (log entry 16). -/
def fieldsOk (fc : Byte) (fields : Fields) : Bool :=
  match kindOfFc fc, fields with
  | some .rc, .qty q => decide (1 ≤ q.toNat ∧ q.toNat ≤ Config.rdCoilsMax)
  | some .rhr, .qty q => decide (1 ≤ q.toNat ∧ q.toNat ≤ Config.rdRegsMax)
  | some .rir, .qty q => decide (1 ≤ q.toNat ∧ q.toNat ≤ Config.rdRegsMax)
  | some .wsc, .coil _ => true
  | some .wsr, .value _ => true
  | some .wmc, .packed q bs =>
    decide (1 ≤ q.toNat ∧ q.toNat ≤ Config.wrCoilsMax ∧ bs.length = coilBytes q.toNat)
  | some .wmr, .words q ws =>
    decide (1 ≤ q.toNat ∧ q.toNat ≤ Config.wrRegsMax ∧ ws.length = q.toNat)
  | _, _ => false

/-- `CheckParams(cmd)`: true for `ok`, false for `raise InvalidParameter` (R100). -/
def paramsPass : Command → Bool
  | .structured fc slave _ fields => (Config.allowSlave0 || slave != 0#8) && fieldsOk fc fields
  | .raw bytes => decide (bytes.length ≤ Config.txBuf - 2)

/-- The second 16-bit field of the request: quantity or value word (10_state.md R12, R102 to R108). -/
def Fields.word : Fields → Word
  | .qty q => q
  | .coil on => coilWord on
  | .value v => v
  | .packed q _ => q
  | .words q _ => q

/-- `byte_count` and data bytes of a write-multiple request; nothing for the others (R66, R101). -/
def Fields.tail : Fields → List Byte
  | .packed q bs => BitVec.ofNat 8 (coilBytes q.toNat) :: bs
  | .words q ws => BitVec.ofNat 8 (2 * q.toNat) :: wordsToBytes ws
  | .qty _ | .coil _ | .value _ => []

/-- The bytes of the request before its CRC (R101, R109). -/
def Command.body : Command → List Byte
  | .structured fc slave addr fields => requestBytes slave fc addr (Fields.word fields) (Fields.tail fields)
  | .raw bytes => bytes

/-- The request frame (R101, R109). -/
def Command.frame (cmd : Command) : List Byte := appendCrc (Command.body cmd)

/-- The request latch `Encode` writes. For RAW only `kind` is written (R12, R109; log entry 11). For a function code
outside the seven, which no passing Command has, `kind` stays. -/
def Command.latch (old : Req) : Command → Req
  | .structured fc slave addr fields => ⟨(kindOfFc fc).getD old.kind, slave, fc, addr, Fields.word fields⟩
  | .raw _ => { old with kind := .raw }

/-! ### Replies (42_decode.md R120 to R130) -/

/-- Byte `i` of a frame. -/
def byteAt (f : List Byte) (i : Nat) : Byte := f.getD i 0#8

/-- `be16(f[i], f[i+1])` (R65). -/
def wordAt (f : List Byte) (i : Nat) : Word := be16 (byteAt f i) (byteAt f (i + 1))

/-- `f[3..2+bc]`, the data bytes of a read reply. -/
def replyData (f : List Byte) : List Byte := (f.drop 3).take (byteAt f 2).toNat

/-- Shape RSP-RDBITS (R121). -/
def parseBits (f : List Byte) : DecodeResult :=
  if (byteAt f 2).toNat ≠ f.length - 5 then .malformed .length
  else .decoded (.bits (byteAt f 0) (byteAt f 1) (byteAt f 2) (replyData f))

/-- Shape RSP-RDREGS (R122, R123). -/
def parseRegs (f : List Byte) : DecodeResult :=
  if (byteAt f 2).toNat ≠ f.length - 5 then .malformed .length
  else if (byteAt f 2).toNat % 2 = 1 then .malformed .length
  else .decoded (.regs (byteAt f 0) (byteAt f 1) (byteAt f 2) (bytesToWords (replyData f)))

/-- Shapes RSP-ECHO1 and RSP-ECHON (R124 to R127). -/
def parseEcho (f : List Byte) : DecodeResult :=
  if f.length ≠ 8 then .malformed .length
  else .decoded (.echo (byteAt f 0) (byteAt f 1) (wordAt f 2) (wordAt f 4))

/-- Shape RSP-EXC (R128). -/
def parseException (f : List Byte) : DecodeResult :=
  if f.length ≠ 5 then .malformed .length
  else .decoded (.exception (byteAt f 0) (byteAt f 1) (byteAt f 2))

/-- Shape RSP-RAW (R129). -/
def parseRaw (f : List Byte) : DecodeResult := .decoded (.rawReply f)

/-- Step 5 of R120: the shape of the originating kind. -/
def parseByKind (kind : Kind) (f : List Byte) : DecodeResult :=
  match kind with
  | .rc => parseBits f
  | .rhr => parseRegs f
  | .rir => parseRegs f
  | .wsc => parseEcho f
  | .wsr => parseEcho f
  | .wmc => parseEcho f
  | .wmr => parseEcho f
  | .raw => parseRaw f

/-- Steps 3 to 5 of R120: raw first, then bit 7 of byte 1, then the originating kind (R71). -/
def parseReply (kind : Kind) (f : List Byte) : DecodeResult :=
  if kind = .raw then parseRaw f
  else if (byteAt f 1).getLsbD 7 then parseException f
  else parseByKind kind f

/-- Steps 1 and 2 of R120 before a shape: length and overflow, then CRC. -/
def decodeWith (shape : List Byte → DecodeResult) (f : List Byte) (ovf : Bool) : DecodeResult :=
  if ovf ∨ f.length < 5 then .malformed .length
  else if !verifyCrc f then .malformed .crc
  else shape f

/-- `Decode(RX[0..rx_len-1], rx_ovf, req.kind)` (R120). -/
def decodeFrame (f : List Byte) (ovf : Bool) (kind : Kind) : DecodeResult := decodeWith (parseReply kind) f ovf

/-- What an evaluation of `Decode` leaves in the CRC register: `Verify` runs only past step 1 (log entry 8). -/
def crcAfterDecode (crc : Word) (f : List Byte) (ovf : Bool) : Word :=
  if ovf ∨ f.length < 5 then crc else crcAfterVerify crc f

/-! ### Validation (43_validate.md R140 to R147) -/

/-- Coil `i` is bit `i mod 8` of byte `i div 8`, for `qty` coils (R67, R140 step 5). A byte that `data` lacks, as no
decoded response does (R130), is a free value. DESIGN CHOICE (log entry 25). -/
def coilsOf (data : List Byte) (qty : Nat) : List Bool :=
  (List.range qty).map (fun i => (data.getD (i / 8) (Config.absentCoilByte data (i / 8))).getLsbD (i % 8))

/-- `resp.slave`; `resp.fc` (R130). -/
def Decoded.slave : Decoded → Byte
  | .bits s _ _ _ | .regs s _ _ _ | .echo s _ _ _ | .exception s _ _ => s
  | .rawReply _ => 0#8

def Decoded.fc : Decoded → Byte
  | .bits _ fc _ _ | .regs _ fc _ _ | .echo _ fc _ _ | .exception _ fc _ => fc
  | .rawReply _ => 0#8

/-- `MalformedResponse(reason)` as a verdict. -/
def malformedVerdict (r : MalformedReason) : Verdict := .failure (.malformedResponse r)

/-- Steps 3 to 6 of R140, once slave id and function code have passed. They test `bc` and never the length of the list
beside it: on an operand whose list R130 excludes, words are returned as given. DESIGN CHOICE (log entry 25). -/
def validateBody (req : Req) : Decoded → Verdict
  | .rawReply bytes => .success (.raw bytes)
  | .exception _ _ code => .failure (.deviceException code)
  | .echo _ _ a v => if a ≠ req.addr ∨ v ≠ req.f2 then malformedVerdict .echo else .success (.written a v)
  | .bits _ _ bc data =>
    if bc.toNat ≠ coilBytes req.f2.toNat then malformedVerdict .length
    else .success (.coilValues (coilsOf data req.f2.toNat))
  | .regs _ _ bc values =>
    if bc.toNat ≠ 2 * req.f2.toNat then malformedVerdict .length else .success (.regValues values)

/-- `Validate(resp, req)`: the checks in their order (R140); a raw reply skips them all (R147). -/
def validateResponse (resp : Decoded) (req : Req) : Verdict :=
  match resp with
  | .rawReply bytes => .success (.raw bytes)
  | _ =>
    if Decoded.slave resp ≠ req.slaveId then malformedVerdict .slaveId
    else if Decoded.fc resp ≠ req.fc ∧ Decoded.fc resp ≠ (req.fc ||| 0x80#8) then malformedVerdict .function
    else validateBody req resp

/-- Decode, then Validate (44_sequencer.md R163). -/
def judge (f : List Byte) (ovf : Bool) (req : Req) : Verdict :=
  match decodeFrame f ovf req.kind with
  | .malformed r => malformedVerdict r
  | .decoded d => validateResponse d req

/-! ### Outcomes -/

/-- The class codes of 60_exceptions.md R191. -/
def TxnOutcome.classCode : TxnOutcome → Nat
  | .success _ _ => 0
  | .failure .timedOut => 1
  | .failure (.malformedResponse _) => 2
  | .failure (.deviceException _) => 3
  | .failure (.transportError _) => 4
  | .failure .invalidParameter => 5
  | .failure .busy => 6
  | .failure .cancelled => 7

/-- The class `AttemptFail` closes with (R159). -/
def AttemptClass.failure : AttemptClass → Failure
  | .timedOut => .timedOut
  | .transportError r => .transportError r

/-- The reason "short_write" (R155). -/
def reasonShortWrite : Text :=
  [0x73#8, 0x68#8, 0x6F#8, 0x72#8, 0x74#8, 0x5F#8, 0x77#8, 0x72#8, 0x69#8, 0x74#8, 0x65#8]

/-- The reason "disconnected" (R164). -/
def reasonDisconnected : Text :=
  [0x64#8, 0x69#8, 0x73#8, 0x63#8, 0x6F#8, 0x6E#8, 0x6E#8, 0x65#8, 0x63#8, 0x74#8, 0x65#8, 0x64#8]

/-- The register name "cfg_timeout" (R168). -/
def nameTimeout : Text :=
  [0x63#8, 0x66#8, 0x67#8, 0x5F#8, 0x74#8, 0x69#8, 0x6D#8, 0x65#8, 0x6F#8, 0x75#8, 0x74#8]

/-- The register name "cfg_quiet" (R168). -/
def nameQuiet : Text := [0x63#8, 0x66#8, 0x67#8, 0x5F#8, 0x71#8, 0x75#8, 0x69#8, 0x65#8, 0x74#8]

/-- The register name "cfg_retry" (R168). -/
def nameRetry : Text := [0x63#8, 0x66#8, 0x67#8, 0x5F#8, 0x72#8, 0x65#8, 0x74#8, 0x72#8, 0x79#8]

end Sys2Proof.Machine
end

