-- ==== Sys2Proof/Machine/State.lean ====
section
/-! DEFINITION. The state of the block (10_state.md R10 to R37), the records it holds, its reasons to stop, and the state after reset. -/

namespace Sys2Proof.Machine

/-- A byte buffer of the block (20_memory.md R40): cells at strictly rising indexes, none equal to what an unlisted
index reads as. -/
abbrev Memory := List Host.Cell

/-- The terminal tags of a transaction (10_state.md R14). -/
inductive Term
  | completed | timedOut | failed | cancelled
  deriving DecidableEq, Repr

/-- The sequencer state register (R14): four resting states and the four terminal tags, which are passed through
inside one step. -/
inductive Fsm
  | idle | sending | awaitingResponse | validating
  | terminal (t : Term)
  deriving DecidableEq, Repr

/-- A store entry (45_register_store.md R180). -/
structure Entry where
  value : Word
  updated : Nat
  deriving DecidableEq, Repr

/-- The register store: entries at strictly rising 16-bit addresses (R180); an unlisted address has none. -/
abbrev Store := List (Nat × Entry)

/-- A history record, one per closed transaction (10_state.md R33). -/
structure Record where
  seq : Nat
  tStart : Nat
  tEnd : Nat
  attempts : Nat
  term : Term
  request : List Byte
  reply : List Byte
  outcome : TxnOutcome
  deriving DecidableEq, Repr

/-- A message the block puts on an output channel. -/
inductive Msg
  | outcome (o : TxnOutcome)                -- outcome channel (R32)
  | tpWrite (bytes : List Byte)             -- transport channel (R31)
  | tpClose                                 -- transport channel (R31)
  | register (v : Option Word)              -- answer of GET_REGISTER (R181)
  | historyIs (h : List Record)             -- answer of READ_HISTORY (R167)
  | lastErrorIs (e : Option Failure)        -- answer of READ_LAST_ERROR (R167)
  | crcIs (c : Word)                        -- result of Crc16 (R92)
  | bytesAre (bs : List Byte)               -- result of AppendCrc (R95)
  | verified (ok : Bool)                    -- result of Verify (R96)
  | paramsOk                                -- CheckParams passed (R100)
  | raised (f : Failure)                    -- CheckParams or Encode raised (00_scope.md R7)
  | decoded (r : DecodeResult)              -- result of Decode (R130)
  | validated (v : Verdict)                 -- result of Validate (R140)
  deriving DecidableEq, Repr

/-- One element of the rest of the run: a packet on an input channel, or a reset (log entries 1, 21). -/
inductive Input
  | packet (bytes : List Byte)
  | reset
  deriving DecidableEq, Repr

/-- The reasons the machine stops with a fault: none. The spec gives every event an effect in every state ("ignored
(no state change, no output), never `fault`", 93_implementation_defined.md U23), so no constructor stands here. -/
inductive Fault
  deriving DecidableEq, Repr

/-- The reasons a step has no meaning. -/
inductive Refusal
  /-- Raised by exec's arm of an instruction that has no meaning yet (no arm is left so). Safe. -/
  | notModelled (mnemonic : String)
  /-- Raised by step on a packet that is the encoding of no instruction (log entry 22). Safe: the run is excluded. -/
  | undecodable (r : Reject)
  deriving DecidableEq, Repr

/-- The state: what R10 lists, then the run's remaining inputs and the messages emitted (log entries 1, 2). -/
structure State where
  crc : Word                  -- R11
  req : Req                   -- R12
  tx : Memory                 -- R13
  txLen : Nat                 -- R13
  rx : Memory                 -- R13
  rxLen : Nat                 -- R13
  rxOvf : Bool                -- R13, R17
  fsm : Fsm                   -- R14
  cfgTimeout : Nat            -- R18
  cfgQuiet : Nat              -- R18
  cfgRetry : Nat              -- R18
  seqNext : Nat               -- R19
  curSeq : Nat                -- R19
  retriesLeft : Nat           -- R19
  attempts : Nat              -- R19
  lastError : Option Failure  -- R19
  tStart : Nat                -- R20
  deadline : Nat              -- R20
  tLastRx : Option Nat        -- R20
  timeoutL : Nat              -- R20
  quietL : Nat                -- R20
  store : Store               -- R22, R180
  history : List Record       -- R22, R33
  inbox : List Input          -- the model's own: log entry 1
  out : List Msg              -- the model's own: log entry 2
  deriving DecidableEq, Repr

/-- The machine right after reset: R35's values; the registers R36 leaves unspecified at the values log entry 9 names
(DESIGN CHOICE), the buffers with nothing listed (log entry 10). -/
def State.reset : State where
  crc := 0#16
  req := ⟨.rc, 0#8, 0#8, 0#16, 0#16⟩
  tx := []
  txLen := 0
  rx := []
  rxLen := 0
  rxOvf := false
  fsm := .idle
  cfgTimeout := Config.timeoutDefault
  cfgQuiet := Config.quietDefault
  cfgRetry := Config.retryDefault
  seqNext := 0
  curSeq := 0
  retriesLeft := 0
  attempts := 0
  lastError := none
  tStart := 0
  deadline := 0
  tLastRx := none
  timeoutL := 0
  quietL := 0
  store := []
  history := []
  inbox := []
  out := []

end Sys2Proof.Machine
end

