-- ==== Sys2Proof/Machine/Flags.lean ====
section
/-! DEFINITION. The derived conditions of 10_state.md R17 and the numeric codes of R14: computed from the state, not stored. -/

namespace Sys2Proof.Machine

/-- `busy = (fsm ≠ Idle)` (R17). -/
def busy (s : State) : Bool := decide (s.fsm ≠ .idle)

/-- "Active": Sending, AwaitingResponse or Validating (00_scope.md section 6). -/
def Fsm.active : Fsm → Bool
  | .sending | .awaitingResponse | .validating => true
  | .idle | .terminal _ => false

/-- The four values `fsm` rests in (R14). -/
def Fsm.resting : Fsm → Bool
  | .idle | .sending | .awaitingResponse | .validating => true
  | .terminal _ => false

/-- The 3-bit codes of R14. -/
def Fsm.code : Fsm → BitVec 3
  | .idle => 0#3
  | .sending => 1#3
  | .awaitingResponse => 2#3
  | .validating => 3#3
  | .terminal .completed => 4#3
  | .terminal .timedOut => 5#3
  | .terminal .failed => 6#3
  | .terminal .cancelled => 7#3

/-- `frame_complete` (44_sequencer.md R156): enough bytes, and silence of `quiet_l` since the last RX event. The
difference of times is compared as `t + quiet_l <= now`, the reading over the integers (log entry 12). -/
def frameComplete (s : State) (now : Nat) : Bool :=
  decide (Config.minReply ≤ s.rxLen) &&
    match s.tLastRx with
    | some t => decide (t + s.quietL ≤ now)
    | none => false

/-- `deadline_hit` (R156). -/
def deadlineHit (s : State) (now : Nat) : Bool := decide (s.deadline ≤ now)

end Sys2Proof.Machine
end

