-- ==== Sys2Proof/Machine/Ops.lean ====
section
/-! DEFINITION. The shared operations: the buffers, the store, the outputs, and the procedures of the sequencer
(44_sequencer.md R153 to R165), among them `Close`, the block's exception entry (60_exceptions.md R202). -/

namespace Sys2Proof.Machine

/-! ### Byte buffers (20_memory.md R40) -/

/-- What an index that holds nothing reads as. DESIGN CHOICE (log entry 10): R36 leaves the contents after reset open. -/
def Memory.unlisted : Byte := 0x00#8

/-- Read one byte. -/
def Memory.read : Memory → Nat → Byte
  | [], _ => Memory.unlisted
  | (k, v) :: m, a => if k = a then v else Memory.read m a

/-- Put a cell before a memory, unless it equals what an unlisted index reads as. -/
def Memory.consCell (a : Nat) (v : Byte) (m : Memory) : Memory := if v = Memory.unlisted then m else (a, v) :: m

/-- Write one byte, keeping the canonical form. -/
def Memory.write : Memory → Nat → Byte → Memory
  | [], a, v => Memory.consCell a v []
  | (k, w) :: m, a, v =>
    if a < k then Memory.consCell a v ((k, w) :: m)
    else if a = k then Memory.consCell a v m
    else (k, w) :: Memory.write m a v

/-- Write bytes at consecutive indexes. -/
def Memory.writeBytes : Memory → Nat → List Byte → Memory
  | m, _, [] => m
  | m, a, b :: bs => Memory.writeBytes (Memory.write m a b) (a + 1) bs

/-- Read `n` bytes at consecutive indexes. -/
def Memory.readBytes (m : Memory) : Nat → Nat → List Byte
  | _, 0 => []
  | a, n + 1 => Memory.read m a :: Memory.readBytes m (a + 1) n

/-- The canonical form, below index `size`: indexes strictly rising, no cell equal to an unlisted one. -/
abbrev Memory.Wf (size : Nat) (m : Memory) : Prop :=
  (m.map Prod.fst).Pairwise (· < ·) ∧ (∀ c ∈ m, c.2 ≠ Memory.unlisted) ∧ (∀ c ∈ m, c.1 < size)

/-! ### The register store (45_register_store.md R180 to R183) -/

/-- `MemRead(STORE, a, 1)`. -/
def Store.get : Store → Nat → Option Entry
  | [], _ => none
  | (k, e) :: st, a => if k = a then some e else Store.get st a

/-- `MemWrite(STORE, a, 1, e)`, keeping the keys strictly rising. -/
def Store.put : Store → Nat → Entry → Store
  | [], a, e => [(a, e)]
  | (k, x) :: st, a, e =>
    if a < k then (a, e) :: (k, x) :: st
    else if a = k then (a, e) :: st
    else (k, x) :: Store.put st a e

/-- The canonical form: keys strictly rising, each a 16-bit address. -/
abbrev Store.Wf (st : Store) : Prop := (st.map Prod.fst).Pairwise (· < ·) ∧ ∀ c ∈ st, c.1 < 65536

/-- The 16-bit words a value list stores: a coil as 0 or 1 (R180, R182). -/
def valueWords : Values → List Word
  | .regs vs => vs
  | .coils vs => vs.map (fun b => if b then 1#16 else 0#16)

/-- Entries at `addr`, `addr + 1`, ... modulo 65536, each with timestamp `now` (R182). Every item given is written, in
order, so past 65536 items the later one stands. DESIGN CHOICE (log entry 26). -/
def Store.putWords : Store → Word → List Word → Nat → Store
  | st, _, [], _ => st
  | st, addr, v :: vs, now => Store.putWords (Store.put st addr.toNat ⟨v, now⟩) (addr + 1#16) vs now

/-- The store update of R182. -/
def Store.update (st : Store) (addr : Word) (vs : Values) (now : Nat) : Store :=
  Store.putWords st addr (valueWords vs) now

/-! ### Outputs and registers -/

/-- `emit ch(m)` (00_scope.md R7). -/
def emit (m : Msg) (s : State) : State := { s with out := s.out ++ [m] }

/-- `TX[0..tx_len-1]`. -/
def txBytes (s : State) : List Byte := Memory.readBytes s.tx 0 s.txLen

/-- `RX[0..rx_len-1]`. -/
def rxBytes (s : State) : List Byte := Memory.readBytes s.rx 0 s.rxLen

/-- `crc_ok = Verify(RX[0..rx_len-1])` (10_state.md R17). -/
def crcOk (s : State) : Bool := verifyCrc (rxBytes s)

/-- A DISPATCH answered at once with `InvalidParameter` or `Busy`: `last_error` and the outcome, nothing else
(R153, 60_exceptions.md R192, R193). -/
def answerAtOnce (f : Failure) (s : State) : State :=
  { s with lastError := some f, out := s.out ++ [.outcome (.failure f)] }

/-! ### Encode and the sequencer's procedures -/

/-- `Encode(cmd)`: `TX`, `tx_len`, `req`, and the CRC register the frame's CRC was taken from (41_encode.md R101, R109). -/
def encodeOp (cmd : Command) (s : State) : State :=
  { s with
    crc := crc16 (Command.body cmd)
    tx := Memory.writeBytes s.tx 0 (Command.frame cmd)
    txLen := (Command.frame cmd).length
    req := Command.latch s.req cmd }

/-- `StartAttempt(now)` (R165). -/
def startAttemptOp (now : Nat) (s : State) : State :=
  { s with
    rxLen := 0
    rxOvf := false
    tLastRx := none
    deadline := now + s.timeoutL
    fsm := .sending
    out := s.out ++ [.tpWrite (txBytes s)] }

/-- A DISPATCH that starts a transaction: after `Encode`, allocate the id, sample the configuration (R153). -/
def beginTransaction (timeout : Option Nat) (now : Nat) (s : State) : State :=
  { s with
    curSeq := s.seqNext
    seqNext := s.seqNext + 1
    tStart := now
    timeoutL := timeout.getD s.cfgTimeout
    quietL := s.cfgQuiet
    retriesLeft := s.cfgRetry
    attempts := 1 }

/-- DISPATCH(cmd), DISPATCH_RAW: parameters, then busy, then start (R153, R154). -/
def dispatchOp (cmd : Command) (timeout : Option Nat) (now : Nat) (s : State) : State :=
  if !paramsPass cmd then answerAtOnce .invalidParameter s
  else if busy s then answerAtOnce .busy s
  else startAttemptOp now (beginTransaction timeout now (encodeOp cmd s))

/-- `elapsed = now - t_start` (R160, D35); a free value when time went backwards (log entry 12). -/
def elapsedTime (tStart now : Nat) : Nat :=
  if tStart ≤ now then now - tStart else Config.elapsedBackwards tStart now

/-- The terminal tag of a closing transaction (R160). -/
def verdictTerm : Verdict → Term
  | .success _ => .completed
  | .failure .timedOut => .timedOut
  | .failure .cancelled => .cancelled
  | .failure _ => .failed

/-- The Outcome record: a Success gains `elapsed` (R160). -/
def verdictOutcome (elapsed : Nat) : Verdict → TxnOutcome
  | .success p => .success p elapsed
  | .failure f => .failure f

/-- The store after a close: only read values are stored (R160, R182, R184). -/
def verdictStore (addr : Word) (now : Nat) (st : Store) : Verdict → Store
  | .success (.regValues vs) => Store.update st addr (.regs vs) now
  | .success (.coilValues vs) => Store.update st addr (.coils vs) now
  | .success (.written _ _) | .success (.raw _) | .failure _ => st

/-- `last_error` after a close: a Success leaves it (R160, R199). -/
def verdictLastError (old : Option Failure) : Verdict → Option Failure
  | .success _ => old
  | .failure f => some f

/-- The history record of a close (R160, 10_state.md R33). -/
def closeRecord (v : Verdict) (now : Nat) (s : State) : Record where
  seq := s.curSeq
  tStart := s.tStart
  tEnd := now
  attempts := s.attempts
  term := verdictTerm v
  request := txBytes s
  reply := rxBytes s
  outcome := verdictOutcome (elapsedTime s.tStart now) v

/-- `Close(outcome, now)`: the block's exception entry, the only way a transaction ends (R160, 60_exceptions.md R202).
`Idle` is restored by the same step; there is no return operation (R203). -/
def closeOp (v : Verdict) (now : Nat) (s : State) : State :=
  { s with
    store := verdictStore s.req.addr now s.store v
    lastError := verdictLastError s.lastError v
    history := s.history ++ [closeRecord v now s]
    out := s.out ++ [.outcome (verdictOutcome (elapsedTime s.tStart now) v)]
    fsm := .idle }

/-- The disconnect actions: empty the store, and close the transport when the transport is the cause (R164). -/
def disconnectActions (byTransport : Bool) (s : State) : State :=
  { s with store := [], out := s.out ++ (if byTransport then [Msg.tpClose] else []) }

/-- `AttemptFail(cls, fatal, now)` (R159): retry while the budget lasts, else close, with the disconnect actions
first when fatal. -/
def attemptFailOp (cls : AttemptClass) (severity : Severity) (now : Nat) (s : State) : State :=
  match severity with
  | .nonfatal =>
    if 0 < s.retriesLeft then
      startAttemptOp now { s with retriesLeft := s.retriesLeft - 1, attempts := s.attempts + 1 }
    else closeOp (.failure (AttemptClass.failure cls)) now s
  | .fatalTransport => closeOp (.failure (AttemptClass.failure cls)) now (disconnectActions true s)
  | .fatalHost => closeOp (.failure (AttemptClass.failure cls)) now (disconnectActions false s)

/-- `EvalWait(now)`: the complete-frame test before the deadline test (R156). -/
def evalWaitOp (now : Nat) (s : State) : State :=
  if frameComplete s now then { s with fsm := .validating }
  else if deadlineHit s now then attemptFailOp .timedOut .nonfatal now s
  else s

/-- One received byte: appended, or dropped with the sticky flag when `RX` is full (R157, 10_state.md R13). -/
def rxByte (s : State) (b : Byte) : State :=
  if s.rxLen < Config.rxBuf then { s with rx := Memory.write s.rx s.rxLen b, rxLen := s.rxLen + 1 }
  else { s with rxOvf := true }

/-- RX(bytes) in `AwaitingResponse` (R157). Every chunk re-arms `t_last_rx`, one that `RX` drops whole too (R157, R206,
R236; 10_state.md R20 words it otherwise: DEDUCED, log entry 14). A chunk of no bytes is a poll that returned none, a TICK (10_state.md
R31; log entry 13). -/
def receiveOp (bytes : List Byte) (now : Nat) (s : State) : State :=
  if bytes = [] then evalWaitOp now s
  else evalWaitOp now { bytes.foldl rxByte s with tLastRx := some now }

/-- VALIDATE in `Validating`: Decode, then Validate, then Close (R163). -/
def validateOp (now : Nat) (s : State) : State :=
  closeOp (judge (rxBytes s) s.rxOvf s.req) now { s with crc := crcAfterDecode s.crc (rxBytes s) s.rxOvf }

end Sys2Proof.Machine
end

