-- ==== Sys2Proof/Machine/Crc.lean ====
section
/-! DEFINITION. The meanings of the CRC primitives (40_crc.md R90 to R96). -/

namespace Sys2Proof.Machine

/-- CrcInit (R90). -/
def execCrcInit (s : State) : Host.Outcome State Fault Refusal := .next { s with crc := Config.crcInit }

/-- CrcByte(b) (R91). -/
def execCrcByte (b : Byte) (s : State) : Host.Outcome State Fault Refusal :=
  .next { s with crc := crcByteStep s.crc b }

/-- Crc16(B): the register is initialised and run over the bytes; the result is the register (R92). -/
def execCrc16 (bytes : List Byte) (s : State) : Host.Outcome State Fault Refusal :=
  .next (emit (.crcIs (crc16 bytes)) { s with crc := crc16 bytes })

/-- CrcBit(d) (R93). -/
def execCrcBit (d : Bool) (s : State) : Host.Outcome State Fault Refusal :=
  .next { s with crc := crcBitStep s.crc d }

/-- AppendCrc(B) (R95). -/
def execAppendCrc (bytes : List Byte) (s : State) : Host.Outcome State Fault Refusal :=
  .next (emit (.bytesAre (appendCrc bytes)) { s with crc := crc16 bytes })

/-- Verify(F) (R96). -/
def execVerify (frame : List Byte) (s : State) : Host.Outcome State Fault Refusal :=
  .next (emit (.verified (verifyCrc frame)) { s with crc := crcAfterVerify s.crc frame })

end Sys2Proof.Machine
end

