-- ==== Sys2Proof/Machine/Replies.lean ====
section
/-! DEFINITION. The meanings of the reply shapes, of Decode and of Validate (42_decode.md R120 to R129, 43_validate.md
R140). A reply row decodes its frame by the common prologue and its own shape (log entry 6). -/

namespace Sys2Proof.Machine

/-- A decode result on the output, with what the evaluation leaves in the CRC register (log entry 8). -/
def emitDecode (r : DecodeResult) (frame : List Byte) (ovf : Bool) (s : State) : State :=
  emit (.decoded r) { s with crc := crcAfterDecode s.crc frame ovf }

/-- RC.reply (R121). -/
def execRcReply (frame : List Byte) (s : State) : Host.Outcome State Fault Refusal :=
  .next (emitDecode (decodeWith parseBits frame false) frame false s)

/-- RHR.reply (R122). -/
def execRhrReply (frame : List Byte) (s : State) : Host.Outcome State Fault Refusal :=
  .next (emitDecode (decodeWith parseRegs frame false) frame false s)

/-- RIR.reply (R123). -/
def execRirReply (frame : List Byte) (s : State) : Host.Outcome State Fault Refusal :=
  .next (emitDecode (decodeWith parseRegs frame false) frame false s)

/-- WSC.reply (R124). -/
def execWscReply (frame : List Byte) (s : State) : Host.Outcome State Fault Refusal :=
  .next (emitDecode (decodeWith parseEcho frame false) frame false s)

/-- WSR.reply (R125). -/
def execWsrReply (frame : List Byte) (s : State) : Host.Outcome State Fault Refusal :=
  .next (emitDecode (decodeWith parseEcho frame false) frame false s)

/-- WMC.reply (R126). -/
def execWmcReply (frame : List Byte) (s : State) : Host.Outcome State Fault Refusal :=
  .next (emitDecode (decodeWith parseEcho frame false) frame false s)

/-- WMR.reply (R127). -/
def execWmrReply (frame : List Byte) (s : State) : Host.Outcome State Fault Refusal :=
  .next (emitDecode (decodeWith parseEcho frame false) frame false s)

/-- EXC.reply: the shape does not depend on the originating structured kind (R128). -/
def execExcReply (_kind : Kind) (frame : List Byte) (s : State) : Host.Outcome State Fault Refusal :=
  .next (emitDecode (decodeWith parseException frame false) frame false s)

/-- RAW.reply (R129). -/
def execRawReply (frame : List Byte) (s : State) : Host.Outcome State Fault Refusal :=
  .next (emitDecode (decodeWith parseRaw frame false) frame false s)

/-- Decode(frame, ovf, kind) (R120). -/
def execDecodeReply (frame : List Byte) (ovf : Bool) (kind : Kind) (s : State) : Host.Outcome State Fault Refusal :=
  .next (emitDecode (decodeFrame frame ovf kind) frame ovf s)

/-- Validate(resp, req) (R140). -/
def execValidateReply (resp : Decoded) (req : Req) (s : State) : Host.Outcome State Fault Refusal :=
  .next (emit (.validated (validateResponse resp req)) s)

end Sys2Proof.Machine
end

