-- ==== Sys2Proof/Machine/Requests.lean ====
section
/-! DEFINITION. The meanings of the request kinds and of the encoder's procedures (41_encode.md R100 to R109). A kind as
an instruction is "DISPATCH kind RC" and so on (30_encoding.md R84, log entry 5). -/

namespace Sys2Proof.Machine

/-- RC, function 01 (R102). -/
def execRc (slave : Byte) (addr qty : Word) (timeout : Option Nat) (now : Nat) (s : State) :
    Host.Outcome State Fault Refusal :=
  .next (dispatchOp (.structured 0x01#8 slave addr (.qty qty)) timeout now s)

/-- RHR, function 03 (R103). -/
def execRhr (slave : Byte) (addr qty : Word) (timeout : Option Nat) (now : Nat) (s : State) :
    Host.Outcome State Fault Refusal :=
  .next (dispatchOp (.structured 0x03#8 slave addr (.qty qty)) timeout now s)

/-- RIR, function 04 (R104). -/
def execRir (slave : Byte) (addr qty : Word) (timeout : Option Nat) (now : Nat) (s : State) :
    Host.Outcome State Fault Refusal :=
  .next (dispatchOp (.structured 0x04#8 slave addr (.qty qty)) timeout now s)

/-- WSC, function 05 (R105). -/
def execWsc (slave : Byte) (addr : Word) (coil : Bool) (timeout : Option Nat) (now : Nat) (s : State) :
    Host.Outcome State Fault Refusal :=
  .next (dispatchOp (.structured 0x05#8 slave addr (.coil coil)) timeout now s)

/-- WSR, function 06 (R106). -/
def execWsr (slave : Byte) (addr value : Word) (timeout : Option Nat) (now : Nat) (s : State) :
    Host.Outcome State Fault Refusal :=
  .next (dispatchOp (.structured 0x06#8 slave addr (.value value)) timeout now s)

/-- WMC, function 15 (R107). -/
def execWmc (slave : Byte) (addr qty : Word) (packed : List Byte) (timeout : Option Nat) (now : Nat) (s : State) :
    Host.Outcome State Fault Refusal :=
  .next (dispatchOp (.structured 0x0F#8 slave addr (.packed qty packed)) timeout now s)

/-- WMR, function 16 (R108). -/
def execWmr (slave : Byte) (addr qty : Word) (words : List Word) (timeout : Option Nat) (now : Nat) (s : State) :
    Host.Outcome State Fault Refusal :=
  .next (dispatchOp (.structured 0x10#8 slave addr (.words qty words)) timeout now s)

/-- RAW (R109). -/
def execRaw (bytes : List Byte) (timeout : Option Nat) (now : Nat) (s : State) : Host.Outcome State Fault Refusal :=
  .next (dispatchOp (.raw bytes) timeout now s)

/-- CheckParams(cmd): it reads only the Command; its result is `ok` or `InvalidParameter` (R100). -/
def execCheckParams (cmd : Command) (s : State) : Host.Outcome State Fault Refusal :=
  .next (emit (if paramsPass cmd then .paramsOk else .raised .invalidParameter) s)

/-- Encode(cmd) (R101, R109). A Command that fails CheckParams raises InvalidParameter and nothing is written
(00_scope.md R7; DEDUCED, log entry 18). -/
def execEncodeFrame (cmd : Command) (s : State) : Host.Outcome State Fault Refusal :=
  .next (if paramsPass cmd then encodeOp cmd s else emit (.raised .invalidParameter) s)

end Sys2Proof.Machine
end

