-- ==== Sys2Proof/Machine/Sequencer.lean ====
section
/-! DEFINITION. The meanings of the host operations, the environment events, VALIDATE and the sequencer's procedures
(44_sequencer.md R153 to R168, 45_register_store.md R181, R182). An event in a state that does not take it is ignored
(R151). -/

namespace Sys2Proof.Machine

/-! ### Host operations -/

/-- DISPATCH(cmd) (R153). -/
def execDispatch (fc slave : Byte) (addr : Word) (fields : Fields) (timeout : Option Nat) (now : Nat) (s : State) :
    Host.Outcome State Fault Refusal :=
  .next (dispatchOp (.structured fc slave addr fields) timeout now s)

/-- DISPATCH_RAW(bytes) (R154). -/
def execDispatchRaw (bytes : List Byte) (timeout : Option Nat) (now : Nat) (s : State) :
    Host.Outcome State Fault Refusal :=
  .next (dispatchOp (.raw bytes) timeout now s)

/-- CANCEL (R161). -/
def execCancel (now : Nat) (s : State) : Host.Outcome State Fault Refusal :=
  .next (if s.fsm = .awaitingResponse then closeOp (.failure .cancelled) now s else s)

/-- GET_REGISTER(a) (R181): the answer is the value; nothing else changes. -/
def execGetRegister (addr : Word) (_now : Nat) (s : State) : Host.Outcome State Fault Refusal :=
  .next (emit (.register ((Store.get s.store addr.toNat).map Entry.value)) s)

/-- READ_HISTORY (R167). -/
def execReadHistory (_now : Nat) (s : State) : Host.Outcome State Fault Refusal :=
  .next (emit (.historyIs s.history) s)

/-- READ_LAST_ERROR (R167). -/
def execReadLastError (_now : Nat) (s : State) : Host.Outcome State Fault Refusal :=
  .next (emit (.lastErrorIs s.lastError) s)

/-- CFG_WRITE(name, v): an unknown name is ignored (R168). -/
def execCfgWrite (name : Text) (v _now : Nat) (s : State) : Host.Outcome State Fault Refusal :=
  .next
    (if name = nameTimeout then { s with cfgTimeout := v }
     else if name = nameQuiet then { s with cfgQuiet := v }
     else if name = nameRetry then { s with cfgRetry := v }
     else s)

/-- CONNECT: no effect on block state (R166). -/
def execConnect (_portName : Text) (_baudRate _now : Nat) (s : State) : Host.Outcome State Fault Refusal := .next s

/-- DISCONNECT (R164). -/
def execDisconnect (now : Nat) (s : State) : Host.Outcome State Fault Refusal :=
  .next
    (if Fsm.active s.fsm then attemptFailOp (.transportError reasonDisconnected) .fatalHost now s
     else if s.fsm = .idle then disconnectActions false s
     else s)

/-! ### Environment events and VALIDATE -/

/-- WRITE_RESULT(res) (R155). `Ok(n)` with `n > tx_len` is treated as `Ok(tx_len)`. -/
def execWriteResult (res : WriteResult) (now : Nat) (s : State) : Host.Outcome State Fault Refusal :=
  .next
    (if s.fsm = .sending then
      match res with
      | .ok n =>
        if n < s.txLen then attemptFailOp (.transportError reasonShortWrite) .nonfatal now s
        else { s with fsm := .awaitingResponse }
      | .err reason => attemptFailOp (.transportError reason) .nonfatal now s
     else s)

/-- RX(bytes) (R157). -/
def execRx (bytes : List Byte) (now : Nat) (s : State) : Host.Outcome State Fault Refusal :=
  .next (if s.fsm = .awaitingResponse then receiveOp bytes now s else s)

/-- TICK (R158). -/
def execTick (now : Nat) (s : State) : Host.Outcome State Fault Refusal :=
  .next (if s.fsm = .awaitingResponse then evalWaitOp now s else s)

/-- TP_FAULT(reason, fatal) (R162). -/
def execTpFault (reason : Text) (fatal : Bool) (now : Nat) (s : State) : Host.Outcome State Fault Refusal :=
  .next
    (if Fsm.active s.fsm then
      attemptFailOp (.transportError reason) (if fatal then .fatalTransport else .nonfatal) now s
     else if s.fsm = .idle ∧ fatal = true then disconnectActions true s
     else s)

/-- VALIDATE: enabled only in `Validating` (R163). -/
def execValidate (now : Nat) (s : State) : Host.Outcome State Fault Refusal :=
  .next (if s.fsm = .validating then validateOp now s else s)

/-! ### Procedures on their own (log entry 7) -/

/-- StartAttempt(now) (R165). -/
def execStartAttempt (now : Nat) (s : State) : Host.Outcome State Fault Refusal := .next (startAttemptOp now s)

/-- EvalWait(now) (R156). -/
def execEvalWait (now : Nat) (s : State) : Host.Outcome State Fault Refusal := .next (evalWaitOp now s)

/-- AttemptFail(cls, fatal, now) (R159). -/
def execAttemptFail (cls : AttemptClass) (severity : Severity) (now : Nat) (s : State) :
    Host.Outcome State Fault Refusal :=
  .next (attemptFailOp cls severity now s)

/-- Close(outcome, now) (R160). -/
def execClose (verdict : Verdict) (now : Nat) (s : State) : Host.Outcome State Fault Refusal :=
  .next (closeOp verdict now s)

/-- StoreUpdate(addr, vs, now) (R182). The length of `vs` stands for `qty`; it is not held to `req.f2`. DESIGN CHOICE
(log entry 26). -/
def execStoreUpdate (addr : Word) (vs : Values) (now : Nat) (s : State) : Host.Outcome State Fault Refusal :=
  .next { s with store := Store.update s.store addr vs now }

end Sys2Proof.Machine
end

