-- ==== Sys2Proof/Machine/Dispatch.lean ====
section
/-! DEFINITION. One arm per constructor of Instr. -/

namespace Sys2Proof.Machine

def exec (i : Instr) (s : State) : Host.Outcome State Fault Refusal :=
  match i with
  -- request kinds
  | .rc slave addr qty timeout now => Sys2Proof.Machine.execRc slave addr qty timeout now s
  | .rhr slave addr qty timeout now => Sys2Proof.Machine.execRhr slave addr qty timeout now s
  | .rir slave addr qty timeout now => Sys2Proof.Machine.execRir slave addr qty timeout now s
  | .wsc slave addr coil timeout now => Sys2Proof.Machine.execWsc slave addr coil timeout now s
  | .wsr slave addr value timeout now => Sys2Proof.Machine.execWsr slave addr value timeout now s
  | .wmc slave addr qty packed timeout now => Sys2Proof.Machine.execWmc slave addr qty packed timeout now s
  | .wmr slave addr qty words timeout now => Sys2Proof.Machine.execWmr slave addr qty words timeout now s
  | .raw bytes timeout now => Sys2Proof.Machine.execRaw bytes timeout now s
  -- reply shapes
  | .rcReply frame => Sys2Proof.Machine.execRcReply frame s
  | .rhrReply frame => Sys2Proof.Machine.execRhrReply frame s
  | .rirReply frame => Sys2Proof.Machine.execRirReply frame s
  | .wscReply frame => Sys2Proof.Machine.execWscReply frame s
  | .wsrReply frame => Sys2Proof.Machine.execWsrReply frame s
  | .wmcReply frame => Sys2Proof.Machine.execWmcReply frame s
  | .wmrReply frame => Sys2Proof.Machine.execWmrReply frame s
  | .excReply kind frame => Sys2Proof.Machine.execExcReply kind frame s
  | .rawReply frame => Sys2Proof.Machine.execRawReply frame s
  -- host operations
  | .dispatch fc slave addr fields timeout now => Sys2Proof.Machine.execDispatch fc slave addr fields timeout now s
  | .dispatchRaw bytes timeout now => Sys2Proof.Machine.execDispatchRaw bytes timeout now s
  | .cancel now => Sys2Proof.Machine.execCancel now s
  | .getRegister addr now => Sys2Proof.Machine.execGetRegister addr now s
  | .readHistory now => Sys2Proof.Machine.execReadHistory now s
  | .readLastError now => Sys2Proof.Machine.execReadLastError now s
  | .cfgWrite name v now => Sys2Proof.Machine.execCfgWrite name v now s
  | .connect portName baudRate now => Sys2Proof.Machine.execConnect portName baudRate now s
  | .disconnect now => Sys2Proof.Machine.execDisconnect now s
  -- events and the internal step
  | .writeResult res now => Sys2Proof.Machine.execWriteResult res now s
  | .rx bytes now => Sys2Proof.Machine.execRx bytes now s
  | .tick now => Sys2Proof.Machine.execTick now s
  | .tpFault reason fatal now => Sys2Proof.Machine.execTpFault reason fatal now s
  | .validate now => Sys2Proof.Machine.execValidate now s
  -- procedures
  | .crcInit => Sys2Proof.Machine.execCrcInit s
  | .crcByte b => Sys2Proof.Machine.execCrcByte b s
  | .crc16 bytes => Sys2Proof.Machine.execCrc16 bytes s
  | .crcBit d => Sys2Proof.Machine.execCrcBit d s
  | .appendCrc bytes => Sys2Proof.Machine.execAppendCrc bytes s
  | .verify frame => Sys2Proof.Machine.execVerify frame s
  | .checkParams cmd => Sys2Proof.Machine.execCheckParams cmd s
  | .encodeFrame cmd => Sys2Proof.Machine.execEncodeFrame cmd s
  | .decodeReply frame ovf kind => Sys2Proof.Machine.execDecodeReply frame ovf kind s
  | .validateReply resp req => Sys2Proof.Machine.execValidateReply resp req s
  | .startAttempt now => Sys2Proof.Machine.execStartAttempt now s
  | .evalWait now => Sys2Proof.Machine.execEvalWait now s
  | .attemptFail cls severity now => Sys2Proof.Machine.execAttemptFail cls severity now s
  | .close verdict now => Sys2Proof.Machine.execClose verdict now s
  | .storeUpdate addr vs now => Sys2Proof.Machine.execStoreUpdate addr vs now s

end Sys2Proof.Machine
end

