-- ==== Sys2Proof/Machine/Input.lean ====
section
/-! DEFINITION. What the block does with an input that is no instruction, and where an opcode-table word is placed. -/

namespace Sys2Proof.Machine

/-- The state after reset struck in `s`: every register and memory at its reset value, nothing emitted; the rest of
the run and the messages already sent are the environment's (70_reset_and_hazards.md R220; log entry 21). -/
def resetOp (s : State) : State := { State.reset with inbox := s.inbox, out := s.out }

/-- A packet the decoder rejects. An unused host op number is ignored (30_encoding.md R81); a structured request
outside the seven function codes is DISPATCH's InvalidParameter (R72); any other is no event at all and the run is
excluded (log entry 22). -/
def onReject (r : Reject) (s : State) : Host.Outcome State Fault Refusal :=
  match r with
  | .unusedOp _ => .next s
  | .reservedFunction _ => .next (answerAtOnce .invalidParameter s)
  | .emptyPacket | .unknownOp _ | .truncated | .trailing | .nonCanonicalNat | .badTag | .badCoilWord
  | .badByteCount | .emptyChunk => .refused (.undecodable r)

/-- A packet put where `step` takes its next input. -/
def offer (p : List Byte) (s : State) : State := { s with inbox := .packet p :: s.inbox }

end Sys2Proof.Machine
end

