-- ==== Sys2Proof/Machine/Step.lean ====
section
/-! DEFINITION. One step: take the next input of the run and run it (00_scope.md R8; log entry 1). -/

namespace Sys2Proof.Machine

/-- With no input left the block waits (10_state.md R37); a reset takes effect as one step (R220); a packet is decoded
and its instruction run. -/
def step (s : State) : Host.Outcome State Fault Refusal :=
  match s.inbox with
  | [] => .next s
  | .reset :: rest => .next (resetOp { s with inbox := rest })
  | .packet p :: rest =>
    match decode p with
    | .ok i => exec i { s with inbox := rest }
    | .error r => onReject r { s with inbox := rest }

/-- `s` with the instruction of an opcode-table word as its next input (log entries 1, 4). -/
def State.withFetchWord (s : State) (nbits w : Nat) : State := offer (tablePacket nbits w) s

end Sys2Proof.Machine
end

