-- ==== Sys2Proof/Safety.lean ====
section
/-! DEFINITION. The terms claims are stated in: the invariants of the state (44_sequencer.md R169, 20_memory.md), the
premises on the environment (R152), what a started transaction looks like (R153, R165), and which parts of a state
anything can depend on (10_state.md R36). -/

namespace Sys2Proof.Safety

open Sys2Proof.Machine

/-- The form every step keeps: `fsm` rests in one of the first four values (R14), the lengths are in range and the
buffers canonical (R13, R40), the store canonical (R180). -/
structure Inv (s : State) : Prop where
  fsmRests : Fsm.resting s.fsm = true
  txLenLe : s.txLen ≤ 256
  rxLenLe : s.rxLen ≤ 256
  txWf : Memory.Wf 256 s.tx
  rxWf : Memory.Wf 256 s.rx
  storeWf : Store.Wf s.store

/-- The invariants of R169 (a), (d), (f) and of the receive side (R13, R156, R165), kept by the steps of the block. -/
structure ProtocolInv (s : State) : Prop where
  inv : Inv s
  started : s.seqNext = s.history.length + (if Fsm.active s.fsm then 1 else 0)
  seqs : s.history.map Record.seq = List.range s.history.length
  current : Fsm.active s.fsm = true → s.curSeq = s.history.length ∧ 1 ≤ s.attempts
  frameGood : Fsm.active s.fsm = true → verifyCrc (txBytes s) = true
  requestsGood : ∀ r ∈ s.history, verifyCrc r.request = true
  sendingEmpty : s.fsm = .sending → s.rxLen = 0 ∧ s.rxOvf = false ∧ s.tLastRx = none
  validatingFull : s.fsm = .validating → 5 ≤ s.rxLen
  overflowFull : s.rxOvf = true → s.rxLen = 256

/-- The next input is a step of the block as 00_scope.md R8 has it: a reset, an event, or a packet that is no
instruction; not a procedure or a reply row standing alone (log entry 7). -/
def nextIsEvent (s : State) : Bool :=
  match s.inbox with
  | .packet p :: _ =>
    match decode p with
    | .ok i => i.isEvent
    | .error _ => true
  | _ => true

/-- The instruction the next step runs, if the next input is a packet that encodes one. -/
def nextInstr (s : State) : Option Instr :=
  match s.inbox with
  | .packet p :: _ =>
    match decode p with
    | .ok i => some i
    | .error _ => none
  | _ => none

/-- The next input is a reset. -/
def nextIsReset (s : State) : Bool :=
  match s.inbox with
  | .reset :: _ => true
  | _ => false

/-- The outcome records among messages (10_state.md R32). -/
def outcomesOf (ms : List Msg) : List TxnOutcome :=
  ms.filterMap (fun m =>
    match m with
    | .outcome o => some o
    | .tpWrite _ | .tpClose | .register _ | .historyIs _ | .lastErrorIs _ | .crcIs _ | .bytesAre _ | .verified _
    | .paramsOk | .raised _ | .decoded _ | .validated _ => none)

/-- A byte string with its CRC, low byte first (30_encoding.md R60). -/
def framed (b : List Byte) : List Byte := b ++ [lo8 (crc16 b), hi8 (crc16 b)]

/-- A byte string with one bit flipped: bit `i mod 8` of byte `i div 8` (40_crc.md R94). -/
def flipBit (f : List Byte) (i : Nat) : List Byte := f.set (i / 8) (f.getD (i / 8) 0#8 ^^^ BitVec.twoPow 8 (i % 8))

/-- Slave id and function code of a decoded response; a raw reply has none (42_decode.md R130). -/
def headerOf : Decoded → Option (Byte × Byte)
  | .bits s fc _ _ => some (s, fc)
  | .regs s fc _ _ => some (s, fc)
  | .echo s fc _ _ => some (s, fc)
  | .exception s fc _ => some (s, fc)
  | .rawReply _ => none

/-- A reply frame that reaches step 5 of 42_decode.md R120. -/
def ReachesShape (f : List Byte) : Prop :=
  5 ≤ f.length ∧ verifyCrc f = true ∧ (f.getD 1 0#8).getLsbD 7 = false

/-- Premise (a) of R152 on the rest of a run: no event's `now` is below `t` or below an earlier event's. -/
def TimesRise : Nat → List Input → Prop
  | _, [] => True
  | t, .reset :: rest => TimesRise t rest
  | t, .packet p :: rest =>
    match decode p with
    | .ok i =>
      match i.eventTime with
      | some n => t ≤ n ∧ TimesRise n rest
      | none => TimesRise t rest
    | .error _ => TimesRise t rest

/-- With time at `t`: what the block has stored lies in the past, every record closed after it began, and what the
run brings lies in the future. -/
structure TimeInv (t : Nat) (s : State) : Prop where
  rises : TimesRise t s.inbox
  begun : Fsm.active s.fsm = true → s.tStart ≤ t
  heard : ∀ u, s.tLastRx = some u → Fsm.active s.fsm = true → u ≤ t
  records : ∀ r ∈ s.history, r.tStart ≤ r.tEnd

/-- The Command an instruction dispatches, with its timeout and time; none for the others (R84, R153, R154). -/
def requestOf : Instr → Option (Command × Option Nat × Nat)
  | .rc slave addr qty timeout now => some (.structured 0x01#8 slave addr (.qty qty), timeout, now)
  | .rhr slave addr qty timeout now => some (.structured 0x03#8 slave addr (.qty qty), timeout, now)
  | .rir slave addr qty timeout now => some (.structured 0x04#8 slave addr (.qty qty), timeout, now)
  | .wsc slave addr coil timeout now => some (.structured 0x05#8 slave addr (.coil coil), timeout, now)
  | .wsr slave addr value timeout now => some (.structured 0x06#8 slave addr (.value value), timeout, now)
  | .wmc slave addr qty packed timeout now => some (.structured 0x0F#8 slave addr (.packed qty packed), timeout, now)
  | .wmr slave addr qty words timeout now => some (.structured 0x10#8 slave addr (.words qty words), timeout, now)
  | .raw bytes timeout now => some (.raw bytes, timeout, now)
  | .dispatch fc slave addr fields timeout now => some (.structured fc slave addr fields, timeout, now)
  | .dispatchRaw bytes timeout now => some (.raw bytes, timeout, now)
  | .rcReply .. | .rhrReply .. | .rirReply .. | .wscReply .. | .wsrReply .. | .wmcReply .. | .wmrReply ..
  | .excReply .. | .rawReply ..
  | .cancel .. | .getRegister .. | .readHistory .. | .readLastError .. | .cfgWrite .. | .connect .. | .disconnect ..
  | .writeResult .. | .rx .. | .tick .. | .tpFault .. | .validate ..
  | .crcInit | .crcByte .. | .crc16 .. | .crcBit .. | .appendCrc .. | .verify .. | .checkParams ..
  | .encodeFrame .. | .decodeReply .. | .validateReply .. | .startAttempt .. | .evalWait ..
  | .attemptFail .. | .close .. | .storeUpdate .. => none

/-- The fields of a structured Command are those R30 gives its function code; any fields for a code outside the seven. -/
def FieldsFit (fc : Byte) (fields : Fields) : Prop :=
  match kindOfFc fc, fields with
  | some .rc, .qty _ | some .rhr, .qty _ | some .rir, .qty _ => True
  | some .wsc, .coil _ => True
  | some .wsr, .value _ => True
  | some .wmc, .packed _ _ => True
  | some .wmr, .words _ _ => True
  | none, _ => True
  | _, _ => False

/-- From `s`, transaction `t.curSeq` has just been started with this frame: R153's registers, R165's first attempt,
one `tp.write`, and nothing else (the request latch apart: a statement says what it holds). -/
structure Started (s t : State) (frame : List Byte) (timeout : Option Nat) (now : Nat) : Prop where
  txLen : t.txLen = frame.length
  txFrame : ∀ i, (h : i < frame.length) → Memory.read t.tx i = frame[i]
  txRest : ∀ i, frame.length ≤ i → Memory.read t.tx i = Memory.read s.tx i
  curSeq : t.curSeq = s.seqNext
  seqNext : t.seqNext = s.seqNext + 1
  tStart : t.tStart = now
  timeoutL : t.timeoutL = timeout.getD s.cfgTimeout
  quietL : t.quietL = s.cfgQuiet
  retriesLeft : t.retriesLeft = s.cfgRetry
  attempts : t.attempts = 1
  rxLen : t.rxLen = 0
  rxOvf : t.rxOvf = false
  tLastRx : t.tLastRx = none
  deadline : t.deadline = now + t.timeoutL
  fsm : t.fsm = .sending
  out : t.out = s.out ++ [.tpWrite frame]
  rxSame : t.rx = s.rx
  lastErrorSame : t.lastError = s.lastError
  cfgSame : t.cfgTimeout = s.cfgTimeout ∧ t.cfgQuiet = s.cfgQuiet ∧ t.cfgRetry = s.cfgRetry
  storeSame : t.store = s.store
  historySame : t.history = s.history
  inboxSame : t.inbox = s.inbox

/-- `s` and `t` agree on everything a step of the block can depend on: while no transaction is active the buffers'
contents, `crc`, `req` and the timing registers are dead (10_state.md R36, 44_sequencer.md R160); while one is, only
`crc`, the bytes past the two lengths and, for RAW, the fields of `req` other than `kind` are (R11, R12). -/
structure SameSeen (s t : State) : Prop where
  txLen : t.txLen = s.txLen
  rxLen : t.rxLen = s.rxLen
  rxOvf : t.rxOvf = s.rxOvf
  fsm : t.fsm = s.fsm
  cfgTimeout : t.cfgTimeout = s.cfgTimeout
  cfgQuiet : t.cfgQuiet = s.cfgQuiet
  cfgRetry : t.cfgRetry = s.cfgRetry
  seqNext : t.seqNext = s.seqNext
  retriesLeft : t.retriesLeft = s.retriesLeft
  attempts : t.attempts = s.attempts
  lastError : t.lastError = s.lastError
  store : t.store = s.store
  history : t.history = s.history
  inbox : t.inbox = s.inbox
  out : t.out = s.out
  activeTx : Fsm.active s.fsm = true → txBytes t = txBytes s ∧ rxBytes t = rxBytes s
  activeReq : Fsm.active s.fsm = true → t.req.kind = s.req.kind ∧ (s.req.kind ≠ .raw → t.req = s.req)
  activeTimes : Fsm.active s.fsm = true →
    t.curSeq = s.curSeq ∧ t.tStart = s.tStart ∧ t.deadline = s.deadline ∧ t.tLastRx = s.tLastRx ∧
      t.timeoutL = s.timeoutL ∧ t.quietL = s.quietL

end Sys2Proof.Safety
end

