-- ==== Sys2Proof/Certificates/Slice0/Obligations.lean ====
section
/-! DEFINITION. The statements for the provers. Each docstring names the rule of spec/ it formalises; a clause that rests on a choice of the model names its log entry. -/

open Sys2Proof Sys2Proof.Machine Sys2Proof.Safety

/-! ### Reset, the step, decoding -/

/-- 10_state.md R35: the defined reset values. -/
def Obligations.ResetValues : Prop :=
  State.reset.fsm = .idle ∧ State.reset.txLen = 0 ∧ State.reset.rxLen = 0 ∧ State.reset.rxOvf = false ∧
  State.reset.seqNext = 0 ∧ State.reset.retriesLeft = 0 ∧ State.reset.attempts = 0 ∧ State.reset.lastError = none ∧
  State.reset.cfgTimeout = 1000 ∧ State.reset.cfgQuiet = 4 ∧ State.reset.cfgRetry = 0 ∧
  (∀ a : Word, Store.get State.reset.store a.toNat = none) ∧ State.reset.history = [] ∧ State.reset.out = []

/-- 00_scope.md R8, 70_reset_and_hazards.md R220: a step runs the decoded instruction of the next packet; a reset is
one step that emits nothing; with no input the block waits (the inbox is the model's: log entries 1, 21). -/
def Obligations.StepTakesNextInput : Prop :=
  (∀ (s : State) (p : List Byte) (rest : List Input) (i : Instr), s.inbox = .packet p :: rest → decode p = .ok i →
    step s = exec i { s with inbox := rest }) ∧
  (∀ (s : State) (rest : List Input), s.inbox = .reset :: rest →
    step s = .next { State.reset with inbox := rest, out := s.out }) ∧
  (∀ s : State, s.inbox = [] → step s = .next s)

/-- The state after reset meets the invariants (the values log entries 9 and 10 choose among them). -/
def Obligations.ResetMeetsInvariants : Prop := ProtocolInv State.reset

/-- 30_encoding.md R81: the op numbers of the nine host operations, and 9 to 15 ignored. -/
def Obligations.HostOpNumbers : Prop :=
  (∀ (fc slave : Byte) (addr : Word) (fields : Fields) (timeout : Option Nat) (now : Nat),
    (encode (.dispatch fc slave addr fields timeout now)).head? = some 0#8) ∧
  (∀ (bytes : List Byte) (timeout : Option Nat) (now : Nat), (encode (.dispatchRaw bytes timeout now)).head? = some 1#8) ∧
  (∀ now : Nat, (encode (.cancel now)).head? = some 2#8) ∧
  (∀ (a : Word) (now : Nat), (encode (.getRegister a now)).head? = some 3#8) ∧
  (∀ now : Nat, (encode (.readHistory now)).head? = some 4#8) ∧
  (∀ now : Nat, (encode (.readLastError now)).head? = some 5#8) ∧
  (∀ (name : Text) (v now : Nat), (encode (.cfgWrite name v now)).head? = some 6#8) ∧
  (∀ (name : Text) (baud now : Nat), (encode (.connect name baud now)).head? = some 7#8) ∧
  (∀ now : Nat, (encode (.disconnect now)).head? = some 8#8) ∧
  (∀ (s : State) (op : Byte) (body : List Byte) (rest : List Input), 9 ≤ op.toNat → op.toNat ≤ 15 →
    s.inbox = .packet (op :: body) :: rest → step s = .next { s with inbox := rest })

/-- 30_encoding.md R72: a structured Command with a function code outside the seven is InvalidParameter and nothing is
sent, by DISPATCH and by a request frame; the raw path sends any bytes. -/
def Obligations.ReservedFunctionCodes : Prop :=
  (∀ fc : Byte, fc ∉ [0x01#8, 0x03#8, 0x04#8, 0x05#8, 0x06#8, 0x0F#8, 0x10#8] →
    (∀ (slave : Byte) (addr : Word) (fields : Fields) (timeout : Option Nat) (now : Nat) (s : State),
      exec (.dispatch fc slave addr fields timeout now) s =
        .next { s with
          lastError := some .invalidParameter
          out := s.out ++ [.outcome (.failure .invalidParameter)] }) ∧
    (∀ (s : State) (rest : List Input) (timeout : Option Nat) (now : Nat) (slave : Byte) (body : List Byte),
      s.inbox = .packet (requestPacket timeout now (slave :: fc :: body)) :: rest →
      step s =
        .next { s with
          inbox := rest
          lastError := some .invalidParameter
          out := s.out ++ [.outcome (.failure .invalidParameter)] })) ∧
  (∀ (bytes : List Byte) (timeout : Option Nat) (now : Nat) (s : State), bytes.length ≤ 254 → s.fsm = .idle →
    Memory.Wf 256 s.tx →
    ∃ t, exec (.raw bytes timeout now) s = .next t ∧ t.out = s.out ++ [.tpWrite (framed bytes)])

/-- Decoding the packet of a well-formed instruction gives it back, every operand at every value (frames by
30_encoding.md R61, R62; the rest of the packet by log entry 3). -/
def Obligations.DecodeEncode : Prop := ∀ i : Instr, WellFormed i = true → decode (encode i) = .ok i

/-- The other direction: a packet that decodes is the packet of what it decodes to, which is well formed. -/
def Obligations.DecodedPacketIsEncoding : Prop :=
  ∀ (p : List Byte) (i : Instr), decode p = .ok i → WellFormed i = true ∧ encode i = p

/-- Words written out from the spec's encodings decode to what they stand for (41_encode.md R102 to R108, 42_decode.md
R121, R128, 30_encoding.md R81). -/
def Obligations.FrameWordsDecode : Prop :=
  decode [0x40#8, 0x00#8, 0x00#8, 0x01#8, 0x03#8, 0x00#8, 0x00#8, 0x00#8, 0x02#8] = .ok (.rhr 0x01#8 0x0000#16 0x0002#16 none 0) ∧
  decode [0x40#8, 0x07#8, 0x00#8, 0x01#8, 0x01#8, 0x00#8, 0x13#8, 0x00#8, 0x25#8] = .ok (.rc 0x01#8 0x0013#16 0x0025#16 none 7) ∧
  decode [0x40#8, 0x00#8, 0x01#8, 0x64#8, 0x01#8, 0x05#8, 0x00#8, 0xAC#8, 0xFF#8, 0x00#8] =
    .ok (.wsc 0x01#8 0x00AC#16 true (some 100) 0) ∧
  decode [0x40#8, 0x00#8, 0x00#8, 0x01#8, 0x10#8, 0x00#8, 0x01#8, 0x00#8, 0x02#8, 0x04#8, 0x00#8, 0x0A#8, 0x01#8, 0x02#8] =
    .ok (.wmr 0x01#8 0x0001#16 0x0002#16 [0x000A#16, 0x0102#16] none 0) ∧
  decode [0x51#8, 0x01#8, 0x83#8, 0x02#8, 0xC0#8, 0xF1#8] =
    .ok (.excReply .rhr [0x01#8, 0x83#8, 0x02#8, 0xC0#8, 0xF1#8]) ∧
  decode [0x03#8, 0x12#8, 0x00#8, 0x01#8] = .ok (.getRegister 0x0001#16 18)

/-! ### The CRC engine -/

/-- 40_crc.md R90. -/
def Obligations.CrcInitLoadsOnes : Prop := ∀ s : State, exec .crcInit s = .next { s with crc := 0xFFFF#16 }

/-- 40_crc.md R91: the byte enters the low half, eight conditional shifts follow; the table form is an equal
realisation; the all-zero register with a zero byte is a fixed point; the rule's four examples. -/
def Obligations.CrcByteStep : Prop :=
  (∀ (b : Byte) (s : State),
    exec (.crcByte b) s =
      .next { s with
        crc := (fun x : Word => if x.getLsbD 0 = true then (x >>> 1) ^^^ 0xA001#16 else x >>> 1)^[8]
          (s.crc ^^^ b.setWidth 16) }) ∧
  (∀ (b : Byte) (s : State),
    exec (.crcByte b) s =
      .next { s with
        crc := (s.crc >>> 8) ^^^ crcByteStep (((s.crc ^^^ b.setWidth 16) &&& 0x00FF#16)) 0x00#8 }) ∧
  crcByteStep 0x0000#16 0x00#8 = 0x0000#16 ∧ crcByteStep 0xFFFF#16 0x00#8 = 0x40BF#16 ∧
  crcByteStep 0xFFFF#16 0x01#8 = 0x807E#16 ∧ crcByteStep 0xFFFF#16 0xFF#8 = 0x00FF#16 ∧
  crcByteStep 0xFFFF#16 0x80#8 = 0xE0BE#16

/-- 40_crc.md R93: the bit-serial step, and eight of them, least significant data bit first, are CrcByte. -/
def Obligations.CrcBitSerial : Prop :=
  (∀ (d : Bool) (s : State),
    exec (.crcBit d) s =
      .next { s with
        crc := if (s.crc.getLsbD 0 ^^ d) = true then (s.crc >>> 1) ^^^ 0xA001#16 else s.crc >>> 1 }) ∧
  (∀ (c : Word) (b : Byte), crcByteStep c b = ((List.range 8).map (fun k => b.getLsbD k)).foldl crcBitStep c)

/-- 40_crc.md R92: initialise, fold the bytes in order, the result is the register; the empty string gives 0xFFFF; the
source's example and the check value. -/
def Obligations.Crc16FoldsBytes : Prop :=
  (∀ (bs : List Byte) (s : State),
    exec (.crc16 bs) s =
      .next { s with
        crc := bs.foldl crcByteStep 0xFFFF#16
        out := s.out ++ [.crcIs (bs.foldl crcByteStep 0xFFFF#16)] }) ∧
  crc16 [] = 0xFFFF#16 ∧
  crc16 [0x01#8, 0x03#8, 0x00#8, 0x00#8, 0x00#8, 0x02#8] = 0x0BC4#16 ∧
  crc16 [0x31#8, 0x32#8, 0x33#8, 0x34#8, 0x35#8, 0x36#8, 0x37#8, 0x38#8, 0x39#8] = 0x4B37#16

/-- 40_crc.md R95: the CRC of the bytes is appended, low byte first. -/
def Obligations.AppendCrcLowByteFirst : Prop :=
  ∀ (bs : List Byte) (s : State),
    exec (.appendCrc bs) s =
      .next { s with
        crc := crc16 bs
        out := s.out ++ [.bytesAre (bs ++ [(crc16 bs).setWidth 8, ((crc16 bs) >>> 8).setWidth 8])] }

/-- 40_crc.md R96: true exactly when the two trailing bytes are the CRC of the others; false for fewer than two. What
the register holds afterwards is left open here (log entry 8). -/
def Obligations.VerifyComparesTrailingBytes : Prop :=
  ∀ (f : List Byte) (s : State), ∃ (c : Word) (r : Bool),
    exec (.verify f) s = .next { s with crc := c, out := s.out ++ [.verified r] } ∧
    (f.length < 2 → r = false) ∧
    (∀ (body : List Byte) (l h : Byte), f = body ++ [l, h] → (r = true ↔ l = lo8 (crc16 body) ∧ h = hi8 (crc16 body)))

/-- 40_crc.md R94 (a): what the generator makes, the validator accepts. -/
def Obligations.GeneratorMeetsValidator : Prop := ∀ bs : List Byte, verifyCrc (appendCrc bs) = true

/-- 40_crc.md R94 (b): flipping any single bit of the bytes or of the appended CRC is detected. -/
def Obligations.SingleBitErrorDetected : Prop :=
  ∀ (bs : List Byte) (i : Nat), i < 8 * (bs.length + 2) → verifyCrc (flipBit (appendCrc bs) i) = false

/-- 40_crc.md R94 (c): linearity over strings of equal length. -/
def Obligations.CrcLinear : Prop :=
  ∀ as bs : List Byte, as.length = bs.length →
    crc16 (List.zipWith (· ^^^ ·) as bs) = crc16 as ^^^ crc16 bs ^^^ crc16 (List.replicate as.length 0x00#8)

/-- 40_crc.md R97: the streaming validator's residue. -/
def Obligations.StreamingResidue : Prop :=
  ∀ f : List Byte, 2 ≤ f.length → (verifyCrc f = true ↔ crc16 f = 0x0000#16)

/-! ### Requests -/

/-- 41_encode.md R100: the parameter check, every condition, for Commands whose fields are those of their function
code (10_state.md R30). It reads the Command and changes nothing. -/
def Obligations.CheckParamsDecides : Prop :=
  (∀ (bytes : List Byte) (s : State),
    exec (.checkParams (.raw bytes)) s =
      .next { s with out := s.out ++ [if bytes.length ≤ 254 then .paramsOk else .raised .invalidParameter] }) ∧
  (∀ (fc slave : Byte) (addr : Word) (fields : Fields) (s : State), FieldsFit fc fields →
    ∃ m, exec (.checkParams (.structured fc slave addr fields)) s = .next { s with out := s.out ++ [m] } ∧
      (m = .paramsOk ∨ m = .raised .invalidParameter) ∧
      (m = .paramsOk ↔
        slave ≠ 0x00#8 ∧ fc ∈ [0x01#8, 0x03#8, 0x04#8, 0x05#8, 0x06#8, 0x0F#8, 0x10#8] ∧
        (∀ q, fields = .qty q → 1 ≤ q.toNat ∧ q.toNat ≤ (if fc = 0x01#8 then 2000 else 125)) ∧
        (∀ q bs, fields = .packed q bs → 1 ≤ q.toNat ∧ q.toNat ≤ 1968 ∧ bs.length = (q.toNat + 7) / 8) ∧
        (∀ q ws, fields = .words q ws → 1 ≤ q.toNat ∧ q.toNat ≤ 123 ∧ ws.length = q.toNat)))

/-- 41_encode.md R101, byte position by byte position, with R109 for RAW; every other register, and `TX` from `tx_len`
on, is unchanged. -/
def Obligations.EncodeMultiplexer : Prop :=
  ∀ (cmd : Command) (s : State), paramsPass cmd = true → Memory.Wf 256 s.tx →
    ∃ t, exec (.encodeFrame cmd) s = .next t ∧
      t = { s with crc := t.crc, tx := t.tx, txLen := t.txLen, req := t.req } ∧
      (∀ i, t.txLen ≤ i → Memory.read t.tx i = Memory.read s.tx i) ∧
      Memory.read t.tx (t.txLen - 2) = lo8 (crc16 (Memory.readBytes t.tx 0 (t.txLen - 2))) ∧
      Memory.read t.tx (t.txLen - 1) = hi8 (crc16 (Memory.readBytes t.tx 0 (t.txLen - 2))) ∧
      (∀ bytes, cmd = .raw bytes →
        t.txLen = bytes.length + 2 ∧ t.req.kind = .raw ∧ ∀ i, (h : i < bytes.length) → Memory.read t.tx i = bytes[i]) ∧
      (∀ fc slave addr fields, cmd = .structured fc slave addr fields →
        Memory.read t.tx 0 = slave ∧ Memory.read t.tx 1 = fc ∧
        Memory.read t.tx 2 = hi8 addr ∧ Memory.read t.tx 3 = lo8 addr ∧
        kindOfFc fc = some t.req.kind ∧ t.req.slaveId = slave ∧ t.req.fc = fc ∧ t.req.addr = addr ∧
        Memory.read t.tx 4 = hi8 t.req.f2 ∧ Memory.read t.tx 5 = lo8 t.req.f2 ∧
        (∀ q, fields = .qty q → t.req.f2 = q ∧ t.txLen = 8) ∧
        (∀ on, fields = .coil on → t.req.f2 = (if on = true then 0xFF00#16 else 0x0000#16) ∧ t.txLen = 8) ∧
        (∀ v, fields = .value v → t.req.f2 = v ∧ t.txLen = 8) ∧
        (∀ q bs, fields = .packed q bs →
          t.req.f2 = q ∧ (Memory.read t.tx 6).toNat = (q.toNat + 7) / 8 ∧ t.txLen = 9 + bs.length ∧
          ∀ i, (h : i < bs.length) → Memory.read t.tx (7 + i) = bs[i]) ∧
        (∀ q ws, fields = .words q ws →
          t.req.f2 = q ∧ (Memory.read t.tx 6).toNat = 2 * q.toNat ∧ t.txLen = 9 + 2 * ws.length ∧
          ∀ i, (h : i < ws.length) →
            Memory.read t.tx (7 + 2 * i) = hi8 ws[i] ∧ Memory.read t.tx (8 + 2 * i) = lo8 ws[i]))

/-- 41_encode.md R110: (a) the frame verifies, (b) its length bounds, (c) encoding is one-to-one on structured
Commands and the fields read back, (d) the byte counts fit a byte. -/
def Obligations.EncoderLaws : Prop :=
  (∀ cmd : Command, paramsPass cmd = true → verifyCrc (Command.frame cmd) = true) ∧
  (∀ bytes : List Byte, paramsPass (.raw bytes) = true →
    2 ≤ (Command.frame (.raw bytes)).length ∧ (Command.frame (.raw bytes)).length ≤ 256) ∧
  (∀ (fc slave : Byte) (addr : Word) (fields : Fields), paramsPass (.structured fc slave addr fields) = true →
    8 ≤ (Command.frame (.structured fc slave addr fields)).length ∧
    (Command.frame (.structured fc slave addr fields)).length ≤ 255 ∧
    byteAt (Command.frame (.structured fc slave addr fields)) 0 = slave ∧
    wordAt (Command.frame (.structured fc slave addr fields)) 2 = addr ∧
    wordAt (Command.frame (.structured fc slave addr fields)) 4 = Fields.word fields ∧
    (∀ q, fields = .qty q → (Command.frame (.structured fc slave addr fields)).length = 8) ∧
    (∀ on, fields = .coil on → (Command.frame (.structured fc slave addr fields)).length = 8) ∧
    (∀ v, fields = .value v → (Command.frame (.structured fc slave addr fields)).length = 8) ∧
    (∀ q bs, fields = .packed q bs →
      10 ≤ (Command.frame (.structured fc slave addr fields)).length ∧ (q.toNat + 7) / 8 ≤ 246) ∧
    (∀ q ws, fields = .words q ws →
      10 ≤ (Command.frame (.structured fc slave addr fields)).length ∧ 2 * q.toNat ≤ 246)) ∧
  (∀ (fc fc' slave slave' : Byte) (addr addr' : Word) (fields fields' : Fields),
    paramsPass (.structured fc slave addr fields) = true → paramsPass (.structured fc' slave' addr' fields') = true →
    Command.frame (.structured fc slave addr fields) = Command.frame (.structured fc' slave' addr' fields') →
    fc = fc' ∧ slave = slave' ∧ addr = addr' ∧ fields = fields')

/-- 41_encode.md R102, R103, R104, as operations of the block (30_encoding.md R84): in Idle with legal operands the
8-byte frame is in `TX`, the request is latched and the transaction started; otherwise InvalidParameter. -/
def Obligations.ReadRequests : Prop :=
  ∀ (slave : Byte) (addr qty : Word) (timeout : Option Nat) (now : Nat) (s : State),
    (s.fsm = .idle → Memory.Wf 256 s.tx → slave ≠ 0x00#8 → 1 ≤ qty.toNat → qty.toNat ≤ 2000 →
      ∃ t, exec (.rc slave addr qty timeout now) s = .next t ∧
        Started s t (framed [slave, 0x01#8, hi8 addr, lo8 addr, hi8 qty, lo8 qty]) timeout now ∧
        t.req = ⟨.rc, slave, 0x01#8, addr, qty⟩) ∧
    (s.fsm = .idle → Memory.Wf 256 s.tx → slave ≠ 0x00#8 → 1 ≤ qty.toNat → qty.toNat ≤ 125 →
      ∃ t, exec (.rhr slave addr qty timeout now) s = .next t ∧
        Started s t (framed [slave, 0x03#8, hi8 addr, lo8 addr, hi8 qty, lo8 qty]) timeout now ∧
        t.req = ⟨.rhr, slave, 0x03#8, addr, qty⟩) ∧
    (s.fsm = .idle → Memory.Wf 256 s.tx → slave ≠ 0x00#8 → 1 ≤ qty.toNat → qty.toNat ≤ 125 →
      ∃ t, exec (.rir slave addr qty timeout now) s = .next t ∧
        Started s t (framed [slave, 0x04#8, hi8 addr, lo8 addr, hi8 qty, lo8 qty]) timeout now ∧
        t.req = ⟨.rir, slave, 0x04#8, addr, qty⟩) ∧
    (slave = 0x00#8 ∨ qty.toNat = 0 ∨ 2000 < qty.toNat →
      exec (.rc slave addr qty timeout now) s =
        .next { s with
          lastError := some .invalidParameter
          out := s.out ++ [.outcome (.failure .invalidParameter)] }) ∧
    (slave = 0x00#8 ∨ qty.toNat = 0 ∨ 125 < qty.toNat →
      exec (.rhr slave addr qty timeout now) s =
        .next { s with
          lastError := some .invalidParameter
          out := s.out ++ [.outcome (.failure .invalidParameter)] } ∧
      exec (.rir slave addr qty timeout now) s =
        .next { s with
          lastError := some .invalidParameter
          out := s.out ++ [.outcome (.failure .invalidParameter)] })

/-- 41_encode.md R105, R106: the value word of a coil is 0xFF00 or 0x0000, every register value is legal. -/
def Obligations.WriteSingleRequests : Prop :=
  ∀ (slave : Byte) (addr value : Word) (coil : Bool) (timeout : Option Nat) (now : Nat) (s : State),
    (s.fsm = .idle → Memory.Wf 256 s.tx → slave ≠ 0x00#8 →
      ∃ t, exec (.wsc slave addr coil timeout now) s = .next t ∧
        Started s t (framed [slave, 0x05#8, hi8 addr, lo8 addr, if coil = true then 0xFF#8 else 0x00#8, 0x00#8]) timeout now ∧
        t.req = ⟨.wsc, slave, 0x05#8, addr, if coil = true then 0xFF00#16 else 0x0000#16⟩) ∧
    (s.fsm = .idle → Memory.Wf 256 s.tx → slave ≠ 0x00#8 →
      ∃ t, exec (.wsr slave addr value timeout now) s = .next t ∧
        Started s t (framed [slave, 0x06#8, hi8 addr, lo8 addr, hi8 value, lo8 value]) timeout now ∧
        t.req = ⟨.wsr, slave, 0x06#8, addr, value⟩) ∧
    (slave = 0x00#8 →
      exec (.wsc slave addr coil timeout now) s =
        .next { s with
          lastError := some .invalidParameter
          out := s.out ++ [.outcome (.failure .invalidParameter)] } ∧
      exec (.wsr slave addr value timeout now) s =
        .next { s with
          lastError := some .invalidParameter
          out := s.out ++ [.outcome (.failure .invalidParameter)] })

/-- 41_encode.md R107, R108: byte count and data follow the quantity; packed bytes are sent as supplied, words high byte
first. -/
def Obligations.WriteMultipleRequests : Prop :=
  ∀ (slave : Byte) (addr qty : Word) (packed : List Byte) (words : List Word) (timeout : Option Nat) (now : Nat)
    (s : State),
    (s.fsm = .idle → Memory.Wf 256 s.tx → slave ≠ 0x00#8 → 1 ≤ qty.toNat → qty.toNat ≤ 1968 →
      packed.length = (qty.toNat + 7) / 8 →
      ∃ t, exec (.wmc slave addr qty packed timeout now) s = .next t ∧
        Started s t
          (framed ([slave, 0x0F#8, hi8 addr, lo8 addr, hi8 qty, lo8 qty, BitVec.ofNat 8 packed.length] ++ packed))
          timeout now ∧
        t.req = ⟨.wmc, slave, 0x0F#8, addr, qty⟩) ∧
    (s.fsm = .idle → Memory.Wf 256 s.tx → slave ≠ 0x00#8 → 1 ≤ qty.toNat → qty.toNat ≤ 123 →
      words.length = qty.toNat →
      ∃ t, exec (.wmr slave addr qty words timeout now) s = .next t ∧
        Started s t
          (framed ([slave, 0x10#8, hi8 addr, lo8 addr, hi8 qty, lo8 qty, BitVec.ofNat 8 (2 * words.length)] ++
            words.flatMap (fun w => [hi8 w, lo8 w])))
          timeout now ∧
        t.req = ⟨.wmr, slave, 0x10#8, addr, qty⟩) ∧
    (slave = 0x00#8 ∨ qty.toNat = 0 ∨ 1968 < qty.toNat ∨ packed.length ≠ (qty.toNat + 7) / 8 →
      exec (.wmc slave addr qty packed timeout now) s =
        .next { s with
          lastError := some .invalidParameter
          out := s.out ++ [.outcome (.failure .invalidParameter)] }) ∧
    (slave = 0x00#8 ∨ qty.toNat = 0 ∨ 123 < qty.toNat ∨ words.length ≠ qty.toNat →
      exec (.wmr slave addr qty words timeout now) s =
        .next { s with
          lastError := some .invalidParameter
          out := s.out ++ [.outcome (.failure .invalidParameter)] })

/-- 41_encode.md R109: the caller's bytes, whatever they are, and a fresh CRC; only a length above 254 is refused. -/
def Obligations.RawRequest : Prop :=
  ∀ (bytes : List Byte) (timeout : Option Nat) (now : Nat) (s : State),
    (s.fsm = .idle → Memory.Wf 256 s.tx → bytes.length ≤ 254 →
      ∃ t, exec (.raw bytes timeout now) s = .next t ∧ Started s t (framed bytes) timeout now ∧ t.req.kind = .raw) ∧
    (254 < bytes.length →
      exec (.raw bytes timeout now) s =
        .next { s with
          lastError := some .invalidParameter
          out := s.out ++ [.outcome (.failure .invalidParameter)] })

/-- 44_sequencer.md R153, R154: parameter failure first, then Busy, neither changing anything but `last_error` and the
outcome; else the transaction starts with the sampled configuration. -/
def Obligations.DispatchThreeWays : Prop :=
  ∀ (i : Instr) (cmd : Command) (timeout : Option Nat) (now : Nat) (s : State),
    ((∃ bytes, i = .dispatchRaw bytes timeout now ∧ cmd = .raw bytes) ∨
      (∃ fc slave addr fields, i = .dispatch fc slave addr fields timeout now ∧ cmd = .structured fc slave addr fields)) →
    (paramsPass cmd = false →
      exec i s =
        .next { s with
          lastError := some .invalidParameter
          out := s.out ++ [.outcome (.failure .invalidParameter)] }) ∧
    (paramsPass cmd = true → s.fsm ≠ .idle →
      exec i s = .next { s with lastError := some .busy, out := s.out ++ [.outcome (.failure .busy)] }) ∧
    (paramsPass cmd = true → s.fsm = .idle → Memory.Wf 256 s.tx →
      ∃ t u, exec i s = .next t ∧ Started s t (Command.frame cmd) timeout now ∧
        exec (.encodeFrame cmd) s = .next u ∧ t.req = u.req)

/-- 30_encoding.md R84: a request line is DISPATCH of its kind, RAW is DISPATCH_RAW. -/
def Obligations.RequestKindsAreDispatch : Prop :=
  ∀ (slave : Byte) (addr v : Word) (coil : Bool) (packed bytes : List Byte) (words : List Word) (timeout : Option Nat)
    (now : Nat) (s : State),
    exec (.rc slave addr v timeout now) s = exec (.dispatch 0x01#8 slave addr (.qty v) timeout now) s ∧
    exec (.rhr slave addr v timeout now) s = exec (.dispatch 0x03#8 slave addr (.qty v) timeout now) s ∧
    exec (.rir slave addr v timeout now) s = exec (.dispatch 0x04#8 slave addr (.qty v) timeout now) s ∧
    exec (.wsc slave addr coil timeout now) s = exec (.dispatch 0x05#8 slave addr (.coil coil) timeout now) s ∧
    exec (.wsr slave addr v timeout now) s = exec (.dispatch 0x06#8 slave addr (.value v) timeout now) s ∧
    exec (.wmc slave addr v packed timeout now) s = exec (.dispatch 0x0F#8 slave addr (.packed v packed) timeout now) s ∧
    exec (.wmr slave addr v words timeout now) s = exec (.dispatch 0x10#8 slave addr (.words v words) timeout now) s ∧
    exec (.raw bytes timeout now) s = exec (.dispatchRaw bytes timeout now) s

/-- 60_exceptions.md R192, R193: InvalidParameter and Busy, for every instruction that dispatches a Command: `last_error`
and the outcome only; the transaction in flight is not disturbed. -/
def Obligations.RefusedAtOnce : Prop :=
  ∀ (i : Instr) (cmd : Command) (timeout : Option Nat) (now : Nat) (s : State),
    requestOf i = some (cmd, timeout, now) →
    (paramsPass cmd = false →
      exec i s =
        .next { s with
          lastError := some .invalidParameter
          out := s.out ++ [.outcome (.failure .invalidParameter)] }) ∧
    (paramsPass cmd = true → (s.fsm = .sending ∨ s.fsm = .awaitingResponse ∨ s.fsm = .validating) →
      exec i s = .next { s with lastError := some .busy, out := s.out ++ [.outcome (.failure .busy)] })

/-! ### The sequencer -/

/-- 44_sequencer.md R165. -/
def Obligations.StartAttemptSends : Prop :=
  ∀ (now : Nat) (s : State),
    exec (.startAttempt now) s =
      .next { s with
        rxLen := 0
        rxOvf := false
        tLastRx := none
        deadline := now + s.timeoutL
        fsm := .sending
        out := s.out ++ [.tpWrite (txBytes s)] }

/-- 44_sequencer.md R159: retry while the budget lasts, with the same `TX`; else close; fatal closes at once, the
disconnect actions first (their `tp.close` by cause, R164; log entry 15). -/
def Obligations.AttemptFailRetriesOrCloses : Prop :=
  ∀ (cls : AttemptClass) (f : Failure) (now : Nat) (s : State),
    ((cls = .timedOut ∧ f = .timedOut) ∨ (∃ r, cls = .transportError r ∧ f = .transportError r)) →
    (0 < s.retriesLeft →
      exec (.attemptFail cls .nonfatal now) s =
        .next { s with
          retriesLeft := s.retriesLeft - 1
          attempts := s.attempts + 1
          rxLen := 0
          rxOvf := false
          tLastRx := none
          deadline := now + s.timeoutL
          fsm := .sending
          out := s.out ++ [.tpWrite (txBytes s)] }) ∧
    (s.retriesLeft = 0 → exec (.attemptFail cls .nonfatal now) s = exec (.close (.failure f) now) s) ∧
    exec (.attemptFail cls .fatalTransport now) s =
      exec (.close (.failure f) now) { s with store := [], out := s.out ++ [.tpClose] } ∧
    exec (.attemptFail cls .fatalHost now) s = exec (.close (.failure f) now) { s with store := [] }

/-- 44_sequencer.md R160, 60_exceptions.md R202: the store update of a read's values, `elapsed`, `last_error`, the
history record, the outcome, `Idle`; nothing else. When time went backwards `elapsed` is left open (log entry 12). -/
def Obligations.CloseEndsTransaction : Prop :=
  ∀ (v : Verdict) (now : Nat) (s : State), ∃ (t : State) (term : Term) (o : TxnOutcome) (elapsed : Nat),
    exec (.close v now) s = .next t ∧
    t = { s with store := t.store, lastError := t.lastError, history := t.history, out := t.out, fsm := .idle } ∧
    (s.tStart ≤ now → elapsed = now - s.tStart) ∧
    (∀ p, v = .success p → term = .completed ∧ o = .success p elapsed ∧ t.lastError = s.lastError) ∧
    (∀ f, v = .failure f → o = .failure f ∧ t.lastError = some f) ∧
    (v = .failure .timedOut → term = .timedOut) ∧
    (v = .failure .cancelled → term = .cancelled) ∧
    (∀ f, v = .failure f → f ≠ .timedOut → f ≠ .cancelled → term = .failed) ∧
    t.history = s.history ++ [⟨s.curSeq, s.tStart, now, s.attempts, term, txBytes s, rxBytes s, o⟩] ∧
    t.out = s.out ++ [.outcome o] ∧
    (∀ vs, v = .success (.regValues vs) → exec (.storeUpdate s.req.addr (.regs vs) now) s = .next { s with store := t.store }) ∧
    (∀ vs, v = .success (.coilValues vs) → exec (.storeUpdate s.req.addr (.coils vs) now) s = .next { s with store := t.store }) ∧
    ((∀ vs, v ≠ .success (.regValues vs)) → (∀ vs, v ≠ .success (.coilValues vs)) → t.store = s.store)

/-- 44_sequencer.md R156, R158: the complete frame first, then the deadline; TICK tests in AwaitingResponse and is
ignored elsewhere. -/
def Obligations.EvalWaitAndTick : Prop :=
  (∀ (i : Instr) (now : Nat) (s : State), (i = .evalWait now ∨ (i = .tick now ∧ s.fsm = .awaitingResponse)) →
    (∀ t, s.tLastRx = some t → t ≤ now → 5 ≤ s.rxLen → s.quietL ≤ now - t → exec i s = .next { s with fsm := .validating }) ∧
    ((s.rxLen < 5 ∨ s.tLastRx = none ∨ ∃ t, s.tLastRx = some t ∧ t ≤ now ∧ now - t < s.quietL) →
      (s.deadline ≤ now → exec i s = exec (.attemptFail .timedOut .nonfatal now) s) ∧
      (now < s.deadline → exec i s = .next s))) ∧
  (∀ (now : Nat) (s : State), s.fsm ≠ .awaitingResponse → exec (.tick now) s = .next s)

/-- 44_sequencer.md R155: the whole frame written opens the wait (more than `tx_len` counts as all of it); a short
write or an error fails the attempt; elsewhere a stale result is ignored. -/
def Obligations.WriteResultDecides : Prop :=
  (∀ (n now : Nat) (s : State), s.fsm = .sending →
    (s.txLen ≤ n → exec (.writeResult (.ok n) now) s = .next { s with fsm := .awaitingResponse }) ∧
    (n < s.txLen →
      exec (.writeResult (.ok n) now) s = exec (.attemptFail (.transportError reasonShortWrite) .nonfatal now) s)) ∧
  (∀ (r : Text) (now : Nat) (s : State), s.fsm = .sending →
    exec (.writeResult (.err r) now) s = exec (.attemptFail (.transportError r) .nonfatal now) s) ∧
  (∀ (res : WriteResult) (now : Nat) (s : State), s.fsm ≠ .sending → exec (.writeResult res now) s = .next s)

/-- 44_sequencer.md R157: in AwaitingResponse the bytes that fit are appended in order, the others set `rx_ovf`,
`t_last_rx` is `now`, then EvalWait; in every other state the chunk is dropped. That `t_last_rx` is `now` also for a chunk
that finds `RX` full, of which no byte is appended, is the model's choice (log entry 14; 10_state.md R20 words the register
otherwise). -/
def Obligations.RxAppends : Prop :=
  (∀ (bytes : List Byte) (now : Nat) (s : State), bytes ≠ [] → s.fsm = .awaitingResponse → s.rxLen ≤ 256 →
    Memory.Wf 256 s.rx →
    ∃ u t, exec (.rx bytes now) s = .next t ∧ exec (.evalWait now) u = .next t ∧
      u = { s with rx := u.rx, rxLen := u.rxLen, rxOvf := u.rxOvf, tLastRx := some now } ∧
      u.rxLen = min 256 (s.rxLen + bytes.length) ∧
      (u.rxOvf = true ↔ s.rxOvf = true ∨ 256 < s.rxLen + bytes.length) ∧
      rxBytes u = (rxBytes s ++ bytes).take 256 ∧
      (∀ i, i < s.rxLen ∨ s.rxLen + bytes.length ≤ i → Memory.read u.rx i = Memory.read s.rx i)) ∧
  (∀ (bytes : List Byte) (now : Nat) (s : State), s.fsm ≠ .awaitingResponse → exec (.rx bytes now) s = .next s)

/-- 44_sequencer.md R161: in AwaitingResponse the wait ends with `Cancelled`, no retry, nothing to the transport; ignored
in every other state. -/
def Obligations.CancelEndsWait : Prop :=
  (∀ (now : Nat) (s : State), s.fsm = .awaitingResponse →
    exec (.cancel now) s =
      .next { s with
        fsm := .idle
        lastError := some .cancelled
        history := s.history ++
          [⟨s.curSeq, s.tStart, now, s.attempts, .cancelled, txBytes s, rxBytes s, .failure .cancelled⟩]
        out := s.out ++ [.outcome (.failure .cancelled)] }) ∧
  (∀ (now : Nat) (s : State), s.fsm ≠ .awaitingResponse → exec (.cancel now) s = .next s)

/-- 44_sequencer.md R162, R164: a fault fails the attempt in an active state; fatal, or a DISCONNECT, it empties the
store and is never retried, with `tp.close` only when the transport is the cause. -/
def Obligations.FaultAndDisconnect : Prop :=
  (∀ (reason : Text) (now : Nat) (s : State), Fsm.active s.fsm = true →
    exec (.tpFault reason false now) s = exec (.attemptFail (.transportError reason) .nonfatal now) s ∧
    exec (.tpFault reason true now) s =
      .next { s with
        fsm := .idle
        store := []
        lastError := some (.transportError reason)
        history := s.history ++
          [⟨s.curSeq, s.tStart, now, s.attempts, .failed, txBytes s, rxBytes s, .failure (.transportError reason)⟩]
        out := s.out ++ [.tpClose, .outcome (.failure (.transportError reason))] } ∧
    exec (.disconnect now) s =
      .next { s with
        fsm := .idle
        store := []
        lastError := some (.transportError reasonDisconnected)
        history := s.history ++
          [⟨s.curSeq, s.tStart, now, s.attempts, .failed, txBytes s, rxBytes s,
            .failure (.transportError reasonDisconnected)⟩]
        out := s.out ++ [.outcome (.failure (.transportError reasonDisconnected))] }) ∧
  (∀ (reason : Text) (now : Nat) (s : State), s.fsm = .idle →
    exec (.tpFault reason true now) s = .next { s with store := [], out := s.out ++ [.tpClose] } ∧
    exec (.tpFault reason false now) s = .next s ∧
    exec (.disconnect now) s = .next { s with store := [] })

/-- 44_sequencer.md R163: in Validating the reply is decoded, then validated, and the transaction closed with the result,
whatever it is; ignored elsewhere. The CRC register's value is left open (log entry 8). -/
def Obligations.ValidateStepCloses : Prop :=
  (∀ (now : Nat) (s : State), s.fsm = .validating → ∃ (t : State) (v : Verdict) (c : Word),
    exec (.validate now) s = .next t ∧ exec (.close v now) { s with crc := c } = .next t ∧ t.fsm = .idle ∧
    (∀ r, decodeFrame (rxBytes s) s.rxOvf s.req.kind = .malformed r → v = .failure (.malformedResponse r)) ∧
    (∀ d, decodeFrame (rxBytes s) s.rxOvf s.req.kind = .decoded d → v = validateResponse d s.req)) ∧
  (∀ (now : Nat) (s : State), s.fsm ≠ .validating → exec (.validate now) s = .next s)

/-- 44_sequencer.md R166, R167, R168, 45_register_store.md R181: CONNECT changes nothing, the reads answer and change
nothing, CFG_WRITE writes the named register and nothing else, an unknown name is ignored. -/
def Obligations.OperationsThatDoNotMove : Prop :=
  ∀ (now v : Nat) (a : Word) (name : Text) (s : State),
    exec (.connect name v now) s = .next s ∧
    exec (.readHistory now) s = .next { s with out := s.out ++ [.historyIs s.history] } ∧
    exec (.readLastError now) s = .next { s with out := s.out ++ [.lastErrorIs s.lastError] } ∧
    (∀ e, Store.get s.store a.toNat = some e →
      exec (.getRegister a now) s = .next { s with out := s.out ++ [.register (some e.value)] }) ∧
    (Store.get s.store a.toNat = none →
      exec (.getRegister a now) s = .next { s with out := s.out ++ [.register none] }) ∧
    exec (.cfgWrite nameTimeout v now) s = .next { s with cfgTimeout := v } ∧
    exec (.cfgWrite nameQuiet v now) s = .next { s with cfgQuiet := v } ∧
    exec (.cfgWrite nameRetry v now) s = .next { s with cfgRetry := v } ∧
    (name ∉ [nameTimeout, nameQuiet, nameRetry] → exec (.cfgWrite name v now) s = .next s)

/-! ### Replies -/

/-- 42_decode.md R120, R128, R129: length and overflow, then CRC, then raw, then the exception shape, each before the
originating kind's shape. -/
def Obligations.DecodePrologue : Prop :=
  ∀ (f : List Byte) (ovf : Bool) (kind : Kind) (s : State), ∃ (c : Word) (r : DecodeResult),
    exec (.decodeReply f ovf kind) s = .next { s with crc := c, out := s.out ++ [.decoded r] } ∧
    (ovf = true ∨ f.length < 5 → r = .malformed .length) ∧
    (ovf = false → 5 ≤ f.length → verifyCrc f = false → r = .malformed .crc) ∧
    (ovf = false → 5 ≤ f.length → verifyCrc f = true →
      (kind = .raw → r = .decoded (.rawReply f)) ∧
      (kind ≠ .raw → (f.getD 1 0#8).getLsbD 7 = true →
        (f.length = 5 → r = .decoded (.exception (f.getD 0 0#8) (f.getD 1 0#8) (f.getD 2 0#8))) ∧
        (f.length ≠ 5 → r = .malformed .length)))

/-- 42_decode.md R121. -/
def Obligations.ReadBitsReply : Prop :=
  ∀ (f : List Byte) (s : State), ReachesShape f → ∃ (c : Word) (r : DecodeResult),
    exec (.decodeReply f false .rc) s = .next { s with crc := c, out := s.out ++ [.decoded r] } ∧
    ((f.getD 2 0#8).toNat + 5 ≠ f.length → r = .malformed .length) ∧
    ((f.getD 2 0#8).toNat + 5 = f.length →
      ∃ data, r = .decoded (.bits (f.getD 0 0#8) (f.getD 1 0#8) (f.getD 2 0#8) data) ∧
        data.length = (f.getD 2 0#8).toNat ∧ ∀ k, (h : k < data.length) → data[k] = f.getD (3 + k) 0#8)

/-- 42_decode.md R122, R123: the two kinds alike; values high byte first; an odd count is "length". -/
def Obligations.ReadRegistersReply : Prop :=
  ∀ (f : List Byte) (kind : Kind) (s : State), (kind = .rhr ∨ kind = .rir) → ReachesShape f →
    ∃ (c : Word) (r : DecodeResult),
      exec (.decodeReply f false kind) s = .next { s with crc := c, out := s.out ++ [.decoded r] } ∧
      ((f.getD 2 0#8).toNat + 5 ≠ f.length ∨ (f.getD 2 0#8).toNat % 2 = 1 → r = .malformed .length) ∧
      ((f.getD 2 0#8).toNat + 5 = f.length → (f.getD 2 0#8).toNat % 2 = 0 →
        ∃ values, r = .decoded (.regs (f.getD 0 0#8) (f.getD 1 0#8) (f.getD 2 0#8) values) ∧
          values.length = (f.getD 2 0#8).toNat / 2 ∧
          ∀ k, (h : k < values.length) → values[k] = be16 (f.getD (3 + 2 * k) 0#8) (f.getD (4 + 2 * k) 0#8))

/-- 42_decode.md R124, R125, R126, R127: exactly eight bytes; address and value word, not compared here. -/
def Obligations.EchoReplies : Prop :=
  ∀ (f : List Byte) (kind : Kind) (s : State), (kind = .wsc ∨ kind = .wsr ∨ kind = .wmc ∨ kind = .wmr) →
    ReachesShape f → ∃ (c : Word) (r : DecodeResult),
      exec (.decodeReply f false kind) s = .next { s with crc := c, out := s.out ++ [.decoded r] } ∧
      (f.length ≠ 8 → r = .malformed .length) ∧
      (f.length = 8 →
        r = .decoded (.echo (f.getD 0 0#8) (f.getD 1 0#8) (be16 (f.getD 2 0#8) (f.getD 3 0#8))
          (be16 (f.getD 4 0#8) (f.getD 5 0#8))))

/-- The nine reply rows decode a frame of their shape as `Decode` does for their originating kind (30_encoding.md R71;
a reply row as an instruction is log entry 6). -/
def Obligations.ReplyRowsDecode : Prop :=
  (∀ (f : List Byte) (s : State), excBit f = false →
    (∃ c, exec (.rcReply f) s = .next { s with crc := c, out := s.out ++ [.decoded (decodeFrame f false .rc)] }) ∧
    (∃ c, exec (.rhrReply f) s = .next { s with crc := c, out := s.out ++ [.decoded (decodeFrame f false .rhr)] }) ∧
    (∃ c, exec (.rirReply f) s = .next { s with crc := c, out := s.out ++ [.decoded (decodeFrame f false .rir)] }) ∧
    (∃ c, exec (.wscReply f) s = .next { s with crc := c, out := s.out ++ [.decoded (decodeFrame f false .wsc)] }) ∧
    (∃ c, exec (.wsrReply f) s = .next { s with crc := c, out := s.out ++ [.decoded (decodeFrame f false .wsr)] }) ∧
    (∃ c, exec (.wmcReply f) s = .next { s with crc := c, out := s.out ++ [.decoded (decodeFrame f false .wmc)] }) ∧
    (∃ c, exec (.wmrReply f) s = .next { s with crc := c, out := s.out ++ [.decoded (decodeFrame f false .wmr)] })) ∧
  (∀ (k : Kind) (f : List Byte) (s : State), k ≠ .raw → excBit f = true →
    ∃ c, exec (.excReply k f) s = .next { s with crc := c, out := s.out ++ [.decoded (decodeFrame f false k)] }) ∧
  (∀ (f : List Byte) (s : State),
    ∃ c, exec (.rawReply f) s = .next { s with crc := c, out := s.out ++ [.decoded (decodeFrame f false .raw)] })

/-- 42_decode.md R131 (c): the request frame of a single write is itself a valid reply, which decodes to its fields and
validates as written. -/
def Obligations.SingleWriteEchoes : Prop :=
  ∀ (fc slave : Byte) (addr : Word) (fields : Fields) (old : Req), (fc = 0x05#8 ∨ fc = 0x06#8) →
    paramsPass (.structured fc slave addr fields) = true →
    decodeFrame (Command.frame (.structured fc slave addr fields)) false
        (Command.latch old (.structured fc slave addr fields)).kind =
      .decoded (.echo slave fc addr (Fields.word fields)) ∧
    judge (Command.frame (.structured fc slave addr fields)) false (Command.latch old (.structured fc slave addr fields)) =
      .success (.written addr (Fields.word fields))

/-- 43_validate.md R140 (with R141 to R145, R147): the checks in their order, the first that fails deciding. On an operand
42_decode.md R130 excludes, a coil byte that is not there is free and a word list is returned as given (log entry 25). -/
def Obligations.ValidateInOrder : Prop :=
  ∀ (d : Decoded) (req : Req) (s : State), ∃ v,
    exec (.validateReply d req) s = .next { s with out := s.out ++ [.validated v] } ∧
    (∀ bytes, d = .rawReply bytes → v = .success (.raw bytes)) ∧
    (∀ x fc, headerOf d = some (x, fc) →
      (x ≠ req.slaveId → v = .failure (.malformedResponse .slaveId)) ∧
      (x = req.slaveId → fc ≠ req.fc → fc ≠ (req.fc ||| 0x80#8) → v = .failure (.malformedResponse .function)) ∧
      (x = req.slaveId → (fc = req.fc ∨ fc = (req.fc ||| 0x80#8)) →
        (∀ code, d = .exception x fc code → v = .failure (.deviceException code)) ∧
        (∀ a w, d = .echo x fc a w →
          (a = req.addr → w = req.f2 → v = .success (.written a w)) ∧
          (a ≠ req.addr ∨ w ≠ req.f2 → v = .failure (.malformedResponse .echo))) ∧
        (∀ bc data, d = .bits x fc bc data →
          (bc.toNat = (req.f2.toNat + 7) / 8 →
            ∃ vs, v = .success (.coilValues vs) ∧ vs.length = req.f2.toNat ∧
              ∀ i, (h : i < vs.length) → vs[i] = (data.getD (i / 8) (Config.absentCoilByte data (i / 8))).getLsbD (i % 8)) ∧
          (bc.toNat ≠ (req.f2.toNat + 7) / 8 → v = .failure (.malformedResponse .length))) ∧
        (∀ bc values, d = .regs x fc bc values →
          (bc.toNat = 2 * req.f2.toNat → v = .success (.regValues values)) ∧
          (bc.toNat ≠ 2 * req.f2.toNat → v = .failure (.malformedResponse .length)))))

/-- 43_validate.md R148: (b) when a DeviceException is returned, (c) what a structured Success implies, (d) VALIDATE never
retries; (a) totality by the conclusions. -/
def Obligations.ValidatorLaws : Prop :=
  (∀ (f : List Byte) (ovf : Bool) (req : Req) (code : Byte), judge f ovf req = .failure (.deviceException code) →
    f.length = 5 ∧ verifyCrc f = true ∧ f.getD 0 0#8 = req.slaveId ∧ f.getD 1 0#8 = (req.fc ||| 0x80#8) ∧
      code = f.getD 2 0#8) ∧
  (∀ (f : List Byte) (ovf : Bool) (req : Req) (p : Payload), req.kind ≠ .raw → judge f ovf req = .success p →
    f.getD 0 0#8 = req.slaveId ∧ f.getD 1 0#8 = req.fc) ∧
  (∀ (now : Nat) (s : State), s.fsm = .validating →
    ∃ t o, exec (.validate now) s = .next t ∧ t.fsm = .idle ∧ t.attempts = s.attempts ∧ t.out = s.out ++ [.outcome o])

/-! ### The store -/

/-- 45_register_store.md R182: entry `i` at `addr + i` modulo 65536 with timestamp `now`, a coil as 0 or 1; entries
outside the range untouched; nothing else changed. That the list's length stands for `qty` is log entry 26. -/
def Obligations.StoreUpdateEntries : Prop :=
  ∀ (addr : Word) (vs : Values) (words : List Word) (now : Nat) (s : State),
    (vs = .regs words ∨ ∃ bits, vs = .coils bits ∧ words = bits.map (fun b => if b = true then 0x0001#16 else 0x0000#16)) →
    words.length ≤ 65536 →
    ∃ t, exec (.storeUpdate addr vs now) s = .next t ∧ t = { s with store := t.store } ∧
      (∀ i, (h : i < words.length) → Store.get t.store ((addr.toNat + i) % 65536) = some ⟨words[i], now⟩) ∧
      (∀ a, (∀ i, i < words.length → (addr.toNat + i) % 65536 ≠ a) → Store.get t.store a = Store.get s.store a)

/-- 45_register_store.md R183, R184, 44_sequencer.md R169 (e): what changes the store in a step of the block. -/
def Obligations.StoreWritersAre : Prop :=
  ∀ s t : State, nextIsEvent s = true → step s = .next t → t.store ≠ s.store →
    (nextIsReset s = true ∧ t.store = []) ∨
    ((∃ now, nextInstr s = some (.disconnect now)) ∧ t.store = []) ∨
    ((∃ reason now, nextInstr s = some (.tpFault reason true now)) ∧ t.store = []) ∨
    ((∃ now, nextInstr s = some (.validate now)) ∧ (s.req.kind = .rc ∨ s.req.kind = .rhr ∨ s.req.kind = .rir) ∧
      ∃ r, t.history = s.history ++ [r] ∧ r.term = .completed)

/-! ### Whole-machine rules -/

/-- Every step, procedures included, keeps the buffers and the store canonical, the lengths in range and `fsm` in one of
its four resting values (10_state.md R13, R14, 45_register_store.md R180). -/
def Obligations.StepKeepsInv : Prop := ∀ s t : State, Inv s → step s = .next t → Inv t

/-- 44_sequencer.md R169 (a), (d), (f): every step of the block keeps them. -/
def Obligations.EventKeepsProtocolInv : Prop :=
  ∀ s t : State, ProtocolInv s → nextIsEvent s = true → step s = .next t → ProtocolInv t

/-- 44_sequencer.md R169 (g): `attempts + retries_left` is constant during a transaction and is `1 + cfg_retry` as sampled
when it starts. -/
def Obligations.RetryBudgetConstant : Prop :=
  ∀ s t : State, nextIsEvent s = true → step s = .next t →
    (Fsm.active s.fsm = true → Fsm.active t.fsm = true →
      t.attempts + t.retriesLeft = s.attempts + s.retriesLeft) ∧
    (s.fsm = .idle → Fsm.active t.fsm = true → t.attempts + t.retriesLeft = 1 + s.cfgRetry)

/-- 44_sequencer.md R169 (c), (f), 10_state.md R31: a `tp.write` carries the frame now in `TX`, which verifies; it comes
from Idle, or it repeats the frame of the transaction in flight. -/
def Obligations.WireDiscipline : Prop :=
  ∀ s t : State, ProtocolInv s → nextIsEvent s = true → nextIsReset s = false → step s = .next t →
    ∃ ms, t.out = s.out ++ ms ∧
      ∀ b, .tpWrite b ∈ ms →
        t.fsm = .sending ∧ b = txBytes t ∧ verifyCrc b = true ∧
        (s.fsm = .idle ∨ (Fsm.active s.fsm = true ∧ b = txBytes s ∧ t.curSeq = s.curSeq))

/-- 10_state.md R13, 20_memory.md R49: while a transaction is in flight no step of the block but a reset changes its
frame, its latch or what was sampled for it. -/
def Obligations.RequestImmutable : Prop :=
  ∀ s t : State, nextIsEvent s = true → nextIsReset s = false → Fsm.active s.fsm = true → step s = .next t →
    t.tx = s.tx ∧ t.txLen = s.txLen ∧ t.req = s.req ∧ t.curSeq = s.curSeq ∧ t.tStart = s.tStart ∧
    t.timeoutL = s.timeoutL ∧ t.quietL = s.quietL

/-- 10_state.md R36, R11, R12: what reset leaves unspecified, and what is dead after a close, is never observed: from
states that agree on the rest, a step of the block goes to states that agree on the rest, outputs included. -/
def Obligations.DeadStateUnobserved : Prop :=
  ∀ s s' t : State, Inv s → Inv s' → SameSeen s s' → nextIsEvent s = true → step s = .next t →
    ∃ t', step s' = .next t' ∧ SameSeen t t'

/-- 10_state.md R32, 44_sequencer.md R169 (b), 60_exceptions.md R202: history only grows, by the record of the transaction
that closes in this step, whose outcome is the one outcome emitted; any other outcome is InvalidParameter or Busy. -/
def Obligations.OneOutcomePerClose : Prop :=
  ∀ s t : State, nextIsEvent s = true → nextIsReset s = false → step s = .next t →
    ∃ ms, t.out = s.out ++ ms ∧
      ((∃ r, t.history = s.history ++ [r] ∧ r.seq = s.curSeq ∧ Fsm.active s.fsm = true ∧ t.fsm = .idle ∧
          outcomesOf ms = [r.outcome]) ∨
        (t.history = s.history ∧
          (outcomesOf ms = [] ∨ outcomesOf ms = [.failure .invalidParameter] ∨ outcomesOf ms = [.failure .busy])))

/-- 20_memory.md R48, 44_sequencer.md R156: the first time test at or after the deadline ends the wait, by a TICK or by an
RX event. -/
def Obligations.DeadlineEndsWait : Prop :=
  ∀ (i : Instr) (now : Nat) (s : State), (i = .tick now ∨ ∃ bytes, i = .rx bytes now) → s.fsm = .awaitingResponse →
    s.rxLen ≤ 256 → s.deadline ≤ now → ∃ t, exec i s = .next t ∧ t.fsm ≠ .awaitingResponse

/-- 44_sequencer.md R152 (a) as the hypothesis: in a run whose times do not decrease, what is stored lies in the past and
every record ends no earlier than it began. -/
def Obligations.TimesStayOrdered : Prop :=
  ∀ (now : Nat) (s t : State), TimeInv now s → nextIsEvent s = true → step s = .next t →
    ∃ later, now ≤ later ∧ TimeInv later t
end

