-- ==== Sys2Proof/Laws/Crc.lean ====
section
/-! SUPPORT. The laws of the CRC engine: the fold over a concatenation, and that a shift is linear and one-to-one (40_crc.md R92, R97). -/

namespace Sys2Proof.Machine

@[simp] theorem crcFold_nil (c : Word) : crcFold c [] = c := rfl

@[simp] theorem crcFold_cons (c : Word) (b : Byte) (bs : List Byte) :
    crcFold c (b :: bs) = crcFold (crcByteStep c b) bs := rfl

/-- The register after a prefix is the start value for the rest. -/
theorem crcFold_append (c : Word) (as bs : List Byte) : crcFold c (as ++ bs) = crcFold (crcFold c as) bs :=
  List.foldl_append ..

/-- A shift distributes over XOR. -/
theorem crcShift_xor (a b : Word) : crcShift (a ^^^ b) = crcShift a ^^^ crcShift b := by
  have hs : (a ^^^ b) >>> 1 = (a >>> 1) ^^^ (b >>> 1) := BitVec.ushiftRight_xor_distrib a b 1
  have hp : ∀ x : Word, x ^^^ x = 0#16 := fun x => BitVec.xor_self
  unfold crcShift
  rw [BitVec.getLsbD_xor, hs]
  cases a.getLsbD 0 <;> cases b.getLsbD 0 <;> simp only [Bool.xor_true, Bool.xor_false, Bool.not_true, Bool.not_false,
    if_true, Bool.false_eq_true, if_false]
  · rw [BitVec.xor_assoc]
  · rw [BitVec.xor_assoc, BitVec.xor_assoc, BitVec.xor_comm (b >>> 1)]
  · rw [BitVec.xor_assoc, ← BitVec.xor_assoc Config.crcPoly, BitVec.xor_comm Config.crcPoly, BitVec.xor_assoc,
      hp, BitVec.xor_zero]

@[simp] theorem crcShift_zero : crcShift 0#16 = 0#16 := by decide

theorem crcShifts_xor (n : Nat) (a b : Word) : crcShifts n (a ^^^ b) = crcShifts n a ^^^ crcShifts n b := by
  induction n generalizing a b with
  | zero => rfl
  | succ n ih => simp only [crcShifts, crcShift_xor, ih]

@[simp] theorem crcShifts_zero (n : Nat) : crcShifts n 0#16 = 0#16 := by
  induction n with
  | zero => rfl
  | succ n ih => simp [crcShifts, ih]

/-- Only the zero register shifts to zero: bit 15 after the shift is the bit shifted out. -/
theorem crcShift_eq_zero {a : Word} (h : crcShift a = 0#16) : a = 0#16 := by
  have hb : a.getLsbD 0 = false := by
    by_contra hn
    have hn : a.getLsbD 0 = true := by simpa using hn
    have h15 := congrArg (fun x : Word => x.getLsbD 15) h
    simp [crcShift, hn, Config.crcPoly] at h15
  have hz : a >>> 1 = 0#16 := by simpa only [crcShift, hb, Bool.false_eq_true, if_false] using h
  apply BitVec.eq_of_getLsbD_eq
  intro i _
  cases i with
  | zero => simpa using hb
  | succ i =>
    have := congrArg (fun x : Word => x.getLsbD i) hz
    simpa [BitVec.getLsbD_ushiftRight, Nat.add_comm] using this

theorem crcShifts_eq_zero {n : Nat} {a : Word} (h : crcShifts n a = 0#16) : a = 0#16 := by
  induction n generalizing a with
  | zero => exact h
  | succ n ih => exact crcShift_eq_zero (ih h)

/-- A byte step splits into the register's part and the byte's. -/
theorem crcByteStep_xor (a b : Word) (x y : Byte) :
    crcByteStep (a ^^^ b) (x ^^^ y) = crcByteStep a x ^^^ crcByteStep b y := by
  unfold crcByteStep
  rw [← crcShifts_xor, BitVec.setWidth_xor]
  congr 1
  ac_rfl

@[simp] theorem dropCrc_append (bs : List Byte) (l h : Byte) : dropCrc (bs ++ [l, h]) = bs := by
  simp [dropCrc]

@[simp] theorem appendCrc_length (bs : List Byte) : (appendCrc bs).length = bs.length + 2 := by
  simp [appendCrc]

end Sys2Proof.Machine
end

