-- ==== Sys2Proof/Laws/Decode.lean ====
section
/-! SUPPORT. The laws of the packet's operands: each reader reads back what its writer wrote, and the base readers read
nothing else. -/

namespace Sys2Proof

/-! ### 16-bit fields -/

@[simp] theorem be16_hi8_lo8 (w : Word) : be16 (hi8 w) (lo8 w) = w := by
  apply BitVec.eq_of_getLsbD_eq
  intro i hi
  simp only [be16, hi8, lo8, BitVec.getLsbD_append, BitVec.getLsbD_extractLsb']
  by_cases h : i < 8
  · simp [h]
  · simp [h, show i - 8 < 8 by omega, show 8 + (i - 8) = i by omega]

@[simp] theorem hi8_be16 (h l : Byte) : hi8 (be16 h l) = h := by
  apply BitVec.eq_of_getLsbD_eq
  intro i hi
  simp only [hi8, be16, BitVec.getLsbD_extractLsb', BitVec.getLsbD_append]
  simp [hi]

@[simp] theorem lo8_be16 (h l : Byte) : lo8 (be16 h l) = l := by
  apply BitVec.eq_of_getLsbD_eq
  intro i hi
  simp only [lo8, be16, BitVec.getLsbD_extractLsb', BitVec.getLsbD_append]
  simp [hi]

@[simp] theorem wordsToBytes_length (ws : List Word) : (wordsToBytes ws).length = 2 * ws.length := by
  induction ws with
  | nil => rfl
  | cons w ws ih => simp only [wordsToBytes, List.length_cons, ih]; omega

@[simp] theorem bytesToWords_wordsToBytes (ws : List Word) : bytesToWords (wordsToBytes ws) = ws := by
  induction ws with
  | nil => rfl
  | cons w ws ih => simp [wordsToBytes, bytesToWords, ih]

/-- An even number of bytes is the bytes of its words. -/
theorem wordsToBytes_bytesToWords : ∀ bs : List Byte, bs.length % 2 = 0 → wordsToBytes (bytesToWords bs) = bs
  | [], _ => rfl
  | [_], h => by simp at h
  | h :: l :: bs, hl => by
    simp only [bytesToWords, wordsToBytes, hi8_be16, lo8_be16]
    rw [wordsToBytes_bytesToWords bs (by simp only [List.length_cons] at hl; omega)]

theorem bytesToWords_length : ∀ bs : List Byte, (bytesToWords bs).length = bs.length / 2
  | [] => rfl
  | [_] => by simp [bytesToWords]
  | h :: l :: bs => by
    simp only [bytesToWords, List.length_cons, bytesToWords_length bs]
    omega

/-! ### Readers after writers -/

@[simp] theorem getByte_cons (b : Byte) (r : List Byte) : getByte (b :: r) = .ok (b, r) := rfl

theorem getNat_putNatFuel (fuel n : Nat) (h : n < 128 ^ (fuel + 1)) (r : List Byte) :
    getNat (putNatFuel fuel n ++ r) = .ok (n, r) := by
  induction fuel generalizing n with
  | zero =>
    have hn : n < 128 := by simpa using h
    have hb : (BitVec.ofNat 8 n).toNat = n := by simp; omega
    simp [putNatFuel, getNat, hn, Nat.mod_eq_of_lt (show n < 256 by omega)]
  | succ fuel ih =>
    simp only [putNatFuel]
    split
    · rename_i hn
      simp [getNat, hn, Nat.mod_eq_of_lt (show n < 256 by omega)]
    · rename_i hn
      have hq : n / 128 < 128 ^ (fuel + 1) := by
        rw [Nat.div_lt_iff_lt_mul (by omega), ← Nat.pow_succ]
        exact h
      have hb : (BitVec.ofNat 8 (n % 128 + 128)).toNat = n % 128 + 128 := by
        rw [BitVec.toNat_ofNat]
        omega
      have hz : n / 128 ≠ 0 := by omega
      simp only [List.cons_append, getNat, hb, ih (n / 128) hq, if_neg (show ¬ n % 128 + 128 < 128 by omega), if_neg hz]
      congr 2
      omega

@[simp] theorem getNat_putNat (n : Nat) (r : List Byte) : getNat (putNat n ++ r) = .ok (n, r) :=
  getNat_putNatFuel n n (Nat.lt_trans (Nat.lt_pow_self (by omega)) (Nat.pow_lt_pow_right (by omega) (by omega))) r

/-- A natural number alone. -/
@[simp] theorem getNat_putNat_end (n : Nat) : getNat (putNat n) = .ok (n, []) := by
  simpa using getNat_putNat n []

@[simp] theorem getBool_putBool (b : Bool) (r : List Byte) : getBool (putBool b ++ r) = .ok (b, r) := by
  cases b <;> rfl

@[simp] theorem getWord_putWord (w : Word) (r : List Byte) : getWord (putWord w ++ r) = .ok (w, r) := by
  simp [getWord, putWord]

@[simp] theorem getTimeout_putTimeout (t : Option Nat) (r : List Byte) :
    getTimeout (putTimeout t ++ r) = .ok (t, r) := by
  cases t with
  | none => rfl
  | some t =>
    simp only [getTimeout, putTimeout, List.cons_append]
    rw [show getBool (1#8 :: (putNat t ++ r)) = .ok (true, putNat t ++ r) from rfl]
    simp [Except.bind, bind]

@[simp] theorem takeBytes_append (bs r : List Byte) : takeBytes bs.length (bs ++ r) = .ok (bs, r) := by
  simp [takeBytes]

@[simp] theorem getBytes_putBytes (bs r : List Byte) : getBytes (putBytes bs ++ r) = .ok (bs, r) := by
  simp [getBytes, putBytes, Except.bind, bind]

@[simp] theorem getWords_putWords (ws : List Word) (r : List Byte) : getWords (putWords ws ++ r) = .ok (ws, r) := by
  have h := takeBytes_append (wordsToBytes ws) r
  rw [wordsToBytes_length] at h
  simp [getWords, putWords, Except.bind, bind, h]

@[simp] theorem bytesToBools_boolsToBytes (vs : List Bool) : bytesToBools (boolsToBytes vs) = .ok vs := by
  induction vs with
  | nil => rfl
  | cons v vs ih =>
    simp only [boolsToBytes, List.map_cons] at ih ⊢
    cases v <;> simp [bytesToBools, getBool, Except.bind, bind, ih]

@[simp] theorem getBools_putBools (vs : List Bool) (r : List Byte) : getBools (putBools vs ++ r) = .ok (vs, r) := by
  have h := takeBytes_append (boolsToBytes vs) r
  rw [show (boolsToBytes vs).length = vs.length by simp [boolsToBytes]] at h
  simp [getBools, putBools, Except.bind, bind, h]

@[simp] theorem getKind_code (k : Kind) (r : List Byte) : getKind (k.code :: r) = .ok (k, r) := by
  cases k <;> rfl

@[simp] theorem getReason_code (m : MalformedReason) (r : List Byte) : getReason (m.code :: r) = .ok (m, r) := by
  cases m <;> rfl

@[simp] theorem getSeverity_code (v : Severity) (r : List Byte) : getSeverity (v.code :: r) = .ok (v, r) := by
  cases v <;> rfl

@[simp] theorem getFields_putFields (f : Fields) (r : List Byte) : getFields (putFields f ++ r) = .ok (f, r) := by
  cases f <;> simp [getFields, putFields, Except.bind, bind]

@[simp] theorem getCommand_putCommand (c : Command) (r : List Byte) :
    getCommand (putCommand c ++ r) = .ok (c, r) := by
  cases c <;> simp [getCommand, putCommand, Except.bind, bind]

@[simp] theorem getReq_putReq (q : Req) (r : List Byte) : getReq (putReq q ++ r) = .ok (q, r) := by
  simp [getReq, putReq, Except.bind, bind]

@[simp] theorem getDecoded_putDecoded (d : Decoded) (r : List Byte) :
    getDecoded (putDecoded d ++ r) = .ok (d, r) := by
  cases d <;> simp [getDecoded, putDecoded, Except.bind, bind]

@[simp] theorem getFailure_putFailure (f : Failure) (r : List Byte) :
    getFailure (putFailure f ++ r) = .ok (f, r) := by
  cases f <;> simp [getFailure, putFailure, Except.bind, bind]

@[simp] theorem getPayload_putPayload (p : Payload) (r : List Byte) :
    getPayload (putPayload p ++ r) = .ok (p, r) := by
  cases p <;> simp [getPayload, putPayload, Except.bind, bind]

@[simp] theorem getVerdict_putVerdict (v : Verdict) (r : List Byte) :
    getVerdict (putVerdict v ++ r) = .ok (v, r) := by
  cases v <;> simp [getVerdict, putVerdict, Except.bind, bind]

@[simp] theorem getValues_putValues (v : Values) (r : List Byte) : getValues (putValues v ++ r) = .ok (v, r) := by
  cases v <;> simp [getValues, putValues, Except.bind, bind]

@[simp] theorem getWriteResult_putWriteResult (w : WriteResult) (r : List Byte) :
    getWriteResult (putWriteResult w ++ r) = .ok (w, r) := by
  cases w <;> simp [getWriteResult, putWriteResult, Except.bind, bind]

@[simp] theorem getAttemptClass_putAttemptClass (c : AttemptClass) (r : List Byte) :
    getAttemptClass (putAttemptClass c ++ r) = .ok (c, r) := by
  cases c <;> simp [getAttemptClass, putAttemptClass, Except.bind, bind]

/-! ### Readers after writers, nothing following -/

@[simp] theorem getBool_putBool_end (b : Bool) : getBool (putBool b) = .ok (b, []) := by simpa using getBool_putBool b []

@[simp] theorem getWord_putWord_end (w : Word) : getWord (putWord w) = .ok (w, []) := by simpa using getWord_putWord w []

@[simp] theorem getTimeout_putTimeout_end (t : Option Nat) : getTimeout (putTimeout t) = .ok (t, []) := by simpa using getTimeout_putTimeout t []

@[simp] theorem getBytes_putBytes_end (bs : List Byte) : getBytes (putBytes bs) = .ok (bs, []) := by simpa using getBytes_putBytes bs []

@[simp] theorem getFields_putFields_end (f : Fields) : getFields (putFields f) = .ok (f, []) := by simpa using getFields_putFields f []

@[simp] theorem getCommand_putCommand_end (c : Command) : getCommand (putCommand c) = .ok (c, []) := by simpa using getCommand_putCommand c []

@[simp] theorem getReq_putReq_end (q : Req) : getReq (putReq q) = .ok (q, []) := by simpa using getReq_putReq q []

@[simp] theorem getVerdict_putVerdict_end (v : Verdict) : getVerdict (putVerdict v) = .ok (v, []) := by simpa using getVerdict_putVerdict v []

@[simp] theorem getValues_putValues_end (v : Values) : getValues (putValues v) = .ok (v, []) := by simpa using getValues_putValues v []

@[simp] theorem getWriteResult_putWriteResult_end (w : WriteResult) : getWriteResult (putWriteResult w) = .ok (w, []) := by simpa using getWriteResult_putWriteResult w []

@[simp] theorem getAttemptClass_putAttemptClass_end (c : AttemptClass) : getAttemptClass (putAttemptClass c) = .ok (c, []) := by simpa using getAttemptClass_putAttemptClass c []

/-- Every op is found under its code. -/
@[simp] theorem Op.ofByte_code (o : Op) : Op.ofByte o.code = .ok o := by
  cases o with
  | reply k => cases k <;> rfl
  | _ => rfl

/-- Decoding a packet is decoding its operands under its op. -/
@[simp] theorem decode_code_cons (o : Op) (bs : List Byte) : decode (o.code :: bs) = decodeOp o bs := by
  simp [decode]

/-! ### Readers read nothing else -/

theorem getByte_eq_ok {bs r : List Byte} {b : Byte} (h : getByte bs = .ok (b, r)) : bs = b :: r := by
  cases bs with
  | nil => simp [getByte] at h
  | cons c cs => simp only [getByte, Except.ok.injEq, Prod.mk.injEq] at h; rw [h.1, h.2]

theorem getWord_eq_ok {bs r : List Byte} {w : Word} (h : getWord bs = .ok (w, r)) : bs = putWord w ++ r := by
  match bs with
  | [] | [_] => simp [getWord] at h
  | a :: b :: cs =>
    simp only [getWord, Except.ok.injEq, Prod.mk.injEq] at h
    obtain ⟨rfl, rfl⟩ := h
    simp [putWord]

theorem getBool_eq_ok {bs r : List Byte} {b : Bool} (h : getBool bs = .ok (b, r)) : bs = putBool b ++ r := by
  cases bs with
  | nil => simp [getBool] at h
  | cons c cs =>
    simp only [getBool] at h
    split at h
    · simp only [Except.ok.injEq, Prod.mk.injEq] at h
      obtain ⟨rfl, rfl⟩ := h
      simp_all [putBool]
    · split at h
      · simp only [Except.ok.injEq, Prod.mk.injEq] at h
        obtain ⟨rfl, rfl⟩ := h
        simp_all [putBool]
      · simp at h

/-- More fuel than the digits need changes nothing. -/
theorem putNatFuel_eq {f g n : Nat} (hf : n < 128 ^ (f + 1)) (hg : n < 128 ^ (g + 1)) :
    putNatFuel f n = putNatFuel g n := by
  induction f generalizing g n with
  | zero =>
    have hn : n < 128 := by simpa using hf
    cases g with
    | zero => rfl
    | succ g => simp [putNatFuel, hn]
  | succ f ih =>
    cases g with
    | zero =>
      have hn : n < 128 := by simpa using hg
      simp [putNatFuel, hn]
    | succ g =>
      simp only [putNatFuel]
      split
      · rfl
      · have hd : ∀ k, n < 128 ^ (k + 1 + 1) → n / 128 < 128 ^ (k + 1) := fun k hk => by
          rw [Nat.div_lt_iff_lt_mul (by omega), ← Nat.pow_succ]
          exact hk
        rw [ih (hd f hf) (hd g hg)]

theorem lt_pow_succ_self (n : Nat) : n < 128 ^ (n + 1) :=
  Nat.lt_trans (Nat.lt_pow_self (by omega)) (Nat.pow_lt_pow_right (by omega) (by omega))

theorem getNat_eq_ok {bs r : List Byte} {n : Nat} (h : getNat bs = .ok (n, r)) : bs = putNat n ++ r := by
  induction bs generalizing n r with
  | nil => simp [getNat] at h
  | cons b bs ih =>
    simp only [getNat] at h
    split at h
    · rename_i hb
      simp only [Except.ok.injEq, Prod.mk.injEq] at h
      obtain ⟨rfl, rfl⟩ := h
      have : putNat b.toNat = [b] := by
        rw [putNat, putNatFuel_eq (g := 0) (lt_pow_succ_self _) (by simpa using hb)]
        simp [putNatFuel]
      simp [this]
    · rename_i hb
      split at h
      · simp at h
      · rename_i m rest hm
        split at h
        · simp at h
        · rename_i hz
          simp only [Except.ok.injEq, Prod.mk.injEq] at h
          obtain ⟨hn, rfl⟩ := h
          have hlt := b.isLt
          have hq : n / 128 = m := by omega
          have hr : n % 128 + 128 = b.toNat := by omega
          have hput : putNat n = b :: putNat m := by
            rw [putNat, putNatFuel_eq (g := n + 1) (lt_pow_succ_self _)
              (Nat.lt_trans (lt_pow_succ_self n) (Nat.pow_lt_pow_right (by omega) (by omega)))]
            simp only [putNatFuel, if_neg (show ¬ n < 128 by omega), hr, hq]
            rw [putNat, putNatFuel_eq (f := n) (g := m) ?_ (lt_pow_succ_self _)]
            · simp
            · exact Nat.lt_of_le_of_lt (by omega) (lt_pow_succ_self n)
          rw [ih hm, hput]
          rfl

theorem takeBytes_eq_ok {n : Nat} {bs a r : List Byte} (h : takeBytes n bs = .ok (a, r)) :
    bs = a ++ r ∧ a.length = n := by
  simp only [takeBytes] at h
  split at h
  · simp at h
  · simp only [Except.ok.injEq, Prod.mk.injEq] at h
    obtain ⟨rfl, rfl⟩ := h
    simp
    omega

/-! ### The readers of records read nothing else -/

/-- Peel one reader off a chain of readers. -/
theorem bind_eq_ok {α β : Type} {x : Except Reject α} {f : α → Except Reject β} {r : β} (h : (x >>= f) = .ok r) :
    ∃ a, x = .ok a ∧ f a = .ok r := by
  cases x with
  | error e => cases h
  | ok a => exact ⟨a, rfl, h⟩

theorem getTimeout_eq_ok {bs r : List Byte} {t : Option Nat} (h : getTimeout bs = .ok (t, r)) :
    bs = putTimeout t ++ r := by
  obtain ⟨⟨b, r₁⟩, h₁, h⟩ := bind_eq_ok h
  dsimp only at h
  rw [getBool_eq_ok h₁]
  cases b
  · cases h; rfl
  · obtain ⟨⟨n, r₂⟩, h₂, h⟩ := bind_eq_ok h
    cases h
    rw [getNat_eq_ok h₂]; rfl

theorem getBytes_eq_ok {bs r a : List Byte} (h : getBytes bs = .ok (a, r)) : bs = putBytes a ++ r := by
  obtain ⟨⟨n, r₁⟩, h₁, h⟩ := bind_eq_ok h
  dsimp only at h
  obtain ⟨rfl, hl⟩ := takeBytes_eq_ok h
  rw [getNat_eq_ok h₁, putBytes, ← hl, List.append_assoc]

theorem getWords_eq_ok {bs r : List Byte} {ws : List Word} (h : getWords bs = .ok (ws, r)) : bs = putWords ws ++ r := by
  obtain ⟨⟨n, r₁⟩, h₁, h⟩ := bind_eq_ok h
  dsimp only at h
  obtain ⟨⟨b, r₂⟩, h₂, h⟩ := bind_eq_ok h
  dsimp only at h
  cases h
  obtain ⟨rfl, hl⟩ := takeBytes_eq_ok h₂
  rw [getNat_eq_ok h₁, putWords, bytesToWords_length, wordsToBytes_bytesToWords b (by omega), List.append_assoc,
    show b.length / 2 = n by omega]

theorem bytesToBools_eq_ok {bs : List Byte} {vs : List Bool} (h : bytesToBools bs = .ok vs) : bs = boolsToBytes vs := by
  induction bs generalizing vs with
  | nil => cases h; rfl
  | cons b bs ih =>
    obtain ⟨⟨v, r⟩, h₁, h⟩ := bind_eq_ok h
    dsimp only at h
    obtain ⟨vs', h₂, h⟩ := bind_eq_ok h
    cases h
    have := getBool_eq_ok h₁
    rw [ih h₂]
    simp only [putBool, List.singleton_append, List.cons.injEq] at this
    rw [this.1]; rfl

theorem getBools_eq_ok {bs r : List Byte} {vs : List Bool} (h : getBools bs = .ok (vs, r)) : bs = putBools vs ++ r := by
  obtain ⟨⟨n, r₁⟩, h₁, h⟩ := bind_eq_ok h
  dsimp only at h
  obtain ⟨⟨b, r₂⟩, h₂, h⟩ := bind_eq_ok h
  dsimp only at h
  obtain ⟨vs', h₃, h⟩ := bind_eq_ok h
  cases h
  obtain ⟨rfl, hl⟩ := takeBytes_eq_ok h₂
  rw [getNat_eq_ok h₁, putBools, bytesToBools_eq_ok h₃, List.append_assoc]
  simp [bytesToBools_eq_ok h₃, boolsToBytes] at hl
  rw [hl]

theorem getKind_eq_ok {bs r : List Byte} {k : Kind} (h : getKind bs = .ok (k, r)) : bs = k.code :: r := by
  obtain ⟨⟨b, r₁⟩, h₁, h⟩ := bind_eq_ok h
  dsimp only at h
  rw [getByte_eq_ok h₁]
  split at h
  · rename_i k' hk
    cases h
    have := List.find?_some hk
    rw [beq_iff_eq.1 this]
  · cases h

theorem getReason_eq_ok {bs r : List Byte} {k : MalformedReason} (h : getReason bs = .ok (k, r)) : bs = k.code :: r := by
  obtain ⟨⟨b, r₁⟩, h₁, h⟩ := bind_eq_ok h
  dsimp only at h
  rw [getByte_eq_ok h₁]
  split at h
  · rename_i k' hk
    cases h
    have := List.find?_some hk
    rw [beq_iff_eq.1 this]
  · cases h

theorem getSeverity_eq_ok {bs r : List Byte} {k : Severity} (h : getSeverity bs = .ok (k, r)) : bs = k.code :: r := by
  obtain ⟨⟨b, r₁⟩, h₁, h⟩ := bind_eq_ok h
  dsimp only at h
  rw [getByte_eq_ok h₁]
  split at h
  · rename_i k' hk
    cases h
    have := List.find?_some hk
    rw [beq_iff_eq.1 this]
  · cases h

theorem getFields_eq_ok {bs r : List Byte} {f : Fields} (h : getFields bs = .ok (f, r)) : bs = putFields f ++ r := by
  obtain ⟨⟨b, r₁⟩, h₁, h⟩ := bind_eq_ok h
  dsimp only at h
  rw [getByte_eq_ok h₁]
  split at h
  · rename_i hb
    obtain ⟨⟨q, r₂⟩, h₂, h⟩ := bind_eq_ok h
    dsimp only at h
    cases h
    rw [getWord_eq_ok h₂, hb]; rfl
  split at h
  · rename_i hb
    obtain ⟨⟨q, r₂⟩, h₂, h⟩ := bind_eq_ok h
    dsimp only at h
    cases h
    rw [getBool_eq_ok h₂, hb]; rfl
  split at h
  · rename_i hb
    obtain ⟨⟨q, r₂⟩, h₂, h⟩ := bind_eq_ok h
    dsimp only at h
    cases h
    rw [getWord_eq_ok h₂, hb]; rfl
  split at h
  · rename_i hb
    obtain ⟨⟨q, r₂⟩, h₂, h⟩ := bind_eq_ok h
    dsimp only at h
    obtain ⟨⟨d, r₃⟩, h₃, h⟩ := bind_eq_ok h
    dsimp only at h
    cases h
    rw [getWord_eq_ok h₂, getBytes_eq_ok h₃, hb]; simp [putFields]
  split at h
  · rename_i hb
    obtain ⟨⟨q, r₂⟩, h₂, h⟩ := bind_eq_ok h
    dsimp only at h
    obtain ⟨⟨d, r₃⟩, h₃, h⟩ := bind_eq_ok h
    dsimp only at h
    cases h
    rw [getWord_eq_ok h₂, getWords_eq_ok h₃, hb]; simp [putFields]
  · cases h

theorem getCommand_eq_ok {bs r : List Byte} {c : Command} (h : getCommand bs = .ok (c, r)) : bs = putCommand c ++ r := by
  obtain ⟨⟨b, r₁⟩, h₁, h⟩ := bind_eq_ok h
  dsimp only at h
  rw [getByte_eq_ok h₁]
  split at h
  · rename_i hb
    obtain ⟨⟨fc, r₂⟩, h₂, h⟩ := bind_eq_ok h
    dsimp only at h
    obtain ⟨⟨sl, r₃⟩, h₃, h⟩ := bind_eq_ok h
    dsimp only at h
    obtain ⟨⟨ad, r₄⟩, h₄, h⟩ := bind_eq_ok h
    dsimp only at h
    obtain ⟨⟨f, r₅⟩, h₅, h⟩ := bind_eq_ok h
    dsimp only at h
    cases h
    rw [getByte_eq_ok h₂, getByte_eq_ok h₃, getWord_eq_ok h₄, getFields_eq_ok h₅, hb]; simp [putCommand]
  split at h
  · rename_i hb
    obtain ⟨⟨q, r₂⟩, h₂, h⟩ := bind_eq_ok h
    dsimp only at h
    cases h
    rw [getBytes_eq_ok h₂, hb]; rfl
  · cases h

theorem getReq_eq_ok {bs r : List Byte} {q : Req} (h : getReq bs = .ok (q, r)) : bs = putReq q ++ r := by
  obtain ⟨⟨k, r₁⟩, h₁, h⟩ := bind_eq_ok h
  dsimp only at h
  obtain ⟨⟨fc, r₂⟩, h₂, h⟩ := bind_eq_ok h
  dsimp only at h
  obtain ⟨⟨sl, r₃⟩, h₃, h⟩ := bind_eq_ok h
  dsimp only at h
  obtain ⟨⟨ad, r₄⟩, h₄, h⟩ := bind_eq_ok h
  dsimp only at h
  obtain ⟨⟨f, r₅⟩, h₅, h⟩ := bind_eq_ok h
  dsimp only at h
  cases h
  rw [getKind_eq_ok h₁, getByte_eq_ok h₂, getByte_eq_ok h₃, getWord_eq_ok h₄, getWord_eq_ok h₅]
  simp [putReq]

theorem getDecoded_eq_ok {bs r : List Byte} {q : Decoded} (h : getDecoded bs = .ok (q, r)) : bs = putDecoded q ++ r := by
  obtain ⟨⟨k, r₁⟩, h₁, h⟩ := bind_eq_ok h
  dsimp only at h
  rw [getByte_eq_ok h₁]
  split at h
  · rename_i hb
    obtain ⟨⟨fc, r₂⟩, h₂, h⟩ := bind_eq_ok h
    dsimp only at h
    obtain ⟨⟨sl, r₃⟩, h₃, h⟩ := bind_eq_ok h
    dsimp only at h
    obtain ⟨⟨ad, r₄⟩, h₄, h⟩ := bind_eq_ok h
    dsimp only at h
    obtain ⟨⟨f, r₅⟩, h₅, h⟩ := bind_eq_ok h
    dsimp only at h
    cases h
    rw [getByte_eq_ok h₂, getByte_eq_ok h₃, getByte_eq_ok h₄, getBytes_eq_ok h₅, hb]; simp [putDecoded]
  split at h
  · rename_i hb
    obtain ⟨⟨fc, r₂⟩, h₂, h⟩ := bind_eq_ok h
    dsimp only at h
    obtain ⟨⟨sl, r₃⟩, h₃, h⟩ := bind_eq_ok h
    dsimp only at h
    obtain ⟨⟨ad, r₄⟩, h₄, h⟩ := bind_eq_ok h
    dsimp only at h
    obtain ⟨⟨f, r₅⟩, h₅, h⟩ := bind_eq_ok h
    dsimp only at h
    cases h
    rw [getByte_eq_ok h₂, getByte_eq_ok h₃, getByte_eq_ok h₄, getWords_eq_ok h₅, hb]; simp [putDecoded]
  split at h
  · rename_i hb
    obtain ⟨⟨fc, r₂⟩, h₂, h⟩ := bind_eq_ok h
    dsimp only at h
    obtain ⟨⟨sl, r₃⟩, h₃, h⟩ := bind_eq_ok h
    dsimp only at h
    obtain ⟨⟨ad, r₄⟩, h₄, h⟩ := bind_eq_ok h
    dsimp only at h
    obtain ⟨⟨f, r₅⟩, h₅, h⟩ := bind_eq_ok h
    dsimp only at h
    cases h
    rw [getByte_eq_ok h₂, getByte_eq_ok h₃, getWord_eq_ok h₄, getWord_eq_ok h₅, hb]; simp [putDecoded]
  split at h
  · rename_i hb
    obtain ⟨⟨fc, r₂⟩, h₂, h⟩ := bind_eq_ok h
    dsimp only at h
    obtain ⟨⟨sl, r₃⟩, h₃, h⟩ := bind_eq_ok h
    dsimp only at h
    obtain ⟨⟨ad, r₄⟩, h₄, h⟩ := bind_eq_ok h
    dsimp only at h
    cases h
    rw [getByte_eq_ok h₂, getByte_eq_ok h₃, getByte_eq_ok h₄, hb]; simp [putDecoded]
  split at h
  · rename_i hb
    obtain ⟨⟨q, r₂⟩, h₂, h⟩ := bind_eq_ok h
    dsimp only at h
    cases h
    rw [getBytes_eq_ok h₂, hb]; rfl
  · cases h

theorem getFailure_eq_ok {bs r : List Byte} {q : Failure} (h : getFailure bs = .ok (q, r)) : bs = putFailure q ++ r := by
  obtain ⟨⟨k, r₁⟩, h₁, h⟩ := bind_eq_ok h
  dsimp only at h
  rw [getByte_eq_ok h₁]
  split at h
  · rename_i hb; cases h; rw [hb]; rfl
  split at h
  · rename_i hb
    obtain ⟨⟨fc, r₂⟩, h₂, h⟩ := bind_eq_ok h
    dsimp only at h
    cases h
    rw [getReason_eq_ok h₂, hb]; rfl
  split at h
  · rename_i hb
    obtain ⟨⟨fc, r₂⟩, h₂, h⟩ := bind_eq_ok h
    dsimp only at h
    cases h
    rw [getByte_eq_ok h₂, hb]; rfl
  split at h
  · rename_i hb
    obtain ⟨⟨fc, r₂⟩, h₂, h⟩ := bind_eq_ok h
    dsimp only at h
    cases h
    rw [getBytes_eq_ok h₂, hb]; rfl
  split at h
  · rename_i hb; cases h; rw [hb]; rfl
  split at h
  · rename_i hb; cases h; rw [hb]; rfl
  split at h
  · rename_i hb; cases h; rw [hb]; rfl
  · cases h

theorem getPayload_eq_ok {bs r : List Byte} {q : Payload} (h : getPayload bs = .ok (q, r)) : bs = putPayload q ++ r := by
  obtain ⟨⟨k, r₁⟩, h₁, h⟩ := bind_eq_ok h
  dsimp only at h
  rw [getByte_eq_ok h₁]
  split at h
  · rename_i hb
    obtain ⟨⟨fc, r₂⟩, h₂, h⟩ := bind_eq_ok h
    dsimp only at h
    cases h
    rw [getWords_eq_ok h₂, hb]; rfl
  split at h
  · rename_i hb
    obtain ⟨⟨fc, r₂⟩, h₂, h⟩ := bind_eq_ok h
    dsimp only at h
    cases h
    rw [getBools_eq_ok h₂, hb]; rfl
  split at h
  · rename_i hb
    obtain ⟨⟨fc, r₂⟩, h₂, h⟩ := bind_eq_ok h
    dsimp only at h
    obtain ⟨⟨v, r₃⟩, h₃, h⟩ := bind_eq_ok h
    dsimp only at h
    cases h
    rw [getWord_eq_ok h₂, getWord_eq_ok h₃, hb]; simp [putPayload]
  split at h
  · rename_i hb
    obtain ⟨⟨fc, r₂⟩, h₂, h⟩ := bind_eq_ok h
    dsimp only at h
    cases h
    rw [getBytes_eq_ok h₂, hb]; rfl
  · cases h

theorem getVerdict_eq_ok {bs r : List Byte} {q : Verdict} (h : getVerdict bs = .ok (q, r)) : bs = putVerdict q ++ r := by
  obtain ⟨⟨k, r₁⟩, h₁, h⟩ := bind_eq_ok h
  dsimp only at h
  rw [getByte_eq_ok h₁]
  split at h
  · rename_i hb
    obtain ⟨⟨fc, r₂⟩, h₂, h⟩ := bind_eq_ok h
    dsimp only at h
    cases h
    rw [getPayload_eq_ok h₂, hb]; rfl
  split at h
  · rename_i hb
    obtain ⟨⟨fc, r₂⟩, h₂, h⟩ := bind_eq_ok h
    dsimp only at h
    cases h
    rw [getFailure_eq_ok h₂, hb]; rfl
  · cases h

theorem getValues_eq_ok {bs r : List Byte} {q : Values} (h : getValues bs = .ok (q, r)) : bs = putValues q ++ r := by
  obtain ⟨⟨k, r₁⟩, h₁, h⟩ := bind_eq_ok h
  dsimp only at h
  rw [getByte_eq_ok h₁]
  split at h
  · rename_i hb
    obtain ⟨⟨fc, r₂⟩, h₂, h⟩ := bind_eq_ok h
    dsimp only at h
    cases h
    rw [getWords_eq_ok h₂, hb]; rfl
  split at h
  · rename_i hb
    obtain ⟨⟨fc, r₂⟩, h₂, h⟩ := bind_eq_ok h
    dsimp only at h
    cases h
    rw [getBools_eq_ok h₂, hb]; rfl
  · cases h

theorem getWriteResult_eq_ok {bs r : List Byte} {q : WriteResult} (h : getWriteResult bs = .ok (q, r)) :
    bs = putWriteResult q ++ r := by
  obtain ⟨⟨k, r₁⟩, h₁, h⟩ := bind_eq_ok h
  dsimp only at h
  rw [getByte_eq_ok h₁]
  split at h
  · rename_i hb
    obtain ⟨⟨fc, r₂⟩, h₂, h⟩ := bind_eq_ok h
    dsimp only at h
    cases h
    rw [getNat_eq_ok h₂, hb]; rfl
  split at h
  · rename_i hb
    obtain ⟨⟨fc, r₂⟩, h₂, h⟩ := bind_eq_ok h
    dsimp only at h
    cases h
    rw [getBytes_eq_ok h₂, hb]; rfl
  · cases h

theorem getAttemptClass_eq_ok {bs r : List Byte} {q : AttemptClass} (h : getAttemptClass bs = .ok (q, r)) :
    bs = putAttemptClass q ++ r := by
  obtain ⟨⟨k, r₁⟩, h₁, h⟩ := bind_eq_ok h
  dsimp only at h
  rw [getByte_eq_ok h₁]
  split at h
  · rename_i hb; cases h; rw [hb]; rfl
  split at h
  · rename_i hb
    obtain ⟨⟨fc, r₂⟩, h₂, h⟩ := bind_eq_ok h
    dsimp only at h
    cases h
    rw [getBytes_eq_ok h₂, hb]; rfl
  · cases h

theorem finish_eq_ok {i j : Instr} {bs : List Byte} (h : finish i bs = .ok j) : bs = [] ∧ i = j := by
  unfold finish at h
  split at h
  · rename_i hb; cases h; exact ⟨hb, rfl⟩
  · cases h

theorem ofByte_eq_ok {b : Byte} {op : Op} (h : Op.ofByte b = .ok op) : b = op.code := by
  unfold Op.ofByte at h
  split at h
  · rename_i k' hk
    cases h
    have := List.find?_some hk
    exact (beq_iff_eq.1 this).symm
  · split at h <;> cases h

/-- The function code of a structured kind. -/
def fcOfKind : Kind → Byte
  | .rc => 0x01#8 | .rhr => 0x03#8 | .rir => 0x04#8 | .wsc => 0x05#8 | .wsr => 0x06#8 | .wmc => 0x0F#8
  | .wmr => 0x10#8 | .raw => 0#8

theorem kindOfFc_eq_some {fc : Byte} {k : Kind} (h : kindOfFc fc = some k) : fc = fcOfKind k := by
  unfold kindOfFc at h
  by_cases h1 : fc = 1#8
  · rw [if_pos h1] at h; cases h; exact h1
  rw [if_neg h1] at h
  by_cases h2 : fc = 3#8
  · rw [if_pos h2] at h; cases h; exact h2
  rw [if_neg h2] at h
  by_cases h3 : fc = 4#8
  · rw [if_pos h3] at h; cases h; exact h3
  rw [if_neg h3] at h
  by_cases h4 : fc = 5#8
  · rw [if_pos h4] at h; cases h; exact h4
  rw [if_neg h4] at h
  by_cases h5 : fc = 6#8
  · rw [if_pos h5] at h; cases h; exact h5
  rw [if_neg h5] at h
  by_cases h6 : fc = 15#8
  · rw [if_pos h6] at h; cases h; exact h6
  rw [if_neg h6] at h
  by_cases h7 : fc = 16#8
  · rw [if_pos h7] at h; cases h; exact h7
  rw [if_neg h7] at h
  cases h

end Sys2Proof
end

