-- ==== Sys2Proof/Laws/Memory.lean ====
section
/-! SUPPORT. The laws of the byte buffers: read after write, and that every write keeps the canonical form. -/

namespace Sys2Proof.Machine.Memory

/-! ### One byte -/

@[simp] theorem read_nil (a : Nat) : read [] a = unlisted := rfl

/-- An index below every listed one holds nothing. -/
theorem read_of_lt {m : Memory} {a : Nat} (h : ∀ c ∈ m, a < c.1) : read m a = unlisted := by
  induction m with
  | nil => rfl
  | cons c m ih =>
    obtain ⟨k, v⟩ := c
    have hk : a < k := h (k, v) (by simp)
    simp only [read, if_neg (Nat.ne_of_gt hk)]
    exact ih fun c hc => h c (by simp [hc])

theorem read_consCell_ne {m : Memory} {a b : Nat} (v : Byte) (h : a ≠ b) : read (consCell a v m) b = read m b := by
  unfold consCell
  split
  · rfl
  · simp [read, h]

theorem read_consCell_same {m : Memory} {a : Nat} (v : Byte) (h : ∀ c ∈ m, a < c.1) :
    read (consCell a v m) a = v := by
  unfold consCell
  split
  · rename_i hv
    rw [read_of_lt h, hv]
  · simp [read]

/-- A write leaves every other index alone. -/
@[simp] theorem read_write_ne {m : Memory} {a b : Nat} (v : Byte) (h : a ≠ b) : read (write m a v) b = read m b := by
  induction m with
  | nil => exact read_consCell_ne v h
  | cons c m ih =>
    obtain ⟨k, w⟩ := c
    simp only [write]
    split
    · exact read_consCell_ne v h
    · split
      · rename_i hk
        subst hk
        simp [read_consCell_ne v h, read, h]
      · simp only [read, ih]

theorem wf_tail {size k : Nat} {w : Byte} {m : Memory} (h : Wf size ((k, w) :: m)) :
    Wf size m ∧ (∀ c ∈ m, k < c.1) ∧ w ≠ unlisted ∧ k < size := by
  obtain ⟨hp, hv, hs⟩ := h
  simp only [List.map_cons, List.pairwise_cons, List.mem_map, forall_exists_index, and_imp,
    forall_apply_eq_imp_iff₂] at hp
  refine ⟨⟨hp.2, fun c hc => hv c (by simp [hc]), fun c hc => hs c (by simp [hc])⟩, hp.1, ?_, ?_⟩
  · exact hv (k, w) (by simp)
  · exact hs (k, w) (by simp)

theorem wf_cons {size k : Nat} {w : Byte} {m : Memory} (hm : Wf size m) (hk : ∀ c ∈ m, k < c.1) (hw : w ≠ unlisted)
    (hs : k < size) : Wf size ((k, w) :: m) := by
  obtain ⟨hp, hv, hz⟩ := hm
  refine ⟨?_, ?_, ?_⟩
  · simp only [List.map_cons, List.pairwise_cons, List.mem_map, forall_exists_index, and_imp,
      forall_apply_eq_imp_iff₂]
    exact ⟨hk, hp⟩
  · simpa [hw] using fun a b h => hv (a, b) h
  · simpa [hs] using fun a b h => hz (a, b) h

theorem consCell_wf {size a : Nat} {m : Memory} (v : Byte) (hm : Wf size m) (ha : ∀ c ∈ m, a < c.1) (hs : a < size) :
    Wf size (consCell a v m) := by
  unfold consCell
  split
  · exact hm
  · rename_i hv
    exact wf_cons hm ha hv hs

/-- A read after a write to the same index gives the value written. -/
@[simp] theorem read_write_same {size : Nat} {m : Memory} (hm : Wf size m) (a : Nat) (v : Byte) :
    read (write m a v) a = v := by
  induction m with
  | nil => exact read_consCell_same v (by simp)
  | cons c m ih =>
    obtain ⟨k, w⟩ := c
    obtain ⟨ht, hk, -, -⟩ := wf_tail hm
    simp only [write]
    split
    · rename_i hlt
      exact read_consCell_same v (by
        intro c hc
        rcases List.mem_cons.1 hc with rfl | hc
        · exact hlt
        · exact Nat.lt_trans hlt (hk c hc))
    · split
      · rename_i hak
        subst hak
        exact read_consCell_same v hk
      · rename_i hne
        simp only [read, if_neg (Ne.symm hne), ih ht]

/-- The indexes of a memory after a write: the old ones and the one written. -/
theorem mem_write {m : Memory} {a : Nat} {v : Byte} {c : Host.Cell} (h : c ∈ write m a v) : c ∈ m ∨ c = (a, v) := by
  induction m with
  | nil =>
    simp only [write, consCell] at h
    split at h <;> simp_all
  | cons d m ih =>
    obtain ⟨k, w⟩ := d
    simp only [write, consCell] at h
    split at h
    · split at h
      · exact .inl h
      · rcases List.mem_cons.1 h with h | h
        · exact .inr h
        · exact .inl h
    · split at h
      · split at h
        · exact .inl (List.mem_cons_of_mem _ h)
        · rcases List.mem_cons.1 h with h | h
          · exact .inr h
          · exact .inl (List.mem_cons_of_mem _ h)
      · rcases List.mem_cons.1 h with h | h
        · exact .inl (h ▸ List.mem_cons_self ..)
        · rcases ih h with h | h
          · exact .inl (List.mem_cons_of_mem _ h)
          · exact .inr h

/-- A write below `size` keeps the canonical form. -/
theorem write_wf {size : Nat} {m : Memory} (hm : Wf size m) {a : Nat} (ha : a < size) (v : Byte) :
    Wf size (write m a v) := by
  induction m with
  | nil => exact consCell_wf v hm (by simp) ha
  | cons c m ih =>
    obtain ⟨k, w⟩ := c
    obtain ⟨ht, hk, hw, hs⟩ := wf_tail hm
    simp only [write]
    split
    · rename_i hlt
      exact consCell_wf v hm (by
        intro c hc
        rcases List.mem_cons.1 hc with rfl | hc
        · exact hlt
        · exact Nat.lt_trans hlt (hk c hc)) ha
    · split
      · rename_i hak
        subst hak
        exact consCell_wf v ht hk ha
      · refine wf_cons (ih ht) ?_ hw hs
        intro c hc
        rcases mem_write hc with hc | rfl
        · exact hk c hc
        · show k < a
          omega

/-! ### Many bytes -/

@[simp] theorem writeBytes_nil (m : Memory) (a : Nat) : writeBytes m a [] = m := rfl

theorem writeBytes_wf {size : Nat} {m : Memory} (hm : Wf size m) {a : Nat} {bs : List Byte}
    (h : a + bs.length ≤ size) : Wf size (writeBytes m a bs) := by
  induction bs generalizing m a with
  | nil => exact hm
  | cons b bs ih =>
    simp only [List.length_cons] at h
    exact ih (write_wf hm (by omega) b) (by omega)

/-- Writing bytes leaves every index outside them alone. -/
theorem read_writeBytes_outside {m : Memory} {a i : Nat} {bs : List Byte} (h : i < a ∨ a + bs.length ≤ i) :
    read (writeBytes m a bs) i = read m i := by
  induction bs generalizing m a with
  | nil => rfl
  | cons b bs ih =>
    simp only [List.length_cons] at h
    simp only [writeBytes]
    rw [ih (by omega), read_write_ne b (by omega)]

/-- Reading an index inside the bytes just written gives the byte. -/
theorem read_writeBytes_inside {size : Nat} {m : Memory} (hm : Wf size m) {a i : Nat} {bs : List Byte}
    (hs : a + bs.length ≤ size) (h : i < bs.length) : read (writeBytes m a bs) (a + i) = bs[i] := by
  induction bs generalizing m a i with
  | nil => exact absurd h (by simp)
  | cons b bs ih =>
    simp only [List.length_cons] at hs h
    simp only [writeBytes]
    cases i with
    | zero =>
      rw [read_writeBytes_outside (by omega), Nat.add_zero, read_write_same hm]
      rfl
    | succ i =>
      have := ih (write_wf hm (show a < size by omega) b) (a := a + 1) (i := i) (by omega) (by omega)
      rw [show a + (i + 1) = a + 1 + i by omega, this]
      rfl

@[simp] theorem readBytes_length (m : Memory) (a n : Nat) : (readBytes m a n).length = n := by
  induction n generalizing a with
  | zero => rfl
  | succ n ih => simp [readBytes, ih]

@[simp] theorem readBytes_getElem (m : Memory) (a n i : Nat) (h : i < (readBytes m a n).length) :
    (readBytes m a n)[i] = read m (a + i) := by
  induction n generalizing a i with
  | zero => exact absurd h (by simp)
  | succ n ih =>
    cases i with
    | zero => rfl
    | succ i =>
      simp only [readBytes, List.getElem_cons_succ]
      rw [ih (a + 1) i (by simpa [readBytes] using h)]
      congr 1
      omega

/-- The bytes read depend on the bytes at their indexes alone. -/
theorem readBytes_congr {m m' : Memory} {a n : Nat} (h : ∀ i, i < n → read m (a + i) = read m' (a + i)) :
    readBytes m a n = readBytes m' a n :=
  List.ext_getElem (by simp) fun i h₁ h₂ => by
    simp only [readBytes_getElem]
    exact h i (by simpa using h₁)

/-- Bytes written are read back. -/
theorem readBytes_writeBytes {size : Nat} {m : Memory} (hm : Wf size m) {a : Nat} {bs : List Byte}
    (hs : a + bs.length ≤ size) : readBytes (writeBytes m a bs) a bs.length = bs :=
  List.ext_getElem (by simp) fun i h₁ h₂ => by
    simp only [readBytes_getElem]
    exact read_writeBytes_inside hm hs h₂

/-- One more byte is the byte at the next index. -/
theorem readBytes_succ (m : Memory) (a n : Nat) : readBytes m a (n + 1) = readBytes m a n ++ [read m (a + n)] := by
  induction n generalizing a with
  | zero => rfl
  | succ n ih =>
    rw [readBytes, ih (a + 1), readBytes, List.cons_append, show a + 1 + n = a + (n + 1) by omega]

/-- A run of bytes read is its first part and the rest. -/
theorem readBytes_add (m : Memory) (a n k : Nat) : readBytes m a (n + k) = readBytes m a n ++ readBytes m (a + n) k := by
  induction n generalizing a with
  | zero => simp [readBytes]
  | succ n ih =>
    rw [show n + 1 + k = n + k + 1 by omega, readBytes, ih, readBytes, List.cons_append,
      show a + 1 + n = a + (n + 1) by omega]

end Sys2Proof.Machine.Memory
end

