-- ==== Sys2Proof/Laws/PerInstr.lean ====
section
/-! SUPPORT. The family PacketOp: the first byte of every instruction's packet is its op number (30_encoding.md R81 for
the host operations, log entry 3 for the others), one lemma per constructor. -/

namespace Sys2Proof.Laws.PacketOp

/-- The op an instruction's packet starts with. -/
def opOf : Instr → Op
  | .rc .. => .request
  | .rhr .. => .request
  | .rir .. => .request
  | .wsc .. => .request
  | .wsr .. => .request
  | .wmc .. => .request
  | .wmr .. => .request
  | .raw .. => .rawRequest
  | .rcReply .. => .reply .rc
  | .rhrReply .. => .reply .rhr
  | .rirReply .. => .reply .rir
  | .wscReply .. => .reply .wsc
  | .wsrReply .. => .reply .wsr
  | .wmcReply .. => .reply .wmc
  | .wmrReply .. => .reply .wmr
  | .excReply kind _ => .reply kind
  | .rawReply .. => .reply .raw
  | .dispatch .. => .dispatch
  | .dispatchRaw .. => .dispatchRaw
  | .cancel .. => .cancel
  | .getRegister .. => .getRegister
  | .readHistory .. => .readHistory
  | .readLastError .. => .readLastError
  | .cfgWrite .. => .cfgWrite
  | .connect .. => .connect
  | .disconnect .. => .disconnect
  | .writeResult .. => .writeResult
  | .rx .. => .rx
  | .tick .. => .tick
  | .tpFault .. => .tpFault
  | .validate .. => .validate
  | .crcInit => .crcInit
  | .crcByte .. => .crcByte
  | .crc16 .. => .crc16
  | .crcBit .. => .crcBit
  | .appendCrc .. => .appendCrc
  | .verify .. => .verify
  | .checkParams .. => .checkParams
  | .encodeFrame .. => .encodeFrame
  | .decodeReply .. => .decodeReply
  | .validateReply .. => .validateReply
  | .startAttempt .. => .startAttempt
  | .evalWait .. => .evalWait
  | .attemptFail .. => .attemptFail
  | .close .. => .close
  | .storeUpdate .. => .storeUpdate

/-- The packet of `i` starts with its op number. -/
def Statement (i : Instr) : Prop := (encode i).head? = some (opOf i).code

theorem rc (slave : Byte) (addr qty : Word) (timeout : Option Nat) (now : Nat) :
    Statement (.rc slave addr qty timeout now) := rfl
theorem rhr (slave : Byte) (addr qty : Word) (timeout : Option Nat) (now : Nat) :
    Statement (.rhr slave addr qty timeout now) := rfl
theorem rir (slave : Byte) (addr qty : Word) (timeout : Option Nat) (now : Nat) :
    Statement (.rir slave addr qty timeout now) := rfl
theorem wsc (slave : Byte) (addr : Word) (coil : Bool) (timeout : Option Nat) (now : Nat) :
    Statement (.wsc slave addr coil timeout now) := rfl
theorem wsr (slave : Byte) (addr value : Word) (timeout : Option Nat) (now : Nat) :
    Statement (.wsr slave addr value timeout now) := rfl
theorem wmc (slave : Byte) (addr qty : Word) (packed : List Byte) (timeout : Option Nat) (now : Nat) :
    Statement (.wmc slave addr qty packed timeout now) := rfl
theorem wmr (slave : Byte) (addr qty : Word) (words : List Word) (timeout : Option Nat) (now : Nat) :
    Statement (.wmr slave addr qty words timeout now) := rfl
theorem raw (bytes : List Byte) (timeout : Option Nat) (now : Nat) : Statement (.raw bytes timeout now) := rfl
theorem rcReply (frame : List Byte) : Statement (.rcReply frame) := rfl
theorem rhrReply (frame : List Byte) : Statement (.rhrReply frame) := rfl
theorem rirReply (frame : List Byte) : Statement (.rirReply frame) := rfl
theorem wscReply (frame : List Byte) : Statement (.wscReply frame) := rfl
theorem wsrReply (frame : List Byte) : Statement (.wsrReply frame) := rfl
theorem wmcReply (frame : List Byte) : Statement (.wmcReply frame) := rfl
theorem wmrReply (frame : List Byte) : Statement (.wmrReply frame) := rfl
theorem excReply (kind : Kind) (frame : List Byte) : Statement (.excReply kind frame) := rfl
theorem rawReply (frame : List Byte) : Statement (.rawReply frame) := rfl
theorem dispatch (fc slave : Byte) (addr : Word) (fields : Fields) (timeout : Option Nat) (now : Nat) :
    Statement (.dispatch fc slave addr fields timeout now) := rfl
theorem dispatchRaw (bytes : List Byte) (timeout : Option Nat) (now : Nat) :
    Statement (.dispatchRaw bytes timeout now) := rfl
theorem cancel (now : Nat) : Statement (.cancel now) := rfl
theorem getRegister (addr : Word) (now : Nat) : Statement (.getRegister addr now) := rfl
theorem readHistory (now : Nat) : Statement (.readHistory now) := rfl
theorem readLastError (now : Nat) : Statement (.readLastError now) := rfl
theorem cfgWrite (name : Text) (v now : Nat) : Statement (.cfgWrite name v now) := rfl
theorem connect (portName : Text) (baudRate now : Nat) : Statement (.connect portName baudRate now) := rfl
theorem disconnect (now : Nat) : Statement (.disconnect now) := rfl
theorem writeResult (res : WriteResult) (now : Nat) : Statement (.writeResult res now) := rfl
theorem rx (bytes : List Byte) (now : Nat) : Statement (.rx bytes now) := rfl
theorem tick (now : Nat) : Statement (.tick now) := rfl
theorem tpFault (reason : Text) (fatal : Bool) (now : Nat) : Statement (.tpFault reason fatal now) := rfl
theorem validate (now : Nat) : Statement (.validate now) := rfl
theorem crcInit : Statement .crcInit := rfl
theorem crcByte (b : Byte) : Statement (.crcByte b) := rfl
theorem crc16 (bytes : List Byte) : Statement (.crc16 bytes) := rfl
theorem crcBit (d : Bool) : Statement (.crcBit d) := rfl
theorem appendCrc (bytes : List Byte) : Statement (.appendCrc bytes) := rfl
theorem verify (frame : List Byte) : Statement (.verify frame) := rfl
theorem checkParams (cmd : Command) : Statement (.checkParams cmd) := rfl
theorem encodeFrame (cmd : Command) : Statement (.encodeFrame cmd) := rfl
theorem decodeReply (frame : List Byte) (ovf : Bool) (kind : Kind) : Statement (.decodeReply frame ovf kind) := rfl
theorem validateReply (resp : Decoded) (req : Req) : Statement (.validateReply resp req) := rfl
theorem startAttempt (now : Nat) : Statement (.startAttempt now) := rfl
theorem evalWait (now : Nat) : Statement (.evalWait now) := rfl
theorem attemptFail (cls : AttemptClass) (severity : Severity) (now : Nat) :
    Statement (.attemptFail cls severity now) := rfl
theorem close (verdict : Verdict) (now : Nat) : Statement (.close verdict now) := rfl
theorem storeUpdate (addr : Word) (vs : Values) (now : Nat) : Statement (.storeUpdate addr vs now) := rfl

end Sys2Proof.Laws.PacketOp
end

