-- ==== Sys2Proof/Laws/State.lean ====
section
/-! SUPPORT. One lemma per field of State for each update the shared operations make: what the field is afterwards. -/

namespace Sys2Proof.Machine

/-! ### emit -/

@[simp] theorem emit_crc (m : Msg) (s : State) : (emit m s).crc = s.crc := rfl
@[simp] theorem emit_req (m : Msg) (s : State) : (emit m s).req = s.req := rfl
@[simp] theorem emit_tx (m : Msg) (s : State) : (emit m s).tx = s.tx := rfl
@[simp] theorem emit_txLen (m : Msg) (s : State) : (emit m s).txLen = s.txLen := rfl
@[simp] theorem emit_rx (m : Msg) (s : State) : (emit m s).rx = s.rx := rfl
@[simp] theorem emit_rxLen (m : Msg) (s : State) : (emit m s).rxLen = s.rxLen := rfl
@[simp] theorem emit_rxOvf (m : Msg) (s : State) : (emit m s).rxOvf = s.rxOvf := rfl
@[simp] theorem emit_fsm (m : Msg) (s : State) : (emit m s).fsm = s.fsm := rfl
@[simp] theorem emit_cfgTimeout (m : Msg) (s : State) : (emit m s).cfgTimeout = s.cfgTimeout := rfl
@[simp] theorem emit_cfgQuiet (m : Msg) (s : State) : (emit m s).cfgQuiet = s.cfgQuiet := rfl
@[simp] theorem emit_cfgRetry (m : Msg) (s : State) : (emit m s).cfgRetry = s.cfgRetry := rfl
@[simp] theorem emit_seqNext (m : Msg) (s : State) : (emit m s).seqNext = s.seqNext := rfl
@[simp] theorem emit_curSeq (m : Msg) (s : State) : (emit m s).curSeq = s.curSeq := rfl
@[simp] theorem emit_retriesLeft (m : Msg) (s : State) : (emit m s).retriesLeft = s.retriesLeft := rfl
@[simp] theorem emit_attempts (m : Msg) (s : State) : (emit m s).attempts = s.attempts := rfl
@[simp] theorem emit_lastError (m : Msg) (s : State) : (emit m s).lastError = s.lastError := rfl
@[simp] theorem emit_tStart (m : Msg) (s : State) : (emit m s).tStart = s.tStart := rfl
@[simp] theorem emit_deadline (m : Msg) (s : State) : (emit m s).deadline = s.deadline := rfl
@[simp] theorem emit_tLastRx (m : Msg) (s : State) : (emit m s).tLastRx = s.tLastRx := rfl
@[simp] theorem emit_timeoutL (m : Msg) (s : State) : (emit m s).timeoutL = s.timeoutL := rfl
@[simp] theorem emit_quietL (m : Msg) (s : State) : (emit m s).quietL = s.quietL := rfl
@[simp] theorem emit_store (m : Msg) (s : State) : (emit m s).store = s.store := rfl
@[simp] theorem emit_history (m : Msg) (s : State) : (emit m s).history = s.history := rfl
@[simp] theorem emit_inbox (m : Msg) (s : State) : (emit m s).inbox = s.inbox := rfl
@[simp] theorem emit_out (m : Msg) (s : State) : (emit m s).out = s.out ++ [m] := rfl

/-! ### answerAtOnce -/

@[simp] theorem answerAtOnce_crc (f : Failure) (s : State) : (answerAtOnce f s).crc = s.crc := rfl
@[simp] theorem answerAtOnce_req (f : Failure) (s : State) : (answerAtOnce f s).req = s.req := rfl
@[simp] theorem answerAtOnce_tx (f : Failure) (s : State) : (answerAtOnce f s).tx = s.tx := rfl
@[simp] theorem answerAtOnce_txLen (f : Failure) (s : State) : (answerAtOnce f s).txLen = s.txLen := rfl
@[simp] theorem answerAtOnce_rx (f : Failure) (s : State) : (answerAtOnce f s).rx = s.rx := rfl
@[simp] theorem answerAtOnce_rxLen (f : Failure) (s : State) : (answerAtOnce f s).rxLen = s.rxLen := rfl
@[simp] theorem answerAtOnce_rxOvf (f : Failure) (s : State) : (answerAtOnce f s).rxOvf = s.rxOvf := rfl
@[simp] theorem answerAtOnce_fsm (f : Failure) (s : State) : (answerAtOnce f s).fsm = s.fsm := rfl
@[simp] theorem answerAtOnce_cfgTimeout (f : Failure) (s : State) : (answerAtOnce f s).cfgTimeout = s.cfgTimeout := rfl
@[simp] theorem answerAtOnce_cfgQuiet (f : Failure) (s : State) : (answerAtOnce f s).cfgQuiet = s.cfgQuiet := rfl
@[simp] theorem answerAtOnce_cfgRetry (f : Failure) (s : State) : (answerAtOnce f s).cfgRetry = s.cfgRetry := rfl
@[simp] theorem answerAtOnce_seqNext (f : Failure) (s : State) : (answerAtOnce f s).seqNext = s.seqNext := rfl
@[simp] theorem answerAtOnce_curSeq (f : Failure) (s : State) : (answerAtOnce f s).curSeq = s.curSeq := rfl
@[simp] theorem answerAtOnce_retriesLeft (f : Failure) (s : State) : (answerAtOnce f s).retriesLeft = s.retriesLeft := rfl
@[simp] theorem answerAtOnce_attempts (f : Failure) (s : State) : (answerAtOnce f s).attempts = s.attempts := rfl
@[simp] theorem answerAtOnce_lastError (f : Failure) (s : State) : (answerAtOnce f s).lastError = some f := rfl
@[simp] theorem answerAtOnce_tStart (f : Failure) (s : State) : (answerAtOnce f s).tStart = s.tStart := rfl
@[simp] theorem answerAtOnce_deadline (f : Failure) (s : State) : (answerAtOnce f s).deadline = s.deadline := rfl
@[simp] theorem answerAtOnce_tLastRx (f : Failure) (s : State) : (answerAtOnce f s).tLastRx = s.tLastRx := rfl
@[simp] theorem answerAtOnce_timeoutL (f : Failure) (s : State) : (answerAtOnce f s).timeoutL = s.timeoutL := rfl
@[simp] theorem answerAtOnce_quietL (f : Failure) (s : State) : (answerAtOnce f s).quietL = s.quietL := rfl
@[simp] theorem answerAtOnce_store (f : Failure) (s : State) : (answerAtOnce f s).store = s.store := rfl
@[simp] theorem answerAtOnce_history (f : Failure) (s : State) : (answerAtOnce f s).history = s.history := rfl
@[simp] theorem answerAtOnce_inbox (f : Failure) (s : State) : (answerAtOnce f s).inbox = s.inbox := rfl
@[simp] theorem answerAtOnce_out (f : Failure) (s : State) : (answerAtOnce f s).out = s.out ++ [.outcome (.failure f)] := rfl

/-! ### encodeOp -/

@[simp] theorem encodeOp_crc (cmd : Command) (s : State) : (encodeOp cmd s).crc = crc16 (Command.body cmd) := rfl
@[simp] theorem encodeOp_req (cmd : Command) (s : State) : (encodeOp cmd s).req = Command.latch s.req cmd := rfl
@[simp] theorem encodeOp_tx (cmd : Command) (s : State) : (encodeOp cmd s).tx = Memory.writeBytes s.tx 0 (Command.frame cmd) := rfl
@[simp] theorem encodeOp_txLen (cmd : Command) (s : State) : (encodeOp cmd s).txLen = (Command.frame cmd).length := rfl
@[simp] theorem encodeOp_rx (cmd : Command) (s : State) : (encodeOp cmd s).rx = s.rx := rfl
@[simp] theorem encodeOp_rxLen (cmd : Command) (s : State) : (encodeOp cmd s).rxLen = s.rxLen := rfl
@[simp] theorem encodeOp_rxOvf (cmd : Command) (s : State) : (encodeOp cmd s).rxOvf = s.rxOvf := rfl
@[simp] theorem encodeOp_fsm (cmd : Command) (s : State) : (encodeOp cmd s).fsm = s.fsm := rfl
@[simp] theorem encodeOp_cfgTimeout (cmd : Command) (s : State) : (encodeOp cmd s).cfgTimeout = s.cfgTimeout := rfl
@[simp] theorem encodeOp_cfgQuiet (cmd : Command) (s : State) : (encodeOp cmd s).cfgQuiet = s.cfgQuiet := rfl
@[simp] theorem encodeOp_cfgRetry (cmd : Command) (s : State) : (encodeOp cmd s).cfgRetry = s.cfgRetry := rfl
@[simp] theorem encodeOp_seqNext (cmd : Command) (s : State) : (encodeOp cmd s).seqNext = s.seqNext := rfl
@[simp] theorem encodeOp_curSeq (cmd : Command) (s : State) : (encodeOp cmd s).curSeq = s.curSeq := rfl
@[simp] theorem encodeOp_retriesLeft (cmd : Command) (s : State) : (encodeOp cmd s).retriesLeft = s.retriesLeft := rfl
@[simp] theorem encodeOp_attempts (cmd : Command) (s : State) : (encodeOp cmd s).attempts = s.attempts := rfl
@[simp] theorem encodeOp_lastError (cmd : Command) (s : State) : (encodeOp cmd s).lastError = s.lastError := rfl
@[simp] theorem encodeOp_tStart (cmd : Command) (s : State) : (encodeOp cmd s).tStart = s.tStart := rfl
@[simp] theorem encodeOp_deadline (cmd : Command) (s : State) : (encodeOp cmd s).deadline = s.deadline := rfl
@[simp] theorem encodeOp_tLastRx (cmd : Command) (s : State) : (encodeOp cmd s).tLastRx = s.tLastRx := rfl
@[simp] theorem encodeOp_timeoutL (cmd : Command) (s : State) : (encodeOp cmd s).timeoutL = s.timeoutL := rfl
@[simp] theorem encodeOp_quietL (cmd : Command) (s : State) : (encodeOp cmd s).quietL = s.quietL := rfl
@[simp] theorem encodeOp_store (cmd : Command) (s : State) : (encodeOp cmd s).store = s.store := rfl
@[simp] theorem encodeOp_history (cmd : Command) (s : State) : (encodeOp cmd s).history = s.history := rfl
@[simp] theorem encodeOp_inbox (cmd : Command) (s : State) : (encodeOp cmd s).inbox = s.inbox := rfl
@[simp] theorem encodeOp_out (cmd : Command) (s : State) : (encodeOp cmd s).out = s.out := rfl

/-! ### startAttemptOp -/

@[simp] theorem startAttemptOp_crc (now : Nat) (s : State) : (startAttemptOp now s).crc = s.crc := rfl
@[simp] theorem startAttemptOp_req (now : Nat) (s : State) : (startAttemptOp now s).req = s.req := rfl
@[simp] theorem startAttemptOp_tx (now : Nat) (s : State) : (startAttemptOp now s).tx = s.tx := rfl
@[simp] theorem startAttemptOp_txLen (now : Nat) (s : State) : (startAttemptOp now s).txLen = s.txLen := rfl
@[simp] theorem startAttemptOp_rx (now : Nat) (s : State) : (startAttemptOp now s).rx = s.rx := rfl
@[simp] theorem startAttemptOp_rxLen (now : Nat) (s : State) : (startAttemptOp now s).rxLen = 0 := rfl
@[simp] theorem startAttemptOp_rxOvf (now : Nat) (s : State) : (startAttemptOp now s).rxOvf = false := rfl
@[simp] theorem startAttemptOp_fsm (now : Nat) (s : State) : (startAttemptOp now s).fsm = .sending := rfl
@[simp] theorem startAttemptOp_cfgTimeout (now : Nat) (s : State) : (startAttemptOp now s).cfgTimeout = s.cfgTimeout := rfl
@[simp] theorem startAttemptOp_cfgQuiet (now : Nat) (s : State) : (startAttemptOp now s).cfgQuiet = s.cfgQuiet := rfl
@[simp] theorem startAttemptOp_cfgRetry (now : Nat) (s : State) : (startAttemptOp now s).cfgRetry = s.cfgRetry := rfl
@[simp] theorem startAttemptOp_seqNext (now : Nat) (s : State) : (startAttemptOp now s).seqNext = s.seqNext := rfl
@[simp] theorem startAttemptOp_curSeq (now : Nat) (s : State) : (startAttemptOp now s).curSeq = s.curSeq := rfl
@[simp] theorem startAttemptOp_retriesLeft (now : Nat) (s : State) : (startAttemptOp now s).retriesLeft = s.retriesLeft := rfl
@[simp] theorem startAttemptOp_attempts (now : Nat) (s : State) : (startAttemptOp now s).attempts = s.attempts := rfl
@[simp] theorem startAttemptOp_lastError (now : Nat) (s : State) : (startAttemptOp now s).lastError = s.lastError := rfl
@[simp] theorem startAttemptOp_tStart (now : Nat) (s : State) : (startAttemptOp now s).tStart = s.tStart := rfl
@[simp] theorem startAttemptOp_deadline (now : Nat) (s : State) : (startAttemptOp now s).deadline = now + s.timeoutL := rfl
@[simp] theorem startAttemptOp_tLastRx (now : Nat) (s : State) : (startAttemptOp now s).tLastRx = none := rfl
@[simp] theorem startAttemptOp_timeoutL (now : Nat) (s : State) : (startAttemptOp now s).timeoutL = s.timeoutL := rfl
@[simp] theorem startAttemptOp_quietL (now : Nat) (s : State) : (startAttemptOp now s).quietL = s.quietL := rfl
@[simp] theorem startAttemptOp_store (now : Nat) (s : State) : (startAttemptOp now s).store = s.store := rfl
@[simp] theorem startAttemptOp_history (now : Nat) (s : State) : (startAttemptOp now s).history = s.history := rfl
@[simp] theorem startAttemptOp_inbox (now : Nat) (s : State) : (startAttemptOp now s).inbox = s.inbox := rfl
@[simp] theorem startAttemptOp_out (now : Nat) (s : State) : (startAttemptOp now s).out = s.out ++ [.tpWrite (txBytes s)] := rfl

/-! ### beginTransaction -/

@[simp] theorem beginTransaction_crc (timeout : Option Nat) (now : Nat) (s : State) : (beginTransaction timeout now s).crc = s.crc := rfl
@[simp] theorem beginTransaction_req (timeout : Option Nat) (now : Nat) (s : State) : (beginTransaction timeout now s).req = s.req := rfl
@[simp] theorem beginTransaction_tx (timeout : Option Nat) (now : Nat) (s : State) : (beginTransaction timeout now s).tx = s.tx := rfl
@[simp] theorem beginTransaction_txLen (timeout : Option Nat) (now : Nat) (s : State) : (beginTransaction timeout now s).txLen = s.txLen := rfl
@[simp] theorem beginTransaction_rx (timeout : Option Nat) (now : Nat) (s : State) : (beginTransaction timeout now s).rx = s.rx := rfl
@[simp] theorem beginTransaction_rxLen (timeout : Option Nat) (now : Nat) (s : State) : (beginTransaction timeout now s).rxLen = s.rxLen := rfl
@[simp] theorem beginTransaction_rxOvf (timeout : Option Nat) (now : Nat) (s : State) : (beginTransaction timeout now s).rxOvf = s.rxOvf := rfl
@[simp] theorem beginTransaction_fsm (timeout : Option Nat) (now : Nat) (s : State) : (beginTransaction timeout now s).fsm = s.fsm := rfl
@[simp] theorem beginTransaction_cfgTimeout (timeout : Option Nat) (now : Nat) (s : State) : (beginTransaction timeout now s).cfgTimeout = s.cfgTimeout := rfl
@[simp] theorem beginTransaction_cfgQuiet (timeout : Option Nat) (now : Nat) (s : State) : (beginTransaction timeout now s).cfgQuiet = s.cfgQuiet := rfl
@[simp] theorem beginTransaction_cfgRetry (timeout : Option Nat) (now : Nat) (s : State) : (beginTransaction timeout now s).cfgRetry = s.cfgRetry := rfl
@[simp] theorem beginTransaction_seqNext (timeout : Option Nat) (now : Nat) (s : State) : (beginTransaction timeout now s).seqNext = s.seqNext + 1 := rfl
@[simp] theorem beginTransaction_curSeq (timeout : Option Nat) (now : Nat) (s : State) : (beginTransaction timeout now s).curSeq = s.seqNext := rfl
@[simp] theorem beginTransaction_retriesLeft (timeout : Option Nat) (now : Nat) (s : State) : (beginTransaction timeout now s).retriesLeft = s.cfgRetry := rfl
@[simp] theorem beginTransaction_attempts (timeout : Option Nat) (now : Nat) (s : State) : (beginTransaction timeout now s).attempts = 1 := rfl
@[simp] theorem beginTransaction_lastError (timeout : Option Nat) (now : Nat) (s : State) : (beginTransaction timeout now s).lastError = s.lastError := rfl
@[simp] theorem beginTransaction_tStart (timeout : Option Nat) (now : Nat) (s : State) : (beginTransaction timeout now s).tStart = now := rfl
@[simp] theorem beginTransaction_deadline (timeout : Option Nat) (now : Nat) (s : State) : (beginTransaction timeout now s).deadline = s.deadline := rfl
@[simp] theorem beginTransaction_tLastRx (timeout : Option Nat) (now : Nat) (s : State) : (beginTransaction timeout now s).tLastRx = s.tLastRx := rfl
@[simp] theorem beginTransaction_timeoutL (timeout : Option Nat) (now : Nat) (s : State) : (beginTransaction timeout now s).timeoutL = timeout.getD s.cfgTimeout := rfl
@[simp] theorem beginTransaction_quietL (timeout : Option Nat) (now : Nat) (s : State) : (beginTransaction timeout now s).quietL = s.cfgQuiet := rfl
@[simp] theorem beginTransaction_store (timeout : Option Nat) (now : Nat) (s : State) : (beginTransaction timeout now s).store = s.store := rfl
@[simp] theorem beginTransaction_history (timeout : Option Nat) (now : Nat) (s : State) : (beginTransaction timeout now s).history = s.history := rfl
@[simp] theorem beginTransaction_inbox (timeout : Option Nat) (now : Nat) (s : State) : (beginTransaction timeout now s).inbox = s.inbox := rfl
@[simp] theorem beginTransaction_out (timeout : Option Nat) (now : Nat) (s : State) : (beginTransaction timeout now s).out = s.out := rfl

/-! ### closeOp -/

@[simp] theorem closeOp_crc (v : Verdict) (now : Nat) (s : State) : (closeOp v now s).crc = s.crc := rfl
@[simp] theorem closeOp_req (v : Verdict) (now : Nat) (s : State) : (closeOp v now s).req = s.req := rfl
@[simp] theorem closeOp_tx (v : Verdict) (now : Nat) (s : State) : (closeOp v now s).tx = s.tx := rfl
@[simp] theorem closeOp_txLen (v : Verdict) (now : Nat) (s : State) : (closeOp v now s).txLen = s.txLen := rfl
@[simp] theorem closeOp_rx (v : Verdict) (now : Nat) (s : State) : (closeOp v now s).rx = s.rx := rfl
@[simp] theorem closeOp_rxLen (v : Verdict) (now : Nat) (s : State) : (closeOp v now s).rxLen = s.rxLen := rfl
@[simp] theorem closeOp_rxOvf (v : Verdict) (now : Nat) (s : State) : (closeOp v now s).rxOvf = s.rxOvf := rfl
@[simp] theorem closeOp_fsm (v : Verdict) (now : Nat) (s : State) : (closeOp v now s).fsm = .idle := rfl
@[simp] theorem closeOp_cfgTimeout (v : Verdict) (now : Nat) (s : State) : (closeOp v now s).cfgTimeout = s.cfgTimeout := rfl
@[simp] theorem closeOp_cfgQuiet (v : Verdict) (now : Nat) (s : State) : (closeOp v now s).cfgQuiet = s.cfgQuiet := rfl
@[simp] theorem closeOp_cfgRetry (v : Verdict) (now : Nat) (s : State) : (closeOp v now s).cfgRetry = s.cfgRetry := rfl
@[simp] theorem closeOp_seqNext (v : Verdict) (now : Nat) (s : State) : (closeOp v now s).seqNext = s.seqNext := rfl
@[simp] theorem closeOp_curSeq (v : Verdict) (now : Nat) (s : State) : (closeOp v now s).curSeq = s.curSeq := rfl
@[simp] theorem closeOp_retriesLeft (v : Verdict) (now : Nat) (s : State) : (closeOp v now s).retriesLeft = s.retriesLeft := rfl
@[simp] theorem closeOp_attempts (v : Verdict) (now : Nat) (s : State) : (closeOp v now s).attempts = s.attempts := rfl
@[simp] theorem closeOp_lastError (v : Verdict) (now : Nat) (s : State) : (closeOp v now s).lastError = verdictLastError s.lastError v := rfl
@[simp] theorem closeOp_tStart (v : Verdict) (now : Nat) (s : State) : (closeOp v now s).tStart = s.tStart := rfl
@[simp] theorem closeOp_deadline (v : Verdict) (now : Nat) (s : State) : (closeOp v now s).deadline = s.deadline := rfl
@[simp] theorem closeOp_tLastRx (v : Verdict) (now : Nat) (s : State) : (closeOp v now s).tLastRx = s.tLastRx := rfl
@[simp] theorem closeOp_timeoutL (v : Verdict) (now : Nat) (s : State) : (closeOp v now s).timeoutL = s.timeoutL := rfl
@[simp] theorem closeOp_quietL (v : Verdict) (now : Nat) (s : State) : (closeOp v now s).quietL = s.quietL := rfl
@[simp] theorem closeOp_store (v : Verdict) (now : Nat) (s : State) : (closeOp v now s).store = verdictStore s.req.addr now s.store v := rfl
@[simp] theorem closeOp_history (v : Verdict) (now : Nat) (s : State) : (closeOp v now s).history = s.history ++ [closeRecord v now s] := rfl
@[simp] theorem closeOp_inbox (v : Verdict) (now : Nat) (s : State) : (closeOp v now s).inbox = s.inbox := rfl
@[simp] theorem closeOp_out (v : Verdict) (now : Nat) (s : State) : (closeOp v now s).out = s.out ++ [.outcome (verdictOutcome (elapsedTime s.tStart now) v)] := rfl

/-! ### disconnectActions -/

@[simp] theorem disconnectActions_crc (byTransport : Bool) (s : State) : (disconnectActions byTransport s).crc = s.crc := rfl
@[simp] theorem disconnectActions_req (byTransport : Bool) (s : State) : (disconnectActions byTransport s).req = s.req := rfl
@[simp] theorem disconnectActions_tx (byTransport : Bool) (s : State) : (disconnectActions byTransport s).tx = s.tx := rfl
@[simp] theorem disconnectActions_txLen (byTransport : Bool) (s : State) : (disconnectActions byTransport s).txLen = s.txLen := rfl
@[simp] theorem disconnectActions_rx (byTransport : Bool) (s : State) : (disconnectActions byTransport s).rx = s.rx := rfl
@[simp] theorem disconnectActions_rxLen (byTransport : Bool) (s : State) : (disconnectActions byTransport s).rxLen = s.rxLen := rfl
@[simp] theorem disconnectActions_rxOvf (byTransport : Bool) (s : State) : (disconnectActions byTransport s).rxOvf = s.rxOvf := rfl
@[simp] theorem disconnectActions_fsm (byTransport : Bool) (s : State) : (disconnectActions byTransport s).fsm = s.fsm := rfl
@[simp] theorem disconnectActions_cfgTimeout (byTransport : Bool) (s : State) : (disconnectActions byTransport s).cfgTimeout = s.cfgTimeout := rfl
@[simp] theorem disconnectActions_cfgQuiet (byTransport : Bool) (s : State) : (disconnectActions byTransport s).cfgQuiet = s.cfgQuiet := rfl
@[simp] theorem disconnectActions_cfgRetry (byTransport : Bool) (s : State) : (disconnectActions byTransport s).cfgRetry = s.cfgRetry := rfl
@[simp] theorem disconnectActions_seqNext (byTransport : Bool) (s : State) : (disconnectActions byTransport s).seqNext = s.seqNext := rfl
@[simp] theorem disconnectActions_curSeq (byTransport : Bool) (s : State) : (disconnectActions byTransport s).curSeq = s.curSeq := rfl
@[simp] theorem disconnectActions_retriesLeft (byTransport : Bool) (s : State) : (disconnectActions byTransport s).retriesLeft = s.retriesLeft := rfl
@[simp] theorem disconnectActions_attempts (byTransport : Bool) (s : State) : (disconnectActions byTransport s).attempts = s.attempts := rfl
@[simp] theorem disconnectActions_lastError (byTransport : Bool) (s : State) : (disconnectActions byTransport s).lastError = s.lastError := rfl
@[simp] theorem disconnectActions_tStart (byTransport : Bool) (s : State) : (disconnectActions byTransport s).tStart = s.tStart := rfl
@[simp] theorem disconnectActions_deadline (byTransport : Bool) (s : State) : (disconnectActions byTransport s).deadline = s.deadline := rfl
@[simp] theorem disconnectActions_tLastRx (byTransport : Bool) (s : State) : (disconnectActions byTransport s).tLastRx = s.tLastRx := rfl
@[simp] theorem disconnectActions_timeoutL (byTransport : Bool) (s : State) : (disconnectActions byTransport s).timeoutL = s.timeoutL := rfl
@[simp] theorem disconnectActions_quietL (byTransport : Bool) (s : State) : (disconnectActions byTransport s).quietL = s.quietL := rfl
@[simp] theorem disconnectActions_store (byTransport : Bool) (s : State) : (disconnectActions byTransport s).store = [] := rfl
@[simp] theorem disconnectActions_history (byTransport : Bool) (s : State) : (disconnectActions byTransport s).history = s.history := rfl
@[simp] theorem disconnectActions_inbox (byTransport : Bool) (s : State) : (disconnectActions byTransport s).inbox = s.inbox := rfl
@[simp] theorem disconnectActions_out (byTransport : Bool) (s : State) : (disconnectActions byTransport s).out = s.out ++ (if byTransport then [Msg.tpClose] else []) := rfl

/-! ### resetOp and offer -/

@[simp] theorem resetOp_crc (s : State) : (resetOp s).crc = State.reset.crc := rfl
@[simp] theorem resetOp_req (s : State) : (resetOp s).req = State.reset.req := rfl
@[simp] theorem resetOp_tx (s : State) : (resetOp s).tx = State.reset.tx := rfl
@[simp] theorem resetOp_txLen (s : State) : (resetOp s).txLen = State.reset.txLen := rfl
@[simp] theorem resetOp_rx (s : State) : (resetOp s).rx = State.reset.rx := rfl
@[simp] theorem resetOp_rxLen (s : State) : (resetOp s).rxLen = State.reset.rxLen := rfl
@[simp] theorem resetOp_rxOvf (s : State) : (resetOp s).rxOvf = State.reset.rxOvf := rfl
@[simp] theorem resetOp_fsm (s : State) : (resetOp s).fsm = State.reset.fsm := rfl
@[simp] theorem resetOp_cfgTimeout (s : State) : (resetOp s).cfgTimeout = State.reset.cfgTimeout := rfl
@[simp] theorem resetOp_cfgQuiet (s : State) : (resetOp s).cfgQuiet = State.reset.cfgQuiet := rfl
@[simp] theorem resetOp_cfgRetry (s : State) : (resetOp s).cfgRetry = State.reset.cfgRetry := rfl
@[simp] theorem resetOp_seqNext (s : State) : (resetOp s).seqNext = State.reset.seqNext := rfl
@[simp] theorem resetOp_curSeq (s : State) : (resetOp s).curSeq = State.reset.curSeq := rfl
@[simp] theorem resetOp_retriesLeft (s : State) : (resetOp s).retriesLeft = State.reset.retriesLeft := rfl
@[simp] theorem resetOp_attempts (s : State) : (resetOp s).attempts = State.reset.attempts := rfl
@[simp] theorem resetOp_lastError (s : State) : (resetOp s).lastError = State.reset.lastError := rfl
@[simp] theorem resetOp_tStart (s : State) : (resetOp s).tStart = State.reset.tStart := rfl
@[simp] theorem resetOp_deadline (s : State) : (resetOp s).deadline = State.reset.deadline := rfl
@[simp] theorem resetOp_tLastRx (s : State) : (resetOp s).tLastRx = State.reset.tLastRx := rfl
@[simp] theorem resetOp_timeoutL (s : State) : (resetOp s).timeoutL = State.reset.timeoutL := rfl
@[simp] theorem resetOp_quietL (s : State) : (resetOp s).quietL = State.reset.quietL := rfl
@[simp] theorem resetOp_store (s : State) : (resetOp s).store = State.reset.store := rfl
@[simp] theorem resetOp_history (s : State) : (resetOp s).history = State.reset.history := rfl
@[simp] theorem resetOp_inbox (s : State) : (resetOp s).inbox = s.inbox := rfl
@[simp] theorem resetOp_out (s : State) : (resetOp s).out = s.out := rfl

@[simp] theorem offer_inbox (p : List Byte) (s : State) : (offer p s).inbox = .packet p :: s.inbox := rfl

/-- `offer` changes the inbox alone. -/
theorem offer_eq (p : List Byte) (s : State) : offer p s = { s with inbox := .packet p :: s.inbox } := rfl

end Sys2Proof.Machine
end

