-- ==== Sys2Proof/Laws/Store.lean ====
section
/-! SUPPORT. The laws of the register store: read after write, the canonical form, and a run of entries (45_register_store.md R180 to R182). -/

namespace Sys2Proof.Machine.Store

@[simp] theorem get_nil (a : Nat) : get [] a = none := rfl

/-- A read after a write to the same address gives the entry written. -/
@[simp] theorem get_put_same (st : Store) (a : Nat) (e : Entry) : get (put st a e) a = some e := by
  induction st with
  | nil => simp [put, get]
  | cons c st ih =>
    obtain ⟨k, x⟩ := c
    simp only [put]
    split
    · simp [get]
    · split
      · simp [get]
      · rename_i hne
        simp only [get, if_neg (Ne.symm hne), ih]

/-- A write leaves every other address alone. -/
@[simp] theorem get_put_ne (st : Store) {a b : Nat} (e : Entry) (h : a ≠ b) : get (put st a e) b = get st b := by
  induction st with
  | nil => simp [put, get, h]
  | cons c st ih =>
    obtain ⟨k, x⟩ := c
    simp only [put]
    split
    · simp [get, h]
    · split
      · rename_i hk
        subst hk
        simp [get, h]
      · simp only [get, ih]

/-- What a write leaves listed: the old entries and the new one. -/
theorem mem_put {st : Store} {a : Nat} {e : Entry} {c : Nat × Entry} (h : c ∈ put st a e) : c ∈ st ∨ c = (a, e) := by
  induction st with
  | nil => simpa [put] using h
  | cons d st ih =>
    obtain ⟨k, x⟩ := d
    simp only [put] at h
    split at h
    · rcases List.mem_cons.1 h with h | h
      · exact .inr h
      · exact .inl h
    · split at h
      · rcases List.mem_cons.1 h with h | h
        · exact .inr h
        · exact .inl (List.mem_cons_of_mem _ h)
      · rcases List.mem_cons.1 h with h | h
        · exact .inl (h ▸ List.mem_cons_self ..)
        · rcases ih h with h | h
          · exact .inl (List.mem_cons_of_mem _ h)
          · exact .inr h

theorem put_rises {st : Store} (h : (st.map Prod.fst).Pairwise (· < ·)) (a : Nat) (e : Entry) :
    ((put st a e).map Prod.fst).Pairwise (· < ·) := by
  induction st with
  | nil => simp [put]
  | cons c st ih =>
    obtain ⟨k, x⟩ := c
    have hc := List.pairwise_cons.1 h
    simp only [put]
    split
    · rename_i hlt
      refine List.pairwise_cons.2 ⟨?_, h⟩
      intro b hb
      rcases List.mem_cons.1 hb with rfl | hb
      · exact hlt
      · exact Nat.lt_trans hlt (hc.1 b hb)
    · split
      · rename_i hak
        subst hak
        exact List.pairwise_cons.2 hc
      · refine List.pairwise_cons.2 ⟨?_, ih hc.2⟩
        intro b hb
        obtain ⟨d, hd, rfl⟩ := List.mem_map.1 hb
        rcases mem_put hd with hd | rfl
        · exact hc.1 _ (List.mem_map.2 ⟨d, hd, rfl⟩)
        · show k < a
          omega

/-- A write at a 16-bit address keeps the canonical form. -/
theorem put_wf {st : Store} (h : Wf st) {a : Nat} (ha : a < 65536) (e : Entry) : Wf (put st a e) :=
  ⟨put_rises h.1 a e, fun c hc => by
    rcases mem_put hc with hc | rfl
    · exact h.2 c hc
    · exact ha⟩

theorem putWords_wf {st : Store} (h : Wf st) (addr : Word) (vs : List Word) (now : Nat) :
    Wf (putWords st addr vs now) := by
  induction vs generalizing st addr with
  | nil => exact h
  | cons v vs ih => exact ih (put_wf h addr.isLt _) (addr + 1#16)

/-- The store update keeps the canonical form. -/
theorem update_wf {st : Store} (h : Wf st) (addr : Word) (vs : Values) (now : Nat) : Wf (update st addr vs now) :=
  putWords_wf h addr (valueWords vs) now

theorem empty_wf : Wf ([] : Store) := by decide

/-- An address that is none of the run's keys keeps its entry. -/
theorem get_putWords_outside {st : Store} {addr : Word} {vs : List Word} {now a : Nat}
    (h : ∀ i, i < vs.length → (addr + BitVec.ofNat 16 i).toNat ≠ a) :
    get (putWords st addr vs now) a = get st a := by
  induction vs generalizing st addr with
  | nil => rfl
  | cons v vs ih =>
    simp only [putWords]
    rw [ih, get_put_ne]
    · simpa using h 0 (by simp)
    · intro i hi
      have := h (i + 1) (by simpa using hi)
      rw [show addr + 1#16 + BitVec.ofNat 16 i = addr + BitVec.ofNat 16 (i + 1) by
        rw [BitVec.add_assoc, ← BitVec.ofNat_add, Nat.add_comm]]
      exact this

theorem toNat_add_ofNat (a : Word) (i : Nat) : (a + BitVec.ofNat 16 i).toNat = (a.toNat + i) % 65536 := by
  rw [BitVec.toNat_add, BitVec.toNat_ofNat]
  omega

/-- The `i`-th key of a run that does not wrap onto itself holds the `i`-th value. -/
theorem get_putWords_inside {st : Store} {addr : Word} {vs : List Word} {now i : Nat} (hl : vs.length ≤ 65536)
    (h : i < vs.length) : get (putWords st addr vs now) ((addr.toNat + i) % 65536) = some ⟨vs[i], now⟩ := by
  induction vs generalizing st addr i with
  | nil => simp at h
  | cons v vs ih =>
    simp only [putWords]
    simp only [List.length_cons] at hl h
    cases i with
    | zero =>
      have ha := addr.isLt
      rw [get_putWords_outside, show (addr.toNat + 0) % 65536 = addr.toNat by omega, get_put_same]
      · rfl
      · intro j hj
        rw [toNat_add_ofNat, BitVec.toNat_add]
        simp
        omega
    | succ i =>
      have := ih (st := put st addr.toNat ⟨v, now⟩) (addr := addr + 1#16) (i := i) (by omega) (by omega)
      rw [show ((addr + 1#16).toNat + i) % 65536 = (addr.toNat + (i + 1)) % 65536 by
        rw [BitVec.toNat_add]
        simp
        omega] at this
      rw [this]
      rfl

end Sys2Proof.Machine.Store
end

