-- ==== Sys2Proof/Laws/Sequencer.lean ====
section
/-! SUPPORT. What each shared operation of the sequencer can do, said once: the branches of DISPATCH, of AttemptFail and
of EvalWait, the closed form of a received chunk, and the frame Encode leaves in `TX`. -/

namespace Sys2Proof.Machine

/-! ### Encode -/

theorem coilBytes_le {q n : Nat} (h : q ≤ 8 * n) : coilBytes q ≤ n := by unfold coilBytes; omega

/-- A request that passes the check fits `TX` (41_encode.md R110). -/
theorem frame_length_le {cmd : Command} (h : paramsPass cmd = true) : (Command.frame cmd).length ≤ 256 := by
  cases cmd with
  | raw bs =>
    have : bs.length ≤ 254 := of_decide_eq_true h
    simp [Command.frame, Command.body]
    omega
  | structured fc slave addr fields =>
    simp only [paramsPass, Bool.and_eq_true] at h
    have h := h.2
    simp only [Command.frame, Command.body, requestBytes, appendCrc_length, List.length_cons]
    unfold fieldsOk at h
    split at h <;> simp only [Fields.tail, List.length_cons, List.length_nil, wordsToBytes_length] <;>
      try omega
    · have h := of_decide_eq_true h
      have := coilBytes_le (n := 246) h.2.1
      omega
    · have h := of_decide_eq_true h
      have h2 := Nat.le_trans h.2.1 (show Config.wrRegsMax ≤ 123 from Nat.le_refl _)
      omega
    · simp at h

/-- After `Encode`, `TX[0..tx_len-1]` is the frame. -/
theorem txBytes_encodeOp {cmd : Command} {s : State} (h : paramsPass cmd = true) (hs : Memory.Wf 256 s.tx) :
    txBytes (encodeOp cmd s) = Command.frame cmd :=
  Memory.readBytes_writeBytes hs (by simpa using frame_length_le h)

/-! ### DISPATCH -/

theorem dispatchOp_invalid {cmd : Command} (h : paramsPass cmd = false) (timeout : Option Nat) (now : Nat) (s : State) :
    dispatchOp cmd timeout now s = answerAtOnce .invalidParameter s := by
  simp [dispatchOp, h]

theorem dispatchOp_busy {cmd : Command} {s : State} (h : paramsPass cmd = true) (hb : s.fsm ≠ .idle)
    (timeout : Option Nat) (now : Nat) : dispatchOp cmd timeout now s = answerAtOnce .busy s := by
  simp [dispatchOp, h, busy, hb]

theorem dispatchOp_idle {cmd : Command} {s : State} (h : paramsPass cmd = true) (hi : s.fsm = .idle)
    (timeout : Option Nat) (now : Nat) :
    dispatchOp cmd timeout now s = startAttemptOp now (beginTransaction timeout now (encodeOp cmd s)) := by
  simp [dispatchOp, h, busy, hi]

/-- The three ways a DISPATCH goes. -/
theorem dispatchOp_cases (cmd : Command) (timeout : Option Nat) (now : Nat) (s : State) :
    (paramsPass cmd = false ∧ dispatchOp cmd timeout now s = answerAtOnce .invalidParameter s) ∨
    (paramsPass cmd = true ∧ s.fsm ≠ .idle ∧ dispatchOp cmd timeout now s = answerAtOnce .busy s) ∨
    (paramsPass cmd = true ∧ s.fsm = .idle ∧
      dispatchOp cmd timeout now s = startAttemptOp now (beginTransaction timeout now (encodeOp cmd s))) := by
  by_cases h : paramsPass cmd = true
  · by_cases hi : s.fsm = .idle
    · exact .inr (.inr ⟨h, hi, dispatchOp_idle h hi timeout now⟩)
    · exact .inr (.inl ⟨h, hi, dispatchOp_busy h hi timeout now⟩)
  · exact .inl ⟨by simpa using h, dispatchOp_invalid (by simpa using h) timeout now s⟩

/-! ### AttemptFail and EvalWait -/

/-- What a retry makes of the state (44_sequencer.md R159). -/
def retryOp (now : Nat) (s : State) : State :=
  startAttemptOp now { s with retriesLeft := s.retriesLeft - 1, attempts := s.attempts + 1 }

/-- The three ways an attempt fails: retried, closed, closed after the disconnect actions. -/
theorem attemptFailOp_cases (cls : AttemptClass) (sev : Severity) (now : Nat) (s : State) :
    (sev = .nonfatal ∧ 0 < s.retriesLeft ∧ attemptFailOp cls sev now s = retryOp now s) ∨
    (sev = .nonfatal ∧ s.retriesLeft = 0 ∧
      attemptFailOp cls sev now s = closeOp (.failure (AttemptClass.failure cls)) now s) ∨
    (sev ≠ .nonfatal ∧ attemptFailOp cls sev now s =
      closeOp (.failure (AttemptClass.failure cls)) now (disconnectActions (decide (sev = .fatalTransport)) s)) := by
  cases sev with
  | nonfatal =>
    by_cases h : 0 < s.retriesLeft
    · exact .inl ⟨rfl, h, by simp [attemptFailOp, h, retryOp]⟩
    · exact .inr (.inl ⟨rfl, by omega, by simp [attemptFailOp, h]⟩)
  | fatalTransport => exact .inr (.inr ⟨by decide, rfl⟩)
  | fatalHost => exact .inr (.inr ⟨by decide, rfl⟩)

/-- The three ways a wait is tested (R156). -/
theorem evalWaitOp_cases (now : Nat) (s : State) :
    (frameComplete s now = true ∧ evalWaitOp now s = { s with fsm := .validating }) ∨
    (frameComplete s now = false ∧ s.deadline ≤ now ∧ evalWaitOp now s = attemptFailOp .timedOut .nonfatal now s) ∨
    (frameComplete s now = false ∧ now < s.deadline ∧ evalWaitOp now s = s) := by
  by_cases hc : frameComplete s now = true
  · exact .inl ⟨hc, by simp [evalWaitOp, hc]⟩
  · have hc : frameComplete s now = false := by simpa using hc
    by_cases hd : s.deadline ≤ now
    · exact .inr (.inl ⟨hc, hd, by simp [evalWaitOp, hc, deadlineHit, hd]⟩)
    · exact .inr (.inr ⟨hc, by omega, by simp [evalWaitOp, hc, deadlineHit, hd]⟩)

/-- A complete frame has at least `MIN_REPLY` bytes. -/
theorem minReply_le_of_frameComplete {s : State} {now : Nat} (h : frameComplete s now = true) : 5 ≤ s.rxLen := by
  simp only [frameComplete, Bool.and_eq_true, decide_eq_true_eq] at h
  exact h.1

/-! ### RX -/

/-- A chunk in closed form: what fits is written at `rx_len`, the rest sets the flag (R157). -/
theorem foldl_rxByte (bs : List Byte) (s : State) (h : s.rxLen ≤ 256) :
    bs.foldl rxByte s =
      { s with
        rx := Memory.writeBytes s.rx s.rxLen (bs.take (256 - s.rxLen))
        rxLen := min 256 (s.rxLen + bs.length)
        rxOvf := s.rxOvf || decide (256 < s.rxLen + bs.length) } := by
  induction bs generalizing s with
  | nil => simp [Nat.min_eq_right h, Nat.not_lt.2 h]
  | cons b bs ih =>
    rw [List.foldl_cons]
    by_cases hlt : s.rxLen < 256
    · have hb : rxByte s b = { s with rx := Memory.write s.rx s.rxLen b, rxLen := s.rxLen + 1 } := by
        simp [rxByte, Config.rxBuf, hlt]
      rw [hb, ih _ (by show s.rxLen + 1 ≤ 256; omega)]
      have ht : (b :: bs).take (256 - s.rxLen) = b :: bs.take (256 - (s.rxLen + 1)) := by
        rw [show 256 - s.rxLen = (256 - (s.rxLen + 1)) + 1 by omega, List.take_succ_cons]
      simp only [ht, Memory.writeBytes, List.length_cons, show s.rxLen + 1 + bs.length = s.rxLen + (bs.length + 1) by omega]
    · have he : s.rxLen = 256 := by omega
      have hb : rxByte s b = { s with rxOvf := true } := by simp [rxByte, Config.rxBuf, hlt]
      rw [hb, ih _ (by show s.rxLen ≤ 256; exact h)]
      simp [he, show 256 < 256 + (bs.length + 1) by omega]

/-! ### Steps -/

theorem step_nil {s : State} (h : s.inbox = []) : step s = .next s := by simp [step, h]

theorem step_reset {s : State} {rest : List Input} (h : s.inbox = .reset :: rest) :
    step s = .next (resetOp { s with inbox := rest }) := by simp [step, h]

theorem step_packet {s : State} {p : List Byte} {rest : List Input} {i : Instr} (h : s.inbox = .packet p :: rest)
    (hd : decode p = .ok i) : step s = exec i { s with inbox := rest } := by simp [step, h, hd]

theorem step_reject {s : State} {p : List Byte} {rest : List Input} {r : Reject} (h : s.inbox = .packet p :: rest)
    (hd : decode p = .error r) : step s = onReject r { s with inbox := rest } := by simp [step, h, hd]

/-- The ways a step answers a next state. -/
theorem step_cases {s s' : State} (h : step s = .next s') :
    (s.inbox = [] ∧ s' = s) ∨
    (∃ rest, s.inbox = .reset :: rest ∧ s' = resetOp { s with inbox := rest }) ∨
    (∃ p rest i, s.inbox = .packet p :: rest ∧ decode p = .ok i ∧ exec i { s with inbox := rest } = .next s') ∨
    (∃ p rest r, s.inbox = .packet p :: rest ∧ decode p = .error r ∧ onReject r { s with inbox := rest } = .next s') := by
  unfold step at h
  split at h
  · rename_i hi
    exact .inl ⟨hi, by injection h with h; exact h.symm⟩
  · rename_i rest hi
    exact .inr (.inl ⟨rest, hi, by injection h with h; exact h.symm⟩)
  · rename_i p rest hi
    split at h
    · rename_i i hd
      exact .inr (.inr (.inl ⟨p, rest, i, hi, hd, h⟩))
    · rename_i r hd
      exact .inr (.inr (.inr ⟨p, rest, r, hi, hd, h⟩))

/-- A rejected packet that does not stop the run: ignored, or answered with InvalidParameter. -/
theorem onReject_cases {r : Reject} {s s' : State} (h : onReject r s = .next s') :
    s' = s ∨ s' = answerAtOnce .invalidParameter s := by
  cases r <;> simp only [onReject, Host.Outcome.next.injEq, reduceCtorEq] at h
  · exact .inl h.symm
  · exact .inr h.symm

/-! ### What an event can do -/

/-- The ways an event of the block changes the state, the state it starts from first. -/
inductive EventEffect (s : State) : Instr → State → Prop
  | ignored (i : Instr) : EventEffect s i s
  | read (i : Instr) (m : Msg) (ho : ∀ o, m ≠ .outcome o) (hw : ∀ b, m ≠ .tpWrite b) : EventEffect s i (emit m s)
  | configured (i : Instr) (timeout quiet retry : Nat) :
      EventEffect s i { s with cfgTimeout := timeout, cfgQuiet := quiet, cfgRetry := retry }
  | dispatched (i : Instr) (cmd : Command) (timeout : Option Nat) (now : Nat) (ht : i.eventTime = some now) :
      EventEffect s i (dispatchOp cmd timeout now s)
  | cancelled (now : Nat) (hf : s.fsm = .awaitingResponse) :
      EventEffect s (.cancel now) (closeOp (.failure .cancelled) now s)
  | written (n now : Nat) (hf : s.fsm = .sending) :
      EventEffect s (.writeResult (.ok n) now) { s with fsm := .awaitingResponse }
  | failed (i : Instr) (reason : Text) (sev : Severity) (now : Nat) (ht : i.eventTime = some now)
      (hf : Fsm.active s.fsm = true)
      (hi : sev ≠ .nonfatal → i = .disconnect now ∨ ∃ r, i = .tpFault r true now) :
      EventEffect s i (attemptFailOp (.transportError reason) sev now s)
  | disconnected (i : Instr) (byTransport : Bool) (now : Nat) (hf : s.fsm = .idle)
      (hi : i = .disconnect now ∨ ∃ r, i = .tpFault r true now) : EventEffect s i (disconnectActions byTransport s)
  | received (bytes : List Byte) (now : Nat) (hb : bytes ≠ []) (hf : s.fsm = .awaitingResponse) :
      EventEffect s (.rx bytes now) (evalWaitOp now { bytes.foldl rxByte s with tLastRx := some now })
  | waited (i : Instr) (now : Nat) (ht : i.eventTime = some now) (hf : s.fsm = .awaitingResponse) :
      EventEffect s i (evalWaitOp now s)
  | validated (now : Nat) (hf : s.fsm = .validating) : EventEffect s (.validate now) (validateOp now s)

/-- Every event has one of these effects. -/
theorem event_effect {i : Instr} {s s' : State} (hi : i.isEvent = true) (h : exec i s = .next s') :
    EventEffect s i s' := by
  cases i <;> simp only [Instr.isEvent, Bool.false_eq_true] at hi <;> cases h
  case rc => exact .dispatched _ _ _ _ rfl
  case rhr => exact .dispatched _ _ _ _ rfl
  case rir => exact .dispatched _ _ _ _ rfl
  case wsc => exact .dispatched _ _ _ _ rfl
  case wsr => exact .dispatched _ _ _ _ rfl
  case wmc => exact .dispatched _ _ _ _ rfl
  case wmr => exact .dispatched _ _ _ _ rfl
  case raw => exact .dispatched _ _ _ _ rfl
  case dispatch => exact .dispatched _ _ _ _ rfl
  case dispatchRaw => exact .dispatched _ _ _ _ rfl
  case cancel =>
    split
    · exact .cancelled _ ‹_›
    · exact .ignored _
  case getRegister => exact .read _ _ (fun _ => by simp) (fun _ => by simp)
  case readHistory => exact .read _ _ (fun _ => by simp) (fun _ => by simp)
  case readLastError => exact .read _ _ (fun _ => by simp) (fun _ => by simp)
  case cfgWrite =>
    split
    · exact .configured _ _ _ _
    · split
      · exact .configured _ _ _ _
      · split
        · exact .configured _ _ _ _
        · exact .ignored _
  case connect => exact .ignored _
  case disconnect =>
    split
    · exact .failed _ _ _ _ rfl ‹_› (fun _ => .inl rfl)
    · split
      · exact .disconnected _ _ _ ‹_› (.inl rfl)
      · exact .ignored _
  case writeResult res now =>
    split
    · rename_i hf
      have ha : Fsm.active s.fsm = true := by rw [hf]; rfl
      cases res with
      | ok n =>
        dsimp only
        split
        · exact .failed _ _ _ _ rfl ha (fun h => absurd rfl h)
        · exact .written _ _ hf
      | err r => exact .failed _ _ _ _ rfl ha (fun h => absurd rfl h)
    · exact .ignored _
  case rx bytes now =>
    split
    · rename_i hf
      unfold receiveOp
      split
      · exact .waited _ _ rfl hf
      · exact .received _ _ ‹_› hf
    · exact .ignored _
  case tick =>
    split
    · exact .waited _ _ rfl ‹_›
    · exact .ignored _
  case tpFault r fatal now =>
    split
    · refine .failed _ _ _ _ rfl ‹_› (fun h => .inr ⟨r, ?_⟩)
      cases fatal
      · exact absurd rfl h
      · rfl
    · split
      · rename_i h
        exact .disconnected _ _ now h.1 (.inr ⟨r, by rw [h.2]⟩)
      · exact .ignored _
  case validate =>
    split
    · exact .validated _ ‹_›
    · exact .ignored _

end Sys2Proof.Machine
end

