-- ==== Sys2Proof/Tests/Slice0.lean ====
section
/-! SUPPORT. The model's own tests: well-formedness, decoding, one step at a time, and for every statement of
Certificates/Slice0/Obligations.lean that has hypotheses a witness that meets them. Expected results are those of
95_test_vectors.md (V and P numbers) or are worked by hand from the rule cited. -/

namespace Sys2Proof.Tests

open Sys2Proof.Machine Sys2Proof.Safety

set_option Elab.async false

/-! ### Helpers -/

/-- Bytes from numerals. -/
def hx (ns : List Nat) : List Byte := ns.map (BitVec.ofNat 8)

/-- A field of the next state, none after a stop. -/
def after {α : Type} (o : Host.Outcome State Fault Refusal) (f : State → α) : Option α :=
  match o with
  | .next t => some (f t)
  | .fault _ => none
  | .refused _ => none

/-- What an instruction decodes to, none when refused. -/
def decoded (ns : List Nat) : Option Instr :=
  match decode (hx ns) with
  | .ok i => some i
  | .error _ => none

/-- Why a packet is refused. -/
def rejected (ns : List Nat) : Option Reject :=
  match decode (hx ns) with
  | .ok _ => none
  | .error r => some r

/-- V1's request frame, 01 03 00 00 00 02 C4 0B. -/
def frameV1 : List Byte := hx [0x01, 0x03, 0x00, 0x00, 0x00, 0x02, 0xC4, 0x0B]

/-- V2's reply, 01 03 04 00 11 00 22 2A 2F. -/
def replyV2 : List Byte := hx [0x01, 0x03, 0x04, 0x00, 0x11, 0x00, 0x22, 0x2A, 0x2F]

/-- V4's exception reply, 01 83 02 C0 F1. -/
def replyV4 : List Byte := hx [0x01, 0x83, 0x02, 0xC0, 0xF1]

/-- V1's request in flight, in the active state named (V170). -/
def flying (f : Fsm) : State :=
  { State.reset with
    fsm := f
    req := ⟨.rhr, 0x01#8, 0x03#8, 0x0000#16, 0x0002#16⟩
    tx := Memory.writeBytes [] 0 frameV1
    txLen := 8
    seqNext := 1
    attempts := 1
    deadline := 1000
    timeoutL := 1000
    quietL := 4 }

/-- With these bytes received, the last chunk at time `t`. -/
def heard (bytes : List Byte) (t : Nat) (s : State) : State :=
  { s with rx := Memory.writeBytes [] 0 bytes, rxLen := bytes.length, tLastRx := some t }

/-! ### WellFormed: a term for each check that it refuses, and terms it passes -/

theorem test_wellFormed_rcReply : WellFormed (.rcReply replyV4) = false := by decide
theorem test_wellFormed_rhrReply : WellFormed (.rhrReply replyV4) = false := by decide
theorem test_wellFormed_rirReply : WellFormed (.rirReply replyV4) = false := by decide
theorem test_wellFormed_wscReply : WellFormed (.wscReply replyV4) = false := by decide
theorem test_wellFormed_wsrReply : WellFormed (.wsrReply replyV4) = false := by decide
theorem test_wellFormed_wmcReply : WellFormed (.wmcReply replyV4) = false := by decide
theorem test_wellFormed_wmrReply : WellFormed (.wmrReply replyV4) = false := by decide
theorem test_wellFormed_excReply_raw : WellFormed (.excReply .raw replyV4) = false := by decide
theorem test_wellFormed_excReply_bit : WellFormed (.excReply .rhr replyV2) = false := by decide
theorem test_wellFormed_wmc : WellFormed (.wmc 1#8 0#16 1968#16 (List.replicate 256 0#8) none 0) = false := by
  decide +kernel
theorem test_wellFormed_wmr : WellFormed (.wmr 1#8 0#16 128#16 (List.replicate 128 0#16) none 0) = false := by
  decide +kernel
theorem test_wellFormed_rx : WellFormed (.rx [] 0) = false := by decide
theorem test_wellFormed_passes :
    WellFormed (.rhrReply replyV2) = true ∧ WellFormed (.excReply .rhr replyV4) = true ∧
    WellFormed (.rawReply replyV4) = true ∧ WellFormed (.rx [0#8] 0) = true ∧
    WellFormed (.rc 0#8 0#16 0#16 none 0) = true := by decide

/-! ### Decoding: words written out from the spec's encodings. Op 0x40 is a request frame, 0x50 to 0x57 a reply to
the kind of that number (log entry 3); the frames are those of 95_test_vectors.md. -/

/-- V50, V54, V61: slave, function, address and quantity, high bytes first (41_encode.md R102 to R104). -/
theorem test_decode_reads :
    decoded [0x40, 0, 0, 0x01, 0x01, 0x00, 0x13, 0x00, 0x25] = some (.rc 1#8 0x13#16 37#16 none 0) ∧
    decoded [0x40, 9, 0, 0x01, 0x03, 0x00, 0x00, 0x00, 0x02] = some (.rhr 1#8 0#16 2#16 none 9) ∧
    decoded [0x40, 0xAC, 2, 1, 100, 0x01, 0x04, 0x00, 0x08, 0x00, 0x01] = some (.rir 1#8 8#16 1#16 (some 100) 300) :=
  ⟨rfl, rfl, rfl⟩

/-- V63, V64, V68 (R105, R106). -/
theorem test_decode_single_writes :
    decoded [0x40, 0, 0, 0x01, 0x05, 0x00, 0xAC, 0xFF, 0x00] = some (.wsc 1#8 0xAC#16 true none 0) ∧
    decoded [0x40, 0, 0, 0x01, 0x05, 0x00, 0xAC, 0x00, 0x00] = some (.wsc 1#8 0xAC#16 false none 0) ∧
    decoded [0x40, 0, 0, 0x01, 0x06, 0x12, 0x34, 0xAB, 0xCD] = some (.wsr 1#8 0x1234#16 0xABCD#16 none 0) :=
  ⟨rfl, rfl, rfl⟩

/-- V69, V75, V80 (R107 to R109). -/
theorem test_decode_multiple_writes_and_raw :
    decoded [0x40, 0, 0, 0x01, 0x0F, 0x00, 0x13, 0x00, 0x0A, 0x02, 0xCD, 0x01] =
      some (.wmc 1#8 0x13#16 10#16 [0xCD#8, 0x01#8] none 0) ∧
    decoded [0x40, 0, 0, 0x01, 0x10, 0x00, 0x01, 0x00, 0x02, 0x04, 0x00, 0x0A, 0x01, 0x02] =
      some (.wmr 1#8 1#16 2#16 [0x000A#16, 0x0102#16] none 0) ∧
    decoded [0x41, 0, 0, 0x01, 0x07] = some (.raw [0x01#8, 0x07#8] none 0) :=
  ⟨rfl, rfl, rfl⟩

/-- A reply stands under its originating kind, bit 7 of byte 1 first (30_encoding.md R71; V100, V104, V125, V161). -/
theorem test_decode_replies :
    decoded [0x50, 0x01, 0x01, 0x02, 0xCD, 0x01, 0x2C, 0xAC] =
      some (.rcReply (hx [0x01, 0x01, 0x02, 0xCD, 0x01, 0x2C, 0xAC])) ∧
    decoded [0x51, 0x01, 0x03, 0x04, 0x00, 0x11, 0x00, 0x22, 0x2A, 0x2F] = some (.rhrReply replyV2) ∧
    decoded [0x52, 0x01, 0x04, 0x02, 0x00, 0x0A, 0x39, 0x37] =
      some (.rirReply (hx [0x01, 0x04, 0x02, 0x00, 0x0A, 0x39, 0x37])) ∧
    decoded [0x51, 0x01, 0x83, 0x02, 0xC0, 0xF1] = some (.excReply .rhr replyV4) ∧
    decoded [0x57, 0x01, 0x87, 0x01, 0x82, 0x30] = some (.rawReply (hx [0x01, 0x87, 0x01, 0x82, 0x30])) :=
  ⟨rfl, rfl, rfl, rfl, rfl⟩

/-- V145, V135, V150, V154 (R124 to R127). -/
theorem test_decode_echo_replies :
    decoded [0x53, 0x01, 0x05, 0x00, 0xAC, 0xFF, 0x00, 0x4C, 0x1B] =
      some (.wscReply (hx [0x01, 0x05, 0x00, 0xAC, 0xFF, 0x00, 0x4C, 0x1B])) ∧
    decoded [0x54, 0x01, 0x06, 0x00, 0x01, 0x00, 0x03, 0x98, 0x0B] =
      some (.wsrReply (hx [0x01, 0x06, 0x00, 0x01, 0x00, 0x03, 0x98, 0x0B])) ∧
    decoded [0x55, 0x01, 0x0F, 0x00, 0x13, 0x00, 0x0A, 0x24, 0x09] =
      some (.wmcReply (hx [0x01, 0x0F, 0x00, 0x13, 0x00, 0x0A, 0x24, 0x09])) ∧
    decoded [0x56, 0x01, 0x10, 0x00, 0x01, 0x00, 0x02, 0x10, 0x08] =
      some (.wmrReply (hx [0x01, 0x10, 0x00, 0x01, 0x00, 0x02, 0x10, 0x08])) :=
  ⟨rfl, rfl, rfl, rfl⟩

/-- The nine op numbers (30_encoding.md R81). -/
theorem test_decode_host_operations :
    decoded [0, 5, 0, 0x03, 0x01, 0x00, 0x6B, 0, 0x00, 0x03] = some (.dispatch 3#8 1#8 0x6B#16 (.qty 3#16) none 5) ∧
    decoded [1, 5, 0, 0x01, 0x07] = some (.dispatchRaw [0x01#8, 0x07#8] none 5) ∧
    decoded [2, 30] = some (.cancel 30) ∧
    decoded [3, 18, 0x01, 0x02] = some (.getRegister 0x0102#16 18) ∧
    decoded [4, 7] = some (.readHistory 7) ∧
    decoded [5, 7] = some (.readLastError 7) ∧
    decoded [6, 7, 1, 0x41, 0xD0, 0x0F] = some (.cfgWrite [0x41#8] 2000 7) ∧
    decoded [7, 7, 1, 0x43, 0x80, 0x4B] = some (.connect [0x43#8] 9600 7) ∧
    decoded [8, 7] = some (.disconnect 7) :=
  ⟨rfl, rfl, rfl, rfl, rfl, rfl, rfl, rfl, rfl⟩

/-- The events (the op numbers are log entry 3's). -/
theorem test_decode_events :
    decoded [0x10, 1, 0, 8] = some (.writeResult (.ok 8) 1) ∧
    decoded [0x11, 12, 0x01, 0x03, 0x04] = some (.rx [0x01#8, 0x03#8, 0x04#8] 12) ∧
    decoded [0x12, 16] = some (.tick 16) ∧
    decoded [0x13, 15, 1, 0x78] = some (.tpFault [0x78#8] true 15) ∧
    decoded [0x14, 17] = some (.validate 17) :=
  ⟨rfl, rfl, rfl, rfl, rfl⟩

/-- The CRC and frame procedures (op numbers and operand layout are log entry 3's). -/
theorem test_decode_crc_and_frame_procedures :
    decoded [0x20] = some .crcInit ∧
    decoded [0x21, 0x01] = some (.crcByte 1#8) ∧
    decoded [0x22, 0x31, 0x32] = some (.crc16 [0x31#8, 0x32#8]) ∧
    decoded [0x23, 1] = some (.crcBit true) ∧
    decoded [0x24, 0x01] = some (.appendCrc [1#8]) ∧
    decoded [0x25, 0xFF, 0xFF] = some (.verify [0xFF#8, 0xFF#8]) ∧
    decoded [0x26, 1, 2, 0x01, 0x07] = some (.checkParams (.raw [0x01#8, 0x07#8])) ∧
    decoded [0x27, 0, 0x06, 0x01, 0x00, 0x01, 2, 0x00, 0x03] =
      some (.encodeFrame (.structured 6#8 1#8 1#16 (.value 3#16))) ∧
    decoded [0x28, 1, 1, 0x01] = some (.decodeReply [1#8] true .rhr) ∧
    decoded [0x29, 2, 1, 6, 0, 1, 0, 3, 4, 1, 6, 0, 1, 0, 3] =
      some (.validateReply (.echo 1#8 6#8 1#16 3#16) ⟨.wsr, 1#8, 6#8, 1#16, 3#16⟩) :=
  ⟨rfl, rfl, rfl, rfl, rfl, rfl, rfl, rfl, rfl, rfl⟩

/-- The sequencer procedures; a TransportError carries class code 4 (60_exceptions.md R191). -/
theorem test_decode_sequencer_procedures :
    decoded [0x2A, 9] = some (.startAttempt 9) ∧
    decoded [0x2B, 9] = some (.evalWait 9) ∧
    decoded [0x2C, 9, 2, 4, 1, 0x78] = some (.attemptFail (.transportError [0x78#8]) .fatalHost 9) ∧
    decoded [0x2D, 9, 1, 2, 4] = some (.close (.failure (.malformedResponse .echo)) 9) ∧
    decoded [0x2E, 9, 0xFF, 0xFF, 1, 2, 1, 0] = some (.storeUpdate 0xFFFF#16 (.coils [true, false]) 9) :=
  ⟨rfl, rfl, rfl, rfl, rfl⟩

/-- Rejection by name: a reserved function (R72), an unused op number (R81), a value word that is no coil (R68), a byte
count that does not fit the data (R66), a time with a leading zero digit. -/
theorem test_decode_rejects :
    rejected [0x40, 0, 0, 0x01, 0x02, 0x00, 0x00, 0x00, 0x01] = some (.reservedFunction 2#8) ∧
    rejected [9, 0] = some (.unusedOp 9) ∧ rejected [15] = some (.unusedOp 15) ∧ rejected [16 + 5] = some (.unknownOp 21) ∧
    rejected [0x40, 0, 0, 0x01, 0x05, 0x00, 0xAC, 0x00, 0xFF] = some .badCoilWord ∧
    rejected [0x40, 0, 0, 0x01, 0x0F, 0x00, 0x13, 0x00, 0x0A, 0x02, 0xCD] = some .badByteCount ∧
    rejected [0x12, 0x80, 0x00] = some .nonCanonicalNat ∧ rejected [] = some .emptyPacket ∧
    rejected [0x12] = some .truncated ∧ rejected [0x12, 0, 0] = some .trailing ∧ rejected [0x11, 0] = some .emptyChunk :=
  ⟨rfl, rfl, rfl, rfl, rfl, rfl, rfl, rfl, rfl, rfl, rfl⟩

/-- Table words: slave id in bits 15:8, function code in bits 7:0 (30_encoding.md R74; log entry 4). -/
theorem test_table_words :
    decodeTableWord 16 0x0103 = some (.rhr 1#8 0#16 0#16 none 0) ∧
    decodeTableWord 48 0x002500130101 = some (.rc 1#8 0x13#16 0x25#16 none 0) ∧
    decodeTableWord 16 0x010F = some (.wmc 1#8 0#16 0#16 [] none 0) ∧
    decodeTableWord 16 0x0183 = some (.excReply .rc (hx [0x01, 0x83, 0, 0, 0])) ∧
    decodeTableWord 16 0x0107 = some (.raw (hx [0x01, 0x07]) none 0) :=
  ⟨rfl, rfl, rfl, rfl, rfl⟩

/-- A table word placed at reset is the next instruction run: RHR to slave 1 of quantity 0 is InvalidParameter (V56). -/
theorem test_withFetchWord :
    after (step (State.reset.withFetchWord 16 0x0103)) (fun t => (t.lastError, t.inbox)) =
      some (some .invalidParameter, []) := by decide

/-! ### The CRC engine (V20 to V41) -/

theorem test_crcInit : after (exec .crcInit State.reset) (·.crc) = some 0xFFFF#16 := by decide

/-- V21. -/
theorem test_crcByte : after (exec (.crcByte 0x01#8) { State.reset with crc := 0xFFFF#16 }) (·.crc) = some 0x807E#16 := by
  decide +kernel

/-- V39: table entries. -/
theorem test_crcByte_table :
    [0x00#8, 0x01#8, 0x02#8, 0x03#8, 0x04#8, 0x80#8, 0xFF#8].map (crcByteStep 0#16) =
      [0x0000#16, 0xC0C1#16, 0xC181#16, 0x0140#16, 0xC301#16, 0xA001#16, 0x4040#16] := by decide +kernel

/-- V21's first shift: register 0xFFFF, data bit 1, so the XORed low bit is 0. -/
theorem test_crcBit_one : after (exec (.crcBit true) { State.reset with crc := 0xFFFF#16 }) (·.crc) = some 0x7FFF#16 := by
  decide +kernel

/-- V21's second shift: 0x7FFF with data bit 0 gives 0x3FFF xor 0xA001. -/
theorem test_crcBit_zero : after (exec (.crcBit false) { State.reset with crc := 0x7FFF#16 }) (·.crc) = some 0x9FFE#16 := by
  decide +kernel

/-- V26. -/
theorem test_crc16_check :
    after (exec (.crc16 (hx [0x31, 0x32, 0x33, 0x34, 0x35, 0x36, 0x37, 0x38, 0x39])) State.reset) (fun t => (t.crc, t.out)) =
      some (0x4B37#16, [.crcIs 0x4B37#16]) := by decide +kernel

/-- V27, V28. -/
theorem test_crc16_two_bytes :
    crc16 (hx [0x00, 0x00]) = 0xB001#16 ∧ crc16 (hx [0xFF, 0xFF]) = 0x0000#16 := by decide +kernel

/-- V1, V11. -/
theorem test_appendCrc :
    after (exec (.appendCrc (hx [0x01, 0x03, 0x00, 0x00, 0x00, 0x02])) State.reset) (·.out) = some [.bytesAre frameV1] ∧
    after (exec (.appendCrc []) State.reset) (·.out) = some [.bytesAre (hx [0xFF, 0xFF])] := by decide +kernel

/-- V30, V36, V37. -/
theorem test_verify_accepts :
    after (exec (.verify frameV1) State.reset) (·.out) = some [.verified true] ∧
    after (exec (.verify (hx [0xFF, 0xFF])) State.reset) (·.out) = some [.verified true] ∧
    after (exec (.verify (frameV1 ++ hx [0, 0])) State.reset) (·.out) = some [.verified true] := by decide +kernel

/-- V31 to V35. -/
theorem test_verify_refuses :
    [hx [0x00, 0x03, 0x00, 0x00, 0x00, 0x02, 0xC4, 0x0B], hx [0x01, 0x03, 0x00, 0x00, 0x00, 0x03, 0xC4, 0x0B],
     hx [0x01, 0x03, 0x00, 0x00, 0x00, 0x02, 0xC4, 0x8B], hx [0x01, 0x03, 0x00, 0x00, 0x00, 0x02, 0x0B, 0xC4],
     [], [0xC4#8]].map verifyCrc = [false, false, false, false, false, false] := by decide +kernel

/-! ### Requests (V50 to V85): the frame sent, or the outcome -/

/-- V52, V53. -/
theorem test_rc :
    after (exec (.rc 1#8 0#16 2000#16 none 0) State.reset) (·.out) =
      some [.tpWrite (hx [0x01, 0x01, 0x00, 0x00, 0x07, 0xD0, 0x3F, 0xA6])] ∧
    after (exec (.rc 1#8 0#16 2001#16 none 0) State.reset) (·.out) = some [.outcome (.failure .invalidParameter)] := by
  decide +kernel

/-- V170. -/
theorem test_rhr_starts :
    after (exec (.rhr 1#8 0#16 2#16 none 0) State.reset) (fun t => { t with crc := 0#16 }) =
      some { flying .sending with out := [.tpWrite frameV1] } := by decide +kernel

/-- V56, V57, V60: quantity 126 and slave 0 are refused, an address that wraps is not. -/
theorem test_rhr_bounds :
    after (exec (.rhr 1#8 0#16 126#16 none 0) State.reset) (·.out) = some [.outcome (.failure .invalidParameter)] ∧
    after (exec (.rhr 0#8 0#16 1#16 none 0) State.reset) (·.out) = some [.outcome (.failure .invalidParameter)] ∧
    after (exec (.rhr 1#8 65535#16 2#16 none 0) State.reset) (·.out) =
      some [.tpWrite (hx [0x01, 0x03, 0xFF, 0xFF, 0x00, 0x02, 0xC4, 0x2F])] := by decide +kernel

/-- V61, V62. -/
theorem test_rir :
    after (exec (.rir 1#8 8#16 1#16 none 0) State.reset) (·.out) =
      some [.tpWrite (hx [0x01, 0x04, 0x00, 0x08, 0x00, 0x01, 0xB0, 0x08])] ∧
    after (exec (.rir 1#8 8#16 126#16 none 0) State.reset) (·.out) = some [.outcome (.failure .invalidParameter)] := by
  decide +kernel

/-- V63, V64. -/
theorem test_wsc :
    after (exec (.wsc 1#8 0xAC#16 true none 0) State.reset) (fun t => (t.req.f2, t.out)) =
      some (0xFF00#16, [.tpWrite (hx [0x01, 0x05, 0x00, 0xAC, 0xFF, 0x00, 0x4C, 0x1B])]) ∧
    after (exec (.wsc 1#8 0xAC#16 false none 0) State.reset) (fun t => (t.req.f2, t.out)) =
      some (0x0000#16, [.tpWrite (hx [0x01, 0x05, 0x00, 0xAC, 0x00, 0x00, 0x0D, 0xEB])]) := by decide +kernel

/-- V68. -/
theorem test_wsr :
    after (exec (.wsr 1#8 0x1234#16 0xABCD#16 none 0) State.reset) (·.out) =
      some [.tpWrite (hx [0x01, 0x06, 0x12, 0x34, 0xAB, 0xCD, 0x73, 0xD9])] := by decide +kernel

/-- V187: Busy while a transaction is in flight, and nothing else. -/
theorem test_wsr_busy :
    after (exec (.wsr 1#8 1#16 3#16 none 0) (flying .validating)) id =
      some { flying .validating with lastError := some .busy, out := [.outcome (.failure .busy)] } := by decide +kernel

/-- V69, V70. -/
theorem test_wmc :
    after (exec (.wmc 1#8 0x13#16 10#16 (hx [0xCD, 0x01]) none 0) State.reset) (·.out) =
      some [.tpWrite (hx [0x01, 0x0F, 0x00, 0x13, 0x00, 0x0A, 0x02, 0xCD, 0x01, 0x72, 0xCB])] ∧
    after (exec (.wmc 1#8 0x13#16 10#16 (hx [0xCD]) none 0) State.reset) (·.out) =
      some [.outcome (.failure .invalidParameter)] := by decide +kernel

/-- V75, V76. -/
theorem test_wmr :
    after (exec (.wmr 1#8 1#16 2#16 [0x000A#16, 0x0102#16] none 0) State.reset) (·.out) =
      some [.tpWrite (hx [0x01, 0x10, 0x00, 0x01, 0x00, 0x02, 0x04, 0x00, 0x0A, 0x01, 0x02, 0x92, 0x30])] ∧
    after (exec (.wmr 1#8 1#16 2#16 [0x000A#16] none 0) State.reset) (·.out) =
      some [.outcome (.failure .invalidParameter)] := by decide +kernel

/-- V81, V83. -/
theorem test_raw :
    after (exec (.raw [] none 0) State.reset) (·.out) = some [.tpWrite (hx [0xFF, 0xFF])] ∧
    after (exec (.raw frameV1 none 0) State.reset) (·.out) = some [.tpWrite (frameV1 ++ hx [0, 0])] := by decide +kernel

/-- V80, V84. -/
theorem test_dispatchRaw :
    after (exec (.dispatchRaw (hx [0x01, 0x07]) none 0) State.reset) (fun t => (t.req.kind, t.txLen, t.out)) =
      some (.raw, 4, [.tpWrite (hx [0x01, 0x07, 0x41, 0xE2])]) ∧
    after (exec (.dispatchRaw (List.replicate 255 0#8) none 0) State.reset) (·.out) =
      some [.outcome (.failure .invalidParameter)] := by decide +kernel

/-- V171. -/
theorem test_dispatch_timeout :
    after (exec (.dispatch 3#8 1#8 0#16 (.qty 2#16) (some 100) 0) State.reset) (fun t => (t.timeoutL, t.deadline, t.out)) =
      some (100, 100, [.tpWrite frameV1]) := by decide +kernel

/-- V85, V188: a function code outside the seven; a bad parameter while busy is InvalidParameter, not Busy. -/
theorem test_dispatch_refuses :
    after (exec (.dispatch 7#8 1#8 0#16 (.qty 2#16) none 0) State.reset) (·.out) =
      some [.outcome (.failure .invalidParameter)] ∧
    after (exec (.dispatch 1#8 1#8 0#16 (.qty 0#16) none 0) (flying .sending)) (·.lastError) =
      some (some .invalidParameter) := by decide +kernel

/-- V73 (1968 coils pass with 246 bytes, 1969 do not with 247). -/
theorem test_checkParams_coils :
    after (exec (.checkParams (.structured 0x0F#8 1#8 0#16 (.packed 1968#16 (List.replicate 246 0#8)))) State.reset)
      (·.out) = some [.paramsOk] ∧
    after (exec (.checkParams (.structured 0x0F#8 1#8 0#16 (.packed 1969#16 (List.replicate 247 0#8)))) State.reset)
      (·.out) = some [.raised .invalidParameter] := by decide +kernel

/-- V78, V79 (123 registers pass, 124 do not). -/
theorem test_checkParams_registers :
    paramsPass (.structured 0x10#8 1#8 0#16 (.words 123#16 (List.replicate 123 0#16))) = true ∧
    paramsPass (.structured 0x10#8 1#8 0#16 (.words 124#16 (List.replicate 124 0#16))) = false ∧
    paramsPass (.structured 0x10#8 1#8 0#16 (.words 0#16 [])) = false := by decide +kernel

/-- V77: eleven bytes, the count 2, the value high byte first, the CRC low byte first, and no state change. -/
theorem test_encodeFrame :
    after (exec (.encodeFrame (.structured 0x10#8 1#8 0#16 (.words 1#16 [0xBEEF#16]))) State.reset)
      (fun t => (t.fsm, t.txLen, txBytes t)) =
      some (.idle, 11, hx [0x01, 0x10, 0x00, 0x00, 0x00, 0x01, 0x02, 0xBE, 0xEF, 0x96, 0x7C]) := by decide +kernel

/-- Encode of a Command that fails the check raises and writes nothing (00_scope.md R7, log entry 18). -/
theorem test_encodeFrame_raises :
    after (exec (.encodeFrame (.structured 3#8 0#8 0#16 (.qty 1#16))) (flying .sending)) (fun t => (t.txLen, t.out)) =
      some (8, [.raised .invalidParameter]) := by decide +kernel

/-! ### Replies (V100 to V164) -/

/-- V125. -/
theorem test_rcReply :
    after (exec (.rcReply (hx [0x01, 0x01, 0x02, 0xCD, 0x01, 0x2C, 0xAC])) State.reset) (·.out) =
      some [.decoded (.decoded (.bits 1#8 1#8 2#8 (hx [0xCD, 0x01])))] := by decide +kernel

/-- V100, V113. -/
theorem test_rhrReply :
    after (exec (.rhrReply replyV2) State.reset) (·.out) =
      some [.decoded (.decoded (.regs 1#8 3#8 4#8 [0x0011#16, 0x0022#16]))] ∧
    after (exec (.rhrReply (hx [0x01, 0x03, 0x03, 0x00, 0x11, 0x00, 0x49, 0xDE])) State.reset) (·.out) =
      some [.decoded (.malformed .length)] := by decide +kernel

/-- V120. -/
theorem test_rirReply :
    after (exec (.rirReply (hx [0x01, 0x04, 0x02, 0x00, 0x0A, 0x39, 0x37])) State.reset) (·.out) =
      some [.decoded (.decoded (.regs 1#8 4#8 2#8 [0x000A#16]))] := by decide +kernel

/-- V145. -/
theorem test_wscReply :
    after (exec (.wscReply (hx [0x01, 0x05, 0x00, 0xAC, 0xFF, 0x00, 0x4C, 0x1B])) State.reset) (·.out) =
      some [.decoded (.decoded (.echo 1#8 5#8 0x00AC#16 0xFF00#16))] := by decide +kernel

/-- V135, V139. -/
theorem test_wsrReply :
    after (exec (.wsrReply (hx [0x01, 0x06, 0x00, 0x01, 0x00, 0x03, 0x98, 0x0B])) State.reset) (·.out) =
      some [.decoded (.decoded (.echo 1#8 6#8 1#16 3#16))] ∧
    after (exec (.wsrReply (hx [0x01, 0x06, 0x00, 0x01, 0x00, 0x03, 0x00, 0x0A, 0xAA])) State.reset) (·.out) =
      some [.decoded (.malformed .length)] := by decide +kernel

/-- V150, V152. -/
theorem test_wmcReply :
    after (exec (.wmcReply (hx [0x01, 0x0F, 0x00, 0x13, 0x00, 0x0A, 0x24, 0x09])) State.reset) (·.out) =
      some [.decoded (.decoded (.echo 1#8 15#8 0x13#16 10#16))] ∧
    after (exec (.wmcReply (hx [0x01, 0x0F, 0x00, 0x13, 0x00, 0x0A, 0x02, 0xCD, 0x01, 0x72, 0xCB])) State.reset) (·.out) =
      some [.decoded (.malformed .length)] := by decide +kernel

/-- V154. -/
theorem test_wmrReply :
    after (exec (.wmrReply (hx [0x01, 0x10, 0x00, 0x01, 0x00, 0x02, 0x10, 0x08])) State.reset) (·.out) =
      some [.decoded (.decoded (.echo 1#8 16#8 1#16 2#16))] := by decide +kernel

/-- V104, V107. -/
theorem test_excReply :
    after (exec (.excReply .rhr replyV4) State.reset) (·.out) = some [.decoded (.decoded (.exception 1#8 0x83#8 2#8))] ∧
    after (exec (.excReply .rhr (hx [0x01, 0x83, 0x02, 0x00, 0xF1, 0x50])) State.reset) (·.out) =
      some [.decoded (.malformed .length)] := by decide +kernel

/-- V160, V162. -/
theorem test_rawReply :
    after (exec (.rawReply (hx [0x01, 0x07, 0x4D, 0xE2, 0x05])) State.reset) (·.out) =
      some [.decoded (.decoded (.rawReply (hx [0x01, 0x07, 0x4D, 0xE2, 0x05])))] ∧
    after (exec (.rawReply (hx [0x01, 0x07, 0x4D, 0xE2, 0x04])) State.reset) (·.out) =
      some [.decoded (.malformed .crc)] := by decide +kernel

/-- V103, V118, V101: length before CRC, overflow is "length", then the CRC. -/
theorem test_decodeReply_order :
    [decodeFrame (hx [0x01, 0x83, 0x41, 0x81]) false .rhr, decodeFrame replyV2 true .rhr,
     decodeFrame (hx [0x01, 0x03, 0x04, 0x00, 0x11, 0x00, 0x22, 0x2A, 0x2E]) false .rhr] =
      [.malformed .length, .malformed .length, .malformed .crc] := by decide +kernel

/-- V161: bit 7 is not looked at on the raw path; V104: it is on a structured one. -/
theorem test_decodeReply_exception :
    after (exec (.decodeReply (hx [0x01, 0x87, 0x01, 0x82, 0x30]) false .raw) State.reset) (·.out) =
      some [.decoded (.decoded (.rawReply (hx [0x01, 0x87, 0x01, 0x82, 0x30])))] ∧
    after (exec (.decodeReply replyV4 false .wmr) State.reset) (·.out) =
      some [.decoded (.decoded (.exception 1#8 0x83#8 2#8))] := by decide +kernel

/-- V126: ten coils, least significant bit first, padding ignored. -/
theorem test_validateReply_coils :
    after (exec (.validateReply (.bits 1#8 1#8 2#8 (hx [0xCD, 0xFD])) ⟨.rc, 1#8, 1#8, 0x13#16, 10#16⟩) State.reset) (·.out) =
      some [.validated (.success (.coilValues [true, false, true, true, false, false, true, true, true, false]))] := by
  decide +kernel

/-- V105, V106, V136, V111: slave id before the exception, the other function's exception, echo, count. -/
theorem test_validateReply_refuses :
    [validateResponse (.exception 2#8 0x83#8 2#8) ⟨.rhr, 1#8, 3#8, 0#16, 2#16⟩,
     validateResponse (.exception 1#8 0x84#8 2#8) ⟨.rhr, 1#8, 3#8, 0#16, 2#16⟩,
     validateResponse (.echo 1#8 6#8 1#16 4#16) ⟨.wsr, 1#8, 6#8, 1#16, 3#16⟩,
     validateResponse (.regs 1#8 3#8 2#8 [0x11#16]) ⟨.rhr, 1#8, 3#8, 0#16, 2#16⟩] =
      [malformedVerdict .slaveId, malformedVerdict .function, malformedVerdict .echo, malformedVerdict .length] := by
  decide +kernel

/-! ### The sequencer (V172 to V194) -/

/-- V172, V173. -/
theorem test_writeResult :
    after (exec (.writeResult (.ok 8) 1) (flying .sending)) id = some (flying .awaitingResponse) ∧
    after (exec (.writeResult (.ok 5) 1) (flying .sending)) (fun t => (t.fsm, t.lastError, t.history.map Record.term)) =
      some (.idle, some (.transportError reasonShortWrite), [.failed]) := by decide +kernel

/-- V175: a retry. -/
theorem test_writeResult_retry :
    after (exec (.writeResult (.err [0x78#8]) 7) { flying .sending with retriesLeft := 2 })
      (fun t => (t.fsm, t.retriesLeft, t.attempts, t.deadline, t.out)) =
      some (.sending, 1, 2, 1007, [.tpWrite frameV1]) := by decide +kernel

/-- V182; and a chunk of which no byte fits still re-arms the quiet timer, so a babbling slave is never complete (R236). -/
theorem test_rx_overflow :
    after (exec (.rx (List.replicate 10 0xAA#8) 5)
      { flying .awaitingResponse with rx := Memory.writeBytes [] 0 (List.replicate 250 0x55#8), rxLen := 250 })
      (fun t => (t.rxLen, t.rxOvf, t.tLastRx, Memory.read t.rx 249, Memory.read t.rx 255)) =
      some (256, true, some 5, 0x55#8, 0xAA#8) ∧
    after (exec (.rx [0xAA#8] 9) { flying .awaitingResponse with rxLen := 256, rxOvf := true, tLastRx := some 5 })
      (fun t => (t.fsm, t.rxLen, t.tLastRx)) = some (.awaitingResponse, 256, some 9) := by decide +kernel

/-- V183, V184. -/
theorem test_rx_quiet_zero :
    after (exec (.rx (hx [0x01, 0x03, 0x04, 0x00, 0x11]) 10) { flying .awaitingResponse with quietL := 0 })
      (fun t => (t.rxLen, t.fsm)) = some (5, .validating) ∧
    after (exec (.rx (hx [0xAA]) 10) (flying .sending)) id = some (flying .sending) := by decide +kernel

/-- V177, V178. -/
theorem test_evalWait_quiet :
    after (exec (.evalWait 16) (heard replyV2 13 (flying .awaitingResponse))) (·.fsm) = some .awaitingResponse ∧
    after (exec (.evalWait 17) (heard replyV2 13 (flying .awaitingResponse))) (·.fsm) = some .validating := by
  decide +kernel

/-- V180, V181. -/
theorem test_tick_deadline :
    after (exec (.tick 1000) (heard replyV2 998 (flying .awaitingResponse))) (fun t => (t.fsm, t.out)) =
      some (.idle, [.outcome (.failure .timedOut)]) ∧
    after (exec (.tick 1000) (heard replyV2 996 (flying .awaitingResponse))) (fun t => (t.fsm, t.out)) =
      some (.validating, []) := by decide +kernel

/-- V179, V194. -/
theorem test_tick_short_reply :
    after (exec (.tick 999) (heard (hx [0x01, 0x83, 0x41, 0x81]) 13 (flying .awaitingResponse))) (·.fsm) =
      some .awaitingResponse ∧
    after (exec (.tick 1000) (heard (hx [0x01, 0x83, 0x41, 0x81]) 13 (flying .awaitingResponse)))
      (fun t => t.history.map Record.reply) = some [hx [0x01, 0x83, 0x41, 0x81]] ∧
    after (exec (.tick 5) (flying .validating)) id = some (flying .validating) := by decide +kernel

/-- V185. -/
theorem test_cancel :
    after (exec (.cancel 30) (flying .awaitingResponse)) (fun t => (t.fsm, t.lastError, t.history.map Record.term, t.out)) =
      some (.idle, some .cancelled, [.cancelled], [.outcome (.failure .cancelled)]) := by decide +kernel

/-- V186. -/
theorem test_cancel_ignored : after (exec (.cancel 30) (flying .sending)) id = some (flying .sending) := by decide +kernel

/-- V189. -/
theorem test_tpFault_fatal :
    after (exec (.tpFault [0x78#8] true 15)
      { flying .awaitingResponse with retriesLeft := 3, store := [(0, ⟨0x11#16, 1⟩)] })
      (fun t => (t.store, t.out, t.retriesLeft, t.fsm)) =
      some ([], [.tpClose, .outcome (.failure (.transportError [0x78#8]))], 3, .idle) := by decide +kernel

/-- V190, V192. -/
theorem test_tpFault_nonfatal :
    after (exec (.tpFault [0x78#8] false 15) (heard replyV2 13 { flying .awaitingResponse with retriesLeft := 1 }))
      (fun t => (t.retriesLeft, t.attempts, t.deadline, t.rxLen, t.out)) =
      some (0, 2, 1015, 0, [.tpWrite frameV1]) ∧
    after (exec (.tpFault [0x78#8] false 5) State.reset) id = some State.reset := by decide +kernel

/-- V191, and D28: no tp.close from the host's DISCONNECT. -/
theorem test_disconnect :
    after (exec (.disconnect 5) { State.reset with store := [(0, ⟨0x11#16, 1⟩)] }) id = some State.reset ∧
    after (exec (.disconnect 5) (flying .awaitingResponse)) (fun t => (t.fsm, t.out)) =
      some (.idle, [.outcome (.failure (.transportError reasonDisconnected))]) := by decide +kernel

/-- P1's VALIDATE. -/
theorem test_validate :
    after (exec (.validate 17) (heard replyV2 13 (flying .validating))) (fun t => (t.store, t.out, t.fsm)) =
      some ([(0, ⟨0x11#16, 17⟩), (1, ⟨0x22#16, 17⟩)], [.outcome (.success (.regValues [0x11#16, 0x22#16]) 17)], .idle) := by
  decide +kernel

/-- P3's VALIDATE: the exception is not retried although the budget allows it. -/
theorem test_validate_exception :
    after (exec (.validate 124) (heard replyV4 120 { flying .validating with retriesLeft := 1 }))
      (fun t => (t.lastError, t.retriesLeft, t.store, t.fsm)) = some (some (.deviceException 2#8), 1, [], .idle) := by
  decide +kernel

/-- R165 from V190's state. -/
theorem test_startAttempt :
    after (exec (.startAttempt 15) (heard replyV2 13 (flying .awaitingResponse)))
      (fun t => (t.fsm, t.rxLen, t.tLastRx, t.deadline, t.out)) = some (.sending, 0, none, 1015, [.tpWrite frameV1]) := by
  decide +kernel

/-- R159: no budget left closes; a fatal failure closes with budget left and empties the store. -/
theorem test_attemptFail :
    after (exec (.attemptFail .timedOut .nonfatal 1000) (flying .awaitingResponse)) (fun t => (t.fsm, t.lastError)) =
      some (.idle, some .timedOut) ∧
    after (exec (.attemptFail (.transportError []) .fatalHost 9)
      { flying .awaitingResponse with retriesLeft := 3, store := [(0, ⟨0x11#16, 1⟩)] }) (fun t => (t.fsm, t.store)) =
      some (.idle, []) := by decide +kernel

/-- V203, V205: what does not touch the store; a Success leaves last_error (P2). -/
theorem test_close_written :
    after (exec (.close (.success (.written 0#16 0x99#16)) 114)
      { flying .validating with store := [(0, ⟨0x11#16, 17⟩)], lastError := some .busy, tStart := 100 })
      (fun t => (t.store, t.lastError, t.out)) =
      some ([(0, ⟨0x11#16, 17⟩)], some .busy, [.outcome (.success (.written 0#16 0x99#16) 14)]) := by decide +kernel

/-- V202, shortened to three coils: the entry is overwritten by a coil bit. -/
theorem test_close_coils :
    after (exec (.close (.success (.coilValues [true, false, true])) 14)
      { flying .validating with
        req := ⟨.rc, 2#8, 1#8, 0x13#16, 3#16⟩
        store := [(0x13, ⟨0xABCD#16, 5⟩)] }) (·.store) =
      some [(0x13, ⟨1#16, 14⟩), (0x14, ⟨0#16, 14⟩), (0x15, ⟨1#16, 14⟩)] := by decide +kernel

/-! ### The store and the operations that read (V193, V201, V204, V206) -/

/-- V204, V206: the address wraps; value and timestamp are replaced. -/
theorem test_storeUpdate :
    after (exec (.storeUpdate 65535#16 (.regs [0xAAAA#16, 0xBBBB#16]) 9) State.reset) (·.store) =
      some [(0, ⟨0xBBBB#16, 9⟩), (65535, ⟨0xAAAA#16, 9⟩)] ∧
    after (exec (.storeUpdate 0#16 (.regs [0x12#16]) 40) { State.reset with store := [(0, ⟨0x11#16, 17⟩)] }) (·.store) =
      some [(0, ⟨0x12#16, 40⟩)] := by decide +kernel

/-- V201. -/
theorem test_getRegister :
    after (exec (.getRegister 1#16 18) { State.reset with store := [(1, ⟨0x22#16, 17⟩)] }) (·.out) =
      some [.register (some 0x22#16)] ∧
    after (exec (.getRegister 2#16 18) { State.reset with store := [(1, ⟨0x22#16, 17⟩)] }) (·.out) =
      some [.register none] := by decide +kernel

theorem test_readHistory : after (exec (.readHistory 1) State.reset) (·.out) = some [.historyIs []] := by decide +kernel

theorem test_readLastError :
    after (exec (.readLastError 1) { State.reset with lastError := some .busy }) (·.out) =
      some [.lastErrorIs (some .busy)] := by decide +kernel

/-- V193: the budget of the transaction in flight stays. The name is the bytes of "cfg_retry". -/
theorem test_cfgWrite :
    after (exec (.cfgWrite (hx [0x63, 0x66, 0x67, 0x5F, 0x72, 0x65, 0x74, 0x72, 0x79]) 2 0) (flying .awaitingResponse))
      (fun t => (t.cfgRetry, t.retriesLeft, t.cfgTimeout, t.cfgQuiet)) = some (2, 0, 1000, 4) := by decide +kernel

/-- R168: an unknown name is ignored. -/
theorem test_cfgWrite_unknown : after (exec (.cfgWrite (hx [0x63]) 2 0) State.reset) id = some State.reset := by
  decide +kernel

theorem test_connect : after (exec (.connect (hx [0x43]) 9600 0) (flying .sending)) id = some (flying .sending) := by
  decide +kernel

/-! ### The step: an unused op number is ignored, a reserved function answered, a reset taken -/

theorem test_step_unused_op :
    after (step { State.reset with inbox := [.packet (hx [9, 1])] }) id = some State.reset := by decide +kernel

/-- R220: in mid transaction every register takes its reset value and nothing is emitted. -/
theorem test_step_reset :
    after (step { flying .awaitingResponse with inbox := [.reset] }) id = some State.reset := by decide +kernel

/-! ### Witnesses: for each statement with hypotheses, values that meet them, clause by clause at the edges of their
ranges -/

theorem reset_wf : State.reset.fsm = .idle ∧ Memory.Wf 256 State.reset.tx ∧ Memory.Wf 256 State.reset.rx := by decide +kernel

theorem witness_StepTakesNextInput :
    (offer (hx [0x12, 7]) State.reset).inbox = [.packet (hx [0x12, 7])] ∧ decode (hx [0x12, 7]) = .ok (.tick 7) ∧
    ({ State.reset with inbox := [.reset] } : State).inbox = [.reset] ∧ State.reset.inbox = [] := ⟨rfl, rfl, rfl, rfl⟩

theorem witness_HostOpNumbers :
    9 ≤ (0x09#8).toNat ∧ (0x0F#8).toNat ≤ 15 ∧ (offer [0x09#8] State.reset).inbox = [.packet (0x09#8 :: [])] ∧
    (offer [0x0F#8, 1#8] State.reset).inbox = [.packet (0x0F#8 :: [1#8])] := by decide +kernel

theorem witness_ReservedFunctionCodes :
    0x02#8 ∉ [0x01#8, 0x03#8, 0x04#8, 0x05#8, 0x06#8, 0x0F#8, 0x10#8] ∧
    0x11#8 ∉ [0x01#8, 0x03#8, 0x04#8, 0x05#8, 0x06#8, 0x0F#8, 0x10#8] ∧
    (offer (requestPacket none 0 [1#8, 0x02#8]) State.reset).inbox = [.packet (requestPacket none 0 (1#8 :: 0x02#8 :: []))] ∧
    (List.replicate 254 0#8).length ≤ 254 := by decide +kernel

theorem witness_DecodeEncode :
    WellFormed (.wmc 1#8 0#16 0#16 (List.replicate 255 0#8) none 0) = true ∧
    WellFormed (.wmr 1#8 0#16 0#16 (List.replicate 127 0#16) (some 0) 0) = true ∧
    WellFormed (.excReply .wmr replyV4) = true := by decide +kernel

theorem witness_DecodedPacketIsEncoding : decode (hx [0x12, 0x80, 0x01]) = .ok (.tick 128) := rfl

theorem witness_VerifyComparesTrailingBytes :
    ([0xC4#8] : List Byte).length < 2 ∧ hx [0xFF, 0xFF] = [] ++ [0xFF#8, 0xFF#8] ∧
    hx [0x01, 0xC4, 0x0B] = [0x01#8] ++ [0xC4#8, 0x0B#8] := by decide +kernel

theorem witness_SingleBitErrorDetected :
    0 < 8 * (([] : List Byte).length + 2) ∧ 15 < 8 * (([] : List Byte).length + 2) ∧ 23 < 8 * (([1#8] : List Byte).length + 2) := by
  decide +kernel

theorem witness_CrcLinear : (hx [0x01, 0x03]).length = (hx [0x00, 0x01]).length := rfl

theorem witness_StreamingResidue : 2 ≤ (hx [0xFF, 0xFF]).length := by decide +kernel

theorem witness_CheckParamsDecides :
    FieldsFit 0x01#8 (.qty 2000#16) ∧ FieldsFit 0x04#8 (.qty 0#16) ∧ FieldsFit 0x05#8 (.coil true) ∧
    FieldsFit 0x06#8 (.value 0#16) ∧ FieldsFit 0x0F#8 (.packed 8#16 [1#8]) ∧ FieldsFit 0x10#8 (.words 1#16 [1#16]) ∧
    FieldsFit 0x07#8 (.qty 1#16) := ⟨trivial, trivial, trivial, trivial, trivial, trivial, trivial⟩

theorem witness_EncodeMultiplexer :
    paramsPass (.raw []) = true ∧ paramsPass (.raw (List.replicate 254 0#8)) = true ∧
    paramsPass (.structured 0x03#8 1#8 0#16 (.qty 125#16)) = true ∧
    paramsPass (.structured 0x05#8 255#8 0#16 (.coil false)) = true ∧
    paramsPass (.structured 0x06#8 1#8 0#16 (.value 0xFFFF#16)) = true ∧
    paramsPass (.structured 0x0F#8 1#8 0#16 (.packed 9#16 (hx [1, 1]))) = true ∧
    paramsPass (.structured 0x10#8 1#8 0#16 (.words 1#16 [1#16])) = true ∧ Memory.Wf 256 (flying .idle).tx := by decide +kernel

theorem witness_EncoderLaws :
    paramsPass (.raw []) = true ∧ paramsPass (.structured 0x01#8 1#8 0#16 (.qty 1#16)) = true ∧
    paramsPass (.structured 0x0F#8 1#8 0#16 (.packed 1968#16 (List.replicate 246 0#8))) = true ∧
    paramsPass (.structured 0x10#8 1#8 0#16 (.words 123#16 (List.replicate 123 0#16))) = true ∧
    Command.frame (.structured 0x01#8 1#8 0#16 (.qty 1#16)) = Command.frame (.structured 0x01#8 1#8 0#16 (.qty 1#16)) :=
  ⟨by decide +kernel, by decide +kernel, by decide +kernel, by decide +kernel, rfl⟩

theorem witness_ReadRequests :
    1#8 ≠ 0x00#8 ∧ 1 ≤ (1#16).toNat ∧ (2000#16).toNat ≤ 2000 ∧ (125#16).toNat ≤ 125 ∧ (0#16).toNat = 0 ∧
    2000 < (2001#16).toNat ∧ 125 < (126#16).toNat ∧ State.reset.fsm = .idle ∧ Memory.Wf 256 State.reset.tx := by decide +kernel

theorem witness_WriteSingleRequests :
    255#8 ≠ 0x00#8 ∧ (flying .idle).fsm = .idle ∧ Memory.Wf 256 (flying .idle).tx := by decide +kernel

theorem witness_WriteMultipleRequests :
    1 ≤ (1968#16).toNat ∧ (1968#16).toNat ≤ 1968 ∧ (List.replicate 246 0#8).length = ((1968#16).toNat + 7) / 8 ∧
    1 ≤ (123#16).toNat ∧ (123#16).toNat ≤ 123 ∧ (List.replicate 123 0#16).length = (123#16).toNat ∧
    1968 < (1969#16).toNat ∧ 123 < (124#16).toNat ∧ ([] : List Byte).length ≠ ((1#16).toNat + 7) / 8 ∧
    ([] : List Word).length ≠ (1#16).toNat ∧ 1#8 ≠ 0x00#8 ∧ State.reset.fsm = .idle ∧ Memory.Wf 256 State.reset.tx := by
  decide +kernel

theorem witness_RawRequest :
    (List.replicate 254 0#8).length ≤ 254 ∧ 254 < (List.replicate 255 0#8).length ∧ State.reset.fsm = .idle ∧
    Memory.Wf 256 State.reset.tx := by decide +kernel

theorem witness_DispatchThreeWays :
    paramsPass (.structured 0x03#8 1#8 0#16 (.qty 126#16)) = false ∧ paramsPass (.raw [1#8]) = true ∧
    (flying .sending).fsm ≠ .idle ∧ State.reset.fsm = .idle ∧ Memory.Wf 256 State.reset.tx := by decide +kernel

theorem witness_RefusedAtOnce :
    requestOf (.wmr 1#8 0#16 1#16 [] none 7) = some (.structured 0x10#8 1#8 0#16 (.words 1#16 []), none, 7) ∧
    paramsPass (.structured 0x10#8 1#8 0#16 (.words 1#16 [])) = false ∧
    requestOf (.raw [] none 7) = some (.raw [], none, 7) ∧ paramsPass (.raw []) = true ∧
    (flying .sending).fsm = .sending ∧ (flying .awaitingResponse).fsm = .awaitingResponse ∧
    (flying .validating).fsm = .validating := by decide +kernel

theorem witness_AttemptFailRetriesOrCloses :
    0 < ({ flying .sending with retriesLeft := 1 } : State).retriesLeft ∧ (flying .sending).retriesLeft = 0 := by decide +kernel

theorem witness_CloseEndsTransaction :
    (flying .validating).tStart ≤ 0 ∧ Failure.busy ≠ .timedOut ∧ Failure.busy ≠ .cancelled ∧
    (∀ vs, Verdict.success (.written 0#16 0#16) ≠ .success (.regValues vs)) ∧
    (∀ vs, Verdict.success (.written 0#16 0#16) ≠ .success (.coilValues vs)) := by simp [flying, State.reset]

/-- Complete at silence equal to the quiet interval, incomplete one earlier; the deadline at its value and one before. -/
theorem witness_EvalWaitAndTick :
    (heard replyV2 13 (flying .awaitingResponse)).fsm = .awaitingResponse ∧
    (heard replyV2 13 (flying .awaitingResponse)).tLastRx = some 13 ∧
    5 ≤ (heard replyV2 13 (flying .awaitingResponse)).rxLen ∧
    (heard replyV2 13 (flying .awaitingResponse)).quietL ≤ 17 - 13 ∧
    16 - 13 < (heard replyV2 13 (flying .awaitingResponse)).quietL ∧
    (heard (hx [1, 2, 3, 4]) 13 (flying .awaitingResponse)).rxLen < 5 ∧ (flying .awaitingResponse).tLastRx = none ∧
    (flying .awaitingResponse).deadline ≤ 1000 ∧ 999 < (flying .awaitingResponse).deadline ∧
    (flying .sending).fsm ≠ .awaitingResponse := by decide +kernel

theorem witness_WriteResultDecides :
    (flying .sending).fsm = .sending ∧ (flying .sending).txLen ≤ 8 ∧ 7 < (flying .sending).txLen ∧
    (flying .awaitingResponse).fsm ≠ .sending := by decide +kernel

theorem witness_RxAppends :
    hx [1] ≠ [] ∧ (flying .awaitingResponse).fsm = .awaitingResponse ∧
    (heard (List.replicate 256 1#8) 5 (flying .awaitingResponse)).rxLen ≤ 256 ∧
    (heard replyV2 5 (flying .awaitingResponse)).rxLen ≤ 256 ∧ (heard replyV2 5 (flying .awaitingResponse)).fsm = .awaitingResponse ∧
    Memory.Wf 256 (heard replyV2 5 (flying .awaitingResponse)).rx ∧ (flying .validating).fsm ≠ .awaitingResponse := by decide +kernel

theorem witness_CancelEndsWait :
    (flying .awaitingResponse).fsm = .awaitingResponse ∧ (flying .validating).fsm ≠ .awaitingResponse := by decide +kernel

theorem witness_FaultAndDisconnect :
    Fsm.active (flying .sending).fsm = true ∧ Fsm.active (flying .validating).fsm = true ∧ State.reset.fsm = .idle := by
  decide +kernel

theorem witness_ValidateStepCloses :
    (flying .validating).fsm = .validating ∧ decodeFrame (rxBytes (flying .validating)) false .rhr = .malformed .length ∧
    decodeFrame (rxBytes (heard replyV2 13 (flying .validating))) false .rhr =
      .decoded (.regs 1#8 3#8 4#8 [0x11#16, 0x22#16]) ∧ State.reset.fsm ≠ .validating := by decide +kernel

theorem witness_OperationsThatDoNotMove :
    Store.get [(1, ⟨0x22#16, 17⟩)] (1#16).toNat = some ⟨0x22#16, 17⟩ ∧ Store.get State.reset.store (1#16).toNat = none ∧
    hx [0x63] ∉ [nameTimeout, nameQuiet, nameRetry] := by decide +kernel

theorem witness_DecodePrologue :
    (hx [0x01, 0x83, 0x41, 0x81]).length < 5 ∧ 5 ≤ replyV4.length ∧ verifyCrc (hx [1, 2, 3, 4, 5]) = false ∧
    verifyCrc replyV4 = true ∧ Kind.rhr ≠ .raw ∧ (replyV4.getD 1 0#8).getLsbD 7 = true ∧ replyV4.length = 5 ∧
    verifyCrc (hx [0x01, 0x83, 0x02, 0x00, 0xF1, 0x50]) = true ∧ (hx [0x01, 0x83, 0x02, 0x00, 0xF1, 0x50]).length ≠ 5 := by
  decide +kernel

/-- V125; V116, whose count is not the length left. -/
theorem witness_ReadBitsReply :
    ReachesShape (hx [0x01, 0x01, 0x02, 0xCD, 0x01, 0x2C, 0xAC]) ∧
    ((hx [0x01, 0x01, 0x02, 0xCD, 0x01, 0x2C, 0xAC]).getD 2 0#8).toNat + 5 = 7 ∧
    ReachesShape (hx [0x01, 0x03, 0x00, 0x00, 0xF1, 0xD8]) ∧
    ((hx [0x01, 0x03, 0x00, 0x00, 0xF1, 0xD8]).getD 2 0#8).toNat + 5 ≠ 6 := by unfold ReachesShape; decide +kernel

/-- V100, V113, V116. -/
theorem witness_ReadRegistersReply :
    ReachesShape replyV2 ∧ (replyV2.getD 2 0#8).toNat + 5 = replyV2.length ∧ (replyV2.getD 2 0#8).toNat % 2 = 0 ∧
    ReachesShape (hx [0x01, 0x03, 0x03, 0x00, 0x11, 0x00, 0x49, 0xDE]) ∧
    ((hx [0x01, 0x03, 0x03, 0x00, 0x11, 0x00, 0x49, 0xDE]).getD 2 0#8).toNat % 2 = 1 ∧
    ReachesShape (hx [0x01, 0x03, 0x00, 0x00, 0xF1, 0xD8]) ∧
    ((hx [0x01, 0x03, 0x00, 0x00, 0xF1, 0xD8]).getD 2 0#8).toNat + 5 ≠ 6 := by unfold ReachesShape; decide +kernel

/-- V135, V139. -/
theorem witness_EchoReplies :
    ReachesShape (hx [0x01, 0x06, 0x00, 0x01, 0x00, 0x03, 0x98, 0x0B]) ∧
    (hx [0x01, 0x06, 0x00, 0x01, 0x00, 0x03, 0x98, 0x0B]).length = 8 ∧
    ReachesShape (hx [0x01, 0x06, 0x00, 0x01, 0x00, 0x03, 0x00, 0x0A, 0xAA]) ∧
    (hx [0x01, 0x06, 0x00, 0x01, 0x00, 0x03, 0x00, 0x0A, 0xAA]).length ≠ 8 := by unfold ReachesShape; decide +kernel

theorem witness_ReplyRowsDecode : excBit replyV2 = false ∧ excBit replyV4 = true ∧ Kind.rhr ≠ .raw := by decide +kernel

theorem witness_SingleWriteEchoes :
    paramsPass (.structured 0x05#8 1#8 0#16 (.coil true)) = true ∧
    paramsPass (.structured 0x06#8 255#8 0xFFFF#16 (.value 0#16)) = true := by decide +kernel

theorem witness_ValidateInOrder :
    headerOf (.exception 2#8 0x83#8 2#8) = some (2#8, 0x83#8) ∧ 2#8 ≠ 1#8 ∧ 0x84#8 ≠ 0x03#8 ∧
    0x84#8 ≠ (0x03#8 ||| 0x80#8) ∧ 0x83#8 = (0x03#8 ||| 0x80#8) ∧ (2#8).toNat = ((16#16).toNat + 7) / 8 ∧
    (2#8).toNat ≠ ((17#16).toNat + 7) / 8 ∧ (4#8).toNat = 2 * (2#16).toNat ∧ (6#8).toNat ≠ 2 * (2#16).toNat := by decide +kernel

theorem witness_ValidatorLaws :
    judge replyV4 false ⟨.rhr, 1#8, 3#8, 0#16, 2#16⟩ = .failure (.deviceException 2#8) ∧
    judge replyV2 false ⟨.rhr, 1#8, 3#8, 0#16, 2#16⟩ = .success (.regValues [0x11#16, 0x22#16]) ∧ Kind.rhr ≠ .raw ∧
    (flying .validating).fsm = .validating := by decide +kernel

theorem witness_StoreUpdateEntries :
    (∃ bits, Values.coils [true] = .coils bits ∧ [0x0001#16] = bits.map (fun b => if b = true then 0x0001#16 else 0x0000#16)) ∧
    ([0xAAAA#16, 0xBBBB#16] : List Word).length ≤ 65536 ∧
    (∀ i, i < ([0xAAAA#16, 0xBBBB#16] : List Word).length → ((65535#16).toNat + i) % 65536 ≠ 1) :=
  ⟨⟨[true], rfl, by decide +kernel⟩, by decide +kernel, by decide +kernel⟩

/-! The whole-machine rules: a state in flight that meets the invariants, and steps from it of each kind. -/

theorem witness_StepKeepsInv :
    Inv (offer (hx [0x2A, 9]) (flying .awaitingResponse)) ∧
    ∃ t, step (offer (hx [0x2A, 9]) (flying .awaitingResponse)) = .next t :=
  ⟨⟨by decide +kernel, by decide +kernel, by decide +kernel, by decide +kernel, by decide +kernel, by decide +kernel⟩, _, rfl⟩

/-- V1's request awaited, with a TICK coming at time 2000, past its deadline, and one try left. -/
def retrying : State := offer (hx [0x12, 0xD0, 0x0F]) { flying .awaitingResponse with retriesLeft := 1 }

theorem retrying_protocolInv : ProtocolInv retrying where
  inv := ⟨by decide +kernel, by decide +kernel, by decide +kernel, by decide +kernel, by decide +kernel, by decide +kernel⟩
  started := by decide +kernel
  seqs := by decide +kernel
  current := by decide +kernel
  frameGood := by decide +kernel
  requestsGood := by decide +kernel
  sendingEmpty := by decide +kernel
  validatingFull := by decide +kernel
  overflowFull := by decide +kernel

/-- The one next state of `retrying` sends V1's frame again, in an active state. -/
theorem retrying_steps :
    ∃ t, step retrying = .next t ∧ Fsm.active t.fsm = true ∧ Msg.tpWrite frameV1 ∈ t.out :=
  ⟨_, rfl, rfl, by decide +kernel⟩

theorem retrying_is_event :
    nextIsEvent retrying = true ∧ nextIsReset retrying = false ∧ Fsm.active retrying.fsm = true := by decide +kernel

theorem witness_EventKeepsProtocolInv :
    ∃ s t, ProtocolInv s ∧ nextIsEvent s = true ∧ step s = .next t :=
  ⟨retrying, _, retrying_protocolInv, retrying_is_event.1, rfl⟩

theorem witness_WireDiscipline :
    ∃ s t, ProtocolInv s ∧ nextIsEvent s = true ∧ nextIsReset s = false ∧ step s = .next t :=
  ⟨retrying, _, retrying_protocolInv, retrying_is_event.1, retrying_is_event.2.1, rfl⟩

theorem witness_RequestImmutable :
    ∃ s t, nextIsEvent s = true ∧ nextIsReset s = false ∧ Fsm.active s.fsm = true ∧ step s = .next t :=
  ⟨retrying, _, retrying_is_event.1, retrying_is_event.2.1, retrying_is_event.2.2, rfl⟩

theorem witness_OneOutcomePerClose :
    ∃ s t, nextIsEvent s = true ∧ nextIsReset s = false ∧ step s = .next t :=
  ⟨retrying, _, retrying_is_event.1, retrying_is_event.2.1, rfl⟩

/-- Both clauses: within a transaction, and from Idle into one. -/
theorem witness_RetryBudgetConstant :
    (∃ s t, nextIsEvent s = true ∧ step s = .next t ∧ Fsm.active s.fsm = true ∧ Fsm.active t.fsm = true) ∧
    (∃ s t, nextIsEvent s = true ∧ step s = .next t ∧ s.fsm = .idle ∧ Fsm.active t.fsm = true) :=
  ⟨⟨retrying, _, retrying_is_event.1, rfl, retrying_is_event.2.2, rfl⟩,
   ⟨offer (hx [0x41, 0, 0, 1, 7]) State.reset, _, by decide +kernel, rfl, rfl, rfl⟩⟩

/-- A register read that stores: VALIDATE with V2's reply in RX. -/
theorem witness_StoreWritersAre :
    ∃ s t, nextIsEvent s = true ∧ step s = .next t ∧ t.store ≠ s.store :=
  ⟨offer (hx [0x14, 17]) (heard replyV2 13 (flying .validating)), _, by decide +kernel, rfl, by decide +kernel⟩

/-- Two states in flight that differ in the CRC register, in a byte past `tx_len` and in a byte past `rx_len`. -/
theorem witness_DeadStateUnobserved :
    ∃ s s' t, Inv s ∧ Inv s' ∧ SameSeen s s' ∧ s ≠ s' ∧ nextIsEvent s = true ∧ step s = .next t :=
  ⟨retrying, { retrying with crc := 1#16, tx := Memory.write retrying.tx 8 7#8, rx := [(0, 9#8)] }, _,
    retrying_protocolInv.inv, ⟨by decide +kernel, by decide +kernel, by decide +kernel, by decide +kernel, by decide +kernel, by decide +kernel⟩,
    { txLen := rfl, rxLen := rfl, rxOvf := rfl, fsm := rfl, cfgTimeout := rfl, cfgQuiet := rfl, cfgRetry := rfl
      seqNext := rfl, retriesLeft := rfl, attempts := rfl, lastError := rfl, store := rfl, history := rfl, inbox := rfl
      out := rfl
      activeTx := fun _ => ⟨by decide +kernel, by decide +kernel⟩
      activeReq := fun _ => ⟨rfl, fun _ => rfl⟩
      activeTimes := fun _ => ⟨rfl, rfl, rfl, rfl, rfl, rfl⟩ },
    by decide +kernel, retrying_is_event.1, rfl⟩

theorem witness_DeadlineEndsWait :
    (flying .awaitingResponse).fsm = .awaitingResponse ∧ (flying .awaitingResponse).rxLen ≤ 256 ∧
    (flying .awaitingResponse).deadline ≤ 1000 := by decide +kernel

theorem witness_TimesStayOrdered : ∃ s t, TimeInv 1999 s ∧ nextIsEvent s = true ∧ step s = .next t :=
  ⟨retrying, _,
    { rises := (by decide +kernel : 1999 ≤ 2000 ∧ True), begun := by decide +kernel
      heard := by intro u h; simp [retrying, offer, flying, State.reset] at h
      records := by decide +kernel },
    retrying_is_event.1, rfl⟩

end Sys2Proof.Tests
end

section
/-! The state after reset, register by register: the values 10_state.md R35 defines. The registers R36 leaves
unspecified have no lemma here, so no proof rests on the value the model chose for them. -/

namespace Sys2Proof.Machine.State

@[simp] theorem reset_fsm : reset.fsm = .idle := rfl
@[simp] theorem reset_txLen : reset.txLen = 0 := rfl
@[simp] theorem reset_rxLen : reset.rxLen = 0 := rfl
@[simp] theorem reset_rxOvf : reset.rxOvf = false := rfl
@[simp] theorem reset_seqNext : reset.seqNext = 0 := rfl
@[simp] theorem reset_retriesLeft : reset.retriesLeft = 0 := rfl
@[simp] theorem reset_attempts : reset.attempts = 0 := rfl
@[simp] theorem reset_lastError : reset.lastError = none := rfl
@[simp] theorem reset_cfgTimeout : reset.cfgTimeout = 1000 := rfl
@[simp] theorem reset_cfgQuiet : reset.cfgQuiet = 4 := rfl
@[simp] theorem reset_cfgRetry : reset.cfgRetry = 0 := rfl
@[simp] theorem reset_store : reset.store = [] := rfl
@[simp] theorem reset_history : reset.history = [] := rfl
@[simp] theorem reset_out : reset.out = [] := rfl

end Sys2Proof.Machine.State

namespace Sys2Proof.Machine

/-- The store is the empty map after reset (R35), read at any address. -/
theorem Store.get_reset_store (a : Nat) : Store.get State.reset.store a = none := by
  rw [State.reset_store, Store.get_nil]

open State in
/-- Settles O1: each register's value is its reset lemma, and every store read misses because the store is empty. -/
theorem resetValues : Obligations.ResetValues :=
  ⟨reset_fsm, reset_txLen, reset_rxLen, reset_rxOvf, reset_seqNext, reset_retriesLeft, reset_attempts,
    reset_lastError, reset_cfgTimeout, reset_cfgQuiet, reset_cfgRetry, fun a => Store.get_reset_store a.toNat,
    reset_history, reset_out⟩

end Sys2Proof.Machine
end

section
/-! The CRC engine (40_crc.md R90 to R97): the shifts as an iterate, the bits still to enter the register, the table
form and the residue. -/

namespace Sys2Proof.Machine

/-! ### Shifts -/

theorem crcShifts_eq_iterate (n : Nat) (x : Word) : crcShifts n x = crcShift^[n] x := by
  induction n generalizing x with
  | zero => rfl
  | succ n ih => rw [crcShifts, ih, Function.iterate_succ_apply]

theorem crcShift_of_even {x : Word} (h : x.getLsbD 0 = false) : crcShift x = x >>> 1 := by
  rw [crcShift, h]
  rfl

/-- No polynomial is XORed in while the bits shifted out are 0. -/
theorem crcShifts_of_low_zero {n : Nat} {x : Word} (h : ∀ i < n, x.getLsbD i = false) : crcShifts n x = x >>> n := by
  induction n generalizing x with
  | zero => exact (BitVec.ushiftRight_zero x).symm
  | succ n ih =>
    have hx : ∀ i < n, (x >>> 1).getLsbD i = false := fun i hi => by
      rw [BitVec.getLsbD_ushiftRight]
      exact h (1 + i) (by omega)
    rw [crcShifts, crcShift_of_even (h 0 n.succ_pos), ih hx, ← BitVec.shiftRight_add, Nat.add_comm]

theorem crcShifts_injective (n : Nat) : Function.Injective (crcShifts n) := fun a b h => by
  have hz : crcShifts n (a ^^^ b) = 0#16 := by rw [crcShifts_xor, h, BitVec.xor_self]
  exact BitVec.xor_eq_zero_iff.mp (crcShifts_eq_zero hz)

/-! ### Bits entering the register one by one (R93) -/

/-- A shift of a register with `v` in it takes in bit 0 of `v` and leaves the rest of `v` in the register. -/
theorem crcShift_xor_eq_crcBitStep (c v : Word) : crcShift (c ^^^ v) = crcBitStep c (v.getLsbD 0) ^^^ (v >>> 1) := by
  unfold crcShift crcBitStep
  rw [BitVec.getLsbD_xor, BitVec.ushiftRight_xor_distrib]
  split
  · ac_rfl
  · rfl

/-- After `n` shifts, `n` bits of `v` have been taken in and the others are still in the register. -/
theorem crcShifts_xor_eq_foldl_crcBitStep (n : Nat) (c v : Word) :
    crcShifts n (c ^^^ v) = ((List.range n).map (fun k => v.getLsbD k)).foldl crcBitStep c ^^^ (v >>> n) := by
  induction n generalizing c v with
  | zero => simp [crcShifts]
  | succ n ih =>
    have hbits : (fun k => v.getLsbD k) ∘ Nat.succ = fun k => (v >>> 1).getLsbD k := by
      funext k
      rw [BitVec.getLsbD_ushiftRight, Nat.add_comm]
      rfl
    rw [crcShifts, crcShift_xor_eq_crcBitStep, ih, List.range_succ_eq_map, List.map_cons, List.map_map, hbits,
      List.foldl_cons, ← BitVec.shiftRight_add, Nat.add_comm 1 n]

theorem setWidth_ushiftRight_eight (b : Byte) : b.setWidth 16 >>> 8 = 0#16 := by
  apply BitVec.eq_of_getLsbD_eq
  intro i _
  simp

theorem crcByteStep_eq_foldl_crcBitStep (c : Word) (b : Byte) :
    crcByteStep c b = ((List.range 8).map (fun k => b.getLsbD k)).foldl crcBitStep c := by
  have hbits : (List.range 8).map (fun k => (b.setWidth 16).getLsbD k) = (List.range 8).map (fun k => b.getLsbD k) :=
    List.map_congr_left fun k hk => by
      have hk : k < 16 := by have := List.mem_range.mp hk; omega
      simp [hk]
  rw [crcByteStep, crcShifts_xor_eq_foldl_crcBitStep, setWidth_ushiftRight_eight, BitVec.xor_zero, hbits]

/-! ### The register's two bytes -/

theorem be16_eq_xor (h l : Byte) : be16 h l = (h.setWidth 16 <<< 8) ^^^ l.setWidth 16 := by
  apply BitVec.eq_of_getLsbD_eq
  intro i hi
  rw [be16, BitVec.getLsbD_append, BitVec.getLsbD_xor, BitVec.getLsbD_shiftLeft]
  by_cases h8 : i < 8
  · simp [h8, hi]
  · simp [h8, hi, show i - 8 < 16 by omega, BitVec.getLsbD_of_ge l i (by omega)]

theorem setWidth_hi8 (x : Word) : (hi8 x).setWidth 16 = x >>> 8 := by
  apply BitVec.eq_of_getLsbD_eq
  intro i hi
  by_cases h8 : i < 8
  · simp [hi8, h8, hi]
  · simp [hi8, h8, BitVec.getLsbD_of_ge x (8 + i) (by omega)]

theorem setWidth_lo8 (x : Word) : (lo8 x).setWidth 16 = x &&& 0x00FF#16 := by
  have hmask : 0x00FF#16 = (BitVec.allOnes 8).setWidth 16 := rfl
  apply BitVec.eq_of_getLsbD_eq
  intro i hi
  rw [hmask, BitVec.getLsbD_and, BitVec.getLsbD_setWidth, BitVec.getLsbD_setWidth, BitVec.getLsbD_allOnes, lo8,
    BitVec.getLsbD_extractLsb', Nat.zero_add]
  ac_rfl

theorem lo8_eq_setWidth (c : Word) : lo8 c = c.setWidth 8 := (BitVec.setWidth_eq_extractLsb' (by decide)).symm

theorem hi8_eq_setWidth (c : Word) : hi8 c = (c >>> 8).setWidth 8 := by
  rw [← setWidth_hi8, BitVec.setWidth_setWidth_of_le _ (by decide), BitVec.setWidth_eq]

/-- Eight shifts carry the high byte into the low half unchanged. -/
theorem crcShifts_eight_high_byte (h : Byte) : crcShifts 8 (h.setWidth 16 <<< 8) = h.setWidth 16 := by
  have hlow : ∀ i < 8, (h.setWidth 16 <<< 8).getLsbD i = false := fun i hi => by simp [hi]
  rw [crcShifts_of_low_zero hlow]
  apply BitVec.eq_of_getLsbD_eq
  intro i hi
  by_cases h8 : i < 8
  · simp [hi, show 8 + i < 16 by omega]
  · simp [BitVec.getLsbD_of_ge h i (by omega)]

/-! ### The table form (R91) -/

/-- The high byte only moves down; the low byte's part is the table entry. -/
theorem crcShifts_eight_eq_xor (x : Word) : crcShifts 8 x = (x >>> 8) ^^^ crcShifts 8 (x &&& 0x00FF#16) :=
  calc crcShifts 8 x
      = crcShifts 8 (((hi8 x).setWidth 16 <<< 8) ^^^ (lo8 x).setWidth 16) := by rw [← be16_eq_xor, be16_hi8_lo8]
    _ = (x >>> 8) ^^^ crcShifts 8 (x &&& 0x00FF#16) := by
      rw [crcShifts_xor, crcShifts_eight_high_byte, setWidth_hi8, setWidth_lo8]

theorem crcByteStep_eq_table (c : Word) (b : Byte) :
    crcByteStep c b = (c >>> 8) ^^^ crcByteStep ((c ^^^ b.setWidth 16) &&& 0x00FF#16) 0x00#8 := by
  have hhigh : (c ^^^ b.setWidth 16) >>> 8 = c >>> 8 := by
    rw [BitVec.ushiftRight_xor_distrib, setWidth_ushiftRight_eight, BitVec.xor_zero]
  have hzero (x : Word) : crcByteStep x 0x00#8 = crcShifts 8 x := congrArg (crcShifts 8) BitVec.xor_zero
  rw [hzero, crcByteStep, crcShifts_eight_eq_xor, hhigh]

/-! ### Verify and the residue (R96, R97) -/

theorem eq_be16_iff (c : Word) (h l : Byte) : c = be16 h l ↔ l = lo8 c ∧ h = hi8 c := by
  constructor
  · rintro rfl
    exact ⟨(lo8_be16 h l).symm, (hi8_be16 h l).symm⟩
  · rintro ⟨rfl, rfl⟩
    exact (be16_hi8_lo8 c).symm

/-- The first CRC byte leaves the second one in the register exactly when the two are the register's. -/
theorem crcByteStep_eq_setWidth_iff (c : Word) (h l : Byte) : crcByteStep c l = h.setWidth 16 ↔ c = be16 h l := by
  rw [crcByteStep, ← crcShifts_eight_high_byte h, (crcShifts_injective 8).eq_iff, be16_eq_xor,
    ← BitVec.xor_left_inj (x := c) (l.setWidth 16), BitVec.xor_assoc (h.setWidth 16 <<< 8), BitVec.xor_self,
    BitVec.xor_zero]

theorem crcByteStep_eq_zero_iff (c : Word) (b : Byte) : crcByteStep c b = 0#16 ↔ c = b.setWidth 16 := by
  rw [crcByteStep, ← crcShifts_zero 8, (crcShifts_injective 8).eq_iff, BitVec.xor_eq_zero_iff]

theorem crc16_append_two_eq_zero_iff (body : List Byte) (l h : Byte) :
    crc16 (body ++ [l, h]) = 0#16 ↔ crc16 body = be16 h l := by
  rw [crc16, crcFold_append, crcFold_cons, crcFold_cons, crcFold_nil, crcByteStep_eq_zero_iff,
    crcByteStep_eq_setWidth_iff]
  rfl

theorem verifyCrc_of_short {f : List Byte} (h : f.length < 2) : verifyCrc f = false := if_pos h

theorem verifyCrc_append_two (body : List Byte) (l h : Byte) :
    verifyCrc (body ++ [l, h]) = true ↔ l = lo8 (crc16 body) ∧ h = hi8 (crc16 body) := by
  simp [verifyCrc]

/-- A frame of at least two bytes is a body and its two trailing bytes. -/
theorem exists_eq_append_two {f : List Byte} (h : 2 ≤ f.length) : ∃ body l h, f = body ++ [l, h] := by
  obtain ⟨l, h, hlast⟩ := List.length_eq_two.mp (show (f.drop (f.length - 2)).length = 2 by simp; omega)
  exact ⟨f.take (f.length - 2), l, h, by rw [← hlast, List.take_append_drop]⟩

/-! ### The obligations of 40_crc.md R90 to R93 and R95 to R97 -/

theorem exec_crcByte (b : Byte) (s : State) : exec (.crcByte b) s = .next { s with crc := crcByteStep s.crc b } := rfl

/-- Settles O10: the shifts are an iterate, and the high byte enters no shift's condition. (Its name in lowerCamelCase
is the model's function's.) -/
theorem crcByteStep_forms : Obligations.CrcByteStep := by
  refine ⟨fun b s => ?_, fun b s => ?_, by decide, by decide, by decide, by decide, by decide⟩
  · rw [exec_crcByte, crcByteStep, crcShifts_eq_iterate]
    rfl
  · rw [exec_crcByte, crcByteStep_eq_table]

/-- Settles O11: by the bits of the byte that have not entered the register yet. -/
theorem crcBitSerial : Obligations.CrcBitSerial := ⟨fun _ _ => rfl, crcByteStep_eq_foldl_crcBitStep⟩

/-- Settles O18: both sides say that the register after the body is the two trailing bytes. -/
theorem streamingResidue : Obligations.StreamingResidue := fun f hf => by
  obtain ⟨body, l, h, rfl⟩ := exists_eq_append_two hf
  rw [verifyCrc_append_two, crc16_append_two_eq_zero_iff, eq_be16_iff]

/-- Settles O9. -/
theorem crcInitLoadsOnes : Obligations.CrcInitLoadsOnes := fun _ => rfl

/-- Settles O12: the meaning is the fold itself; the three values are computed. -/
theorem crc16FoldsBytes : Obligations.Crc16FoldsBytes := ⟨fun _ _ => rfl, rfl, by decide +kernel, by decide +kernel⟩

/-- Settles O13: the two bytes appended are the shifts of the register that the rule names. -/
theorem appendCrcLowByteFirst : Obligations.AppendCrcLowByteFirst := fun bs s => by
  rw [← lo8_eq_setWidth, ← hi8_eq_setWidth]
  rfl

/-- Settles O14: `Verify` on a short frame, and on a body with its two trailing bytes. -/
theorem verifyComparesTrailingBytes : Obligations.VerifyComparesTrailingBytes := fun f s =>
  ⟨crcAfterVerify s.crc f, verifyCrc f, rfl, verifyCrc_of_short,
    fun body l h hf => hf ▸ verifyCrc_append_two body l h⟩

end Sys2Proof.Machine
end

section
/-! The request encoder (41_encode.md R100 to R110): which fields pass, what a frame holds and that it can be read back,
and the two answers of a request instruction in Idle. -/

namespace Sys2Proof.Machine

open Sys2Proof.Safety

/-! ### The parameter check (R100) -/

@[simp] theorem fieldsOk_rc (q : Word) : fieldsOk 0x01#8 (.qty q) = decide (1 ≤ q.toNat ∧ q.toNat ≤ 2000) := rfl

@[simp] theorem fieldsOk_rhr (q : Word) : fieldsOk 0x03#8 (.qty q) = decide (1 ≤ q.toNat ∧ q.toNat ≤ 125) := rfl

@[simp] theorem fieldsOk_rir (q : Word) : fieldsOk 0x04#8 (.qty q) = decide (1 ≤ q.toNat ∧ q.toNat ≤ 125) := rfl

@[simp] theorem fieldsOk_wsc (on : Bool) : fieldsOk 0x05#8 (.coil on) = true := rfl

@[simp] theorem fieldsOk_wsr (v : Word) : fieldsOk 0x06#8 (.value v) = true := rfl

@[simp] theorem fieldsOk_wmc (q : Word) (bs : List Byte) :
    fieldsOk 0x0F#8 (.packed q bs) =
      decide (1 ≤ q.toNat ∧ q.toNat ≤ 1968 ∧ bs.length = (q.toNat + 7) / 8) := rfl

@[simp] theorem fieldsOk_wmr (q : Word) (ws : List Word) :
    fieldsOk 0x10#8 (.words q ws) = decide (1 ≤ q.toNat ∧ q.toNat ≤ 123 ∧ ws.length = q.toNat) := rfl

/-- The function codes and fields that pass `fieldsOk`, with what each says of its operands. -/
inductive PassingFields : Byte → Fields → Prop
  | rc (q : Word) (hq : 1 ≤ q.toNat ∧ q.toNat ≤ 2000) : PassingFields 0x01#8 (.qty q)
  | rhr (q : Word) (hq : 1 ≤ q.toNat ∧ q.toNat ≤ 125) : PassingFields 0x03#8 (.qty q)
  | rir (q : Word) (hq : 1 ≤ q.toNat ∧ q.toNat ≤ 125) : PassingFields 0x04#8 (.qty q)
  | wsc (on : Bool) : PassingFields 0x05#8 (.coil on)
  | wsr (v : Word) : PassingFields 0x06#8 (.value v)
  | wmc (q : Word) (bs : List Byte) (hq : 1 ≤ q.toNat ∧ q.toNat ≤ 1968 ∧ bs.length = (q.toNat + 7) / 8) :
      PassingFields 0x0F#8 (.packed q bs)
  | wmr (q : Word) (ws : List Word) (hq : 1 ≤ q.toNat ∧ q.toNat ≤ 123 ∧ ws.length = q.toNat) :
      PassingFields 0x10#8 (.words q ws)

theorem fieldsOk_iff {fc : Byte} {fields : Fields} : fieldsOk fc fields = true ↔ PassingFields fc fields := by
  constructor
  · intro h
    unfold fieldsOk at h
    split at h
    case h_8 => cases h
    all_goals rename_i hk; obtain rfl := kindOfFc_eq_some hk
    · exact .rc _ (of_decide_eq_true h)
    · exact .rhr _ (of_decide_eq_true h)
    · exact .rir _ (of_decide_eq_true h)
    · exact .wsc _
    · exact .wsr _
    · exact .wmc _ _ (of_decide_eq_true h)
    · exact .wmr _ _ (of_decide_eq_true h)
  · intro h
    cases h with
    | wsc | wsr => rfl
    | rc _ hq | rhr _ hq | rir _ hq | wmc _ _ hq | wmr _ _ hq => exact decide_eq_true hq

@[simp] theorem paramsPass_structured (fc slave : Byte) (addr : Word) (fields : Fields) :
    paramsPass (.structured fc slave addr fields) = (slave != 0#8 && fieldsOk fc fields) := rfl

@[simp] theorem paramsPass_raw (bytes : List Byte) : paramsPass (.raw bytes) = decide (bytes.length ≤ 254) := rfl

theorem paramsPass_structured_eq_false {fc slave : Byte} {addr : Word} {fields : Fields}
    (h : slave = 0#8 ∨ fieldsOk fc fields = false) : paramsPass (.structured fc slave addr fields) = false := by
  rcases h with h | h <;> simp [h]

theorem passingFields_of_paramsPass {fc slave : Byte} {addr : Word} {fields : Fields}
    (h : paramsPass (.structured fc slave addr fields) = true) : PassingFields fc fields :=
  fieldsOk_iff.mp (Bool.and_eq_true_iff.mp h).2

theorem kindOfFc_eq_none_iff (fc : Byte) :
    kindOfFc fc = none ↔ fc ∉ [0x01#8, 0x03#8, 0x04#8, 0x05#8, 0x06#8, 0x0F#8, 0x10#8] := by
  unfold kindOfFc
  split_ifs <;> simp_all

/-- For the fields of a function code, passing is having one of the seven codes and quantities in range. -/
theorem passingFields_iff {fc : Byte} {fields : Fields} (hfit : FieldsFit fc fields) :
    PassingFields fc fields ↔
      fc ∈ [0x01#8, 0x03#8, 0x04#8, 0x05#8, 0x06#8, 0x0F#8, 0x10#8] ∧
      (∀ q, fields = .qty q → 1 ≤ q.toNat ∧ q.toNat ≤ (if fc = 0x01#8 then 2000 else 125)) ∧
      (∀ q bs, fields = .packed q bs → 1 ≤ q.toNat ∧ q.toNat ≤ 1968 ∧ bs.length = (q.toNat + 7) / 8) ∧
      (∀ q ws, fields = .words q ws → 1 ≤ q.toNat ∧ q.toNat ≤ 123 ∧ ws.length = q.toNat) := by
  constructor
  · intro h
    cases h <;> simp [*]
  · rintro ⟨hfc, hread, hcoils, hwords⟩
    unfold FieldsFit at hfit
    split at hfit
    case h_8 hk => exact absurd hfc ((kindOfFc_eq_none_iff fc).mp hk)
    case h_9 => exact hfit.elim
    all_goals rename_i hk; obtain rfl := kindOfFc_eq_some hk
    · exact .rc _ (hread _ rfl)
    · exact .rhr _ (hread _ rfl)
    · exact .rir _ (hread _ rfl)
    · exact .wsc _
    · exact .wsr _
    · exact .wmc _ _ (hcoils _ _ rfl)
    · exact .wmr _ _ (hwords _ _ rfl)

theorem exec_checkParams (cmd : Command) (s : State) :
    exec (.checkParams cmd) s =
      .next { s with out := s.out ++ [if paramsPass cmd then .paramsOk else .raised .invalidParameter] } := rfl

/-- Settles O19: the message is chosen by `paramsPass`, whose structured case is `passingFields_iff`. -/
theorem checkParamsDecides : Obligations.CheckParamsDecides := by
  refine ⟨fun bytes s => ?_, fun fc slave addr fields s hfit => ⟨_, exec_checkParams _ s, ?_, ?_⟩⟩
  · simp [exec_checkParams]
  · split <;> simp
  · rw [← passingFields_iff hfit, ← fieldsOk_iff]
    simp

/-! ### The frame (R101, R109) and what is read back from it (R110) -/

theorem verifyCrc_appendCrc (bs : List Byte) : verifyCrc (appendCrc bs) = true :=
  (verifyCrc_append_two bs _ _).mpr ⟨rfl, rfl⟩

theorem appendCrc_injective {as bs : List Byte} (h : appendCrc as = appendCrc bs) : as = bs := by
  simpa [appendCrc] using congrArg dropCrc h

theorem frame_raw_length (bytes : List Byte) : (Command.frame (.raw bytes)).length = bytes.length + 2 :=
  appendCrc_length bytes

theorem frame_structured_length (fc slave : Byte) (addr : Word) (fields : Fields) :
    (Command.frame (.structured fc slave addr fields)).length = 8 + (Fields.tail fields).length := by
  simp [Command.frame, Command.body, requestBytes]
  omega

theorem wordAt_frame_addr (fc slave : Byte) (addr : Word) (fields : Fields) :
    wordAt (Command.frame (.structured fc slave addr fields)) 2 = addr :=
  be16_hi8_lo8 addr

theorem wordAt_frame_word (fc slave : Byte) (addr : Word) (fields : Fields) :
    wordAt (Command.frame (.structured fc slave addr fields)) 4 = Fields.word fields :=
  be16_hi8_lo8 (Fields.word fields)

theorem tail_packed_length (q : Word) (bs : List Byte) : (Fields.tail (.packed q bs)).length = bs.length + 1 := rfl

theorem tail_words_length (q : Word) (ws : List Word) :
    (Fields.tail (.words q ws)).length = 2 * ws.length + 1 := by
  simp [Fields.tail]

/-- The data of a passing request is at most 246 bytes, after its byte count. -/
theorem PassingFields.tail_length_le {fc : Byte} {fields : Fields} (h : PassingFields fc fields) :
    (Fields.tail fields).length ≤ 247 := by
  cases h with
  | wmc q bs hq => rw [tail_packed_length]; omega
  | wmr q ws hq => rw [tail_words_length]; omega
  | _ => exact Nat.zero_le _

/-- The fields a request frame carries, from its function code, second word and tail: the inverse of `Fields.word` and
`Fields.tail` on the fields that pass. -/
def fieldsOfFrame (fc : Byte) (f2 : Word) (tail : List Byte) : Fields :=
  match kindOfFc fc with
  | some .wsc => .coil (f2 == 0xFF00#16)
  | some .wsr => .value f2
  | some .wmc => .packed f2 tail.tail
  | some .wmr => .words f2 (bytesToWords tail.tail)
  | _ => .qty f2

theorem PassingFields.fieldsOfFrame_eq {fc : Byte} {fields : Fields} (h : PassingFields fc fields) :
    fieldsOfFrame fc (Fields.word fields) (Fields.tail fields) = fields := by
  cases h with
  | wsc on => cases on <;> rfl
  | wmr q ws hq => exact congrArg (Fields.words q) (bytesToWords_wordsToBytes ws)
  | _ => rfl

/-- A structured Command that passes is determined by its frame. -/
theorem eq_of_frame_eq {fc fc' slave slave' : Byte} {addr addr' : Word} {fields fields' : Fields}
    (h : PassingFields fc fields) (h' : PassingFields fc' fields')
    (hframe : Command.frame (.structured fc slave addr fields) = Command.frame (.structured fc' slave' addr' fields')) :
    fc = fc' ∧ slave = slave' ∧ addr = addr' ∧ fields = fields' := by
  have haddr : addr = addr' := by
    rw [← wordAt_frame_addr fc slave addr fields, hframe, wordAt_frame_addr]
  have hword : Fields.word fields = Fields.word fields' := by
    rw [← wordAt_frame_word fc slave addr fields, hframe, wordAt_frame_word]
  have hbody := appendCrc_injective hframe
  simp only [Command.body, requestBytes, List.cons.injEq] at hbody
  obtain ⟨rfl, rfl, -, -, -, -, htail⟩ := hbody
  refine ⟨rfl, rfl, haddr, ?_⟩
  rw [← h.fieldsOfFrame_eq, hword, htail, h'.fieldsOfFrame_eq]

/-- Settles O21: the frame is `appendCrc` of the request bytes, its length 8 and the tail's, and its fields are read
back by `eq_of_frame_eq`. -/
theorem encoderLaws : Obligations.EncoderLaws := by
  refine ⟨fun cmd _ => verifyCrc_appendCrc _, fun bytes h => ?_, fun fc slave addr fields h => ?_,
    fun fc fc' slave slave' addr addr' fields fields' h h' hframe =>
      eq_of_frame_eq (passingFields_of_paramsPass h) (passingFields_of_paramsPass h') hframe⟩
  · rw [paramsPass_raw, decide_eq_true_eq] at h
    rw [frame_raw_length]
    omega
  · have hpass := passingFields_of_paramsPass h
    have htail := hpass.tail_length_le
    rw [frame_structured_length]
    refine ⟨by omega, by omega, rfl, wordAt_frame_addr .., wordAt_frame_word .., ?_, ?_, ?_, ?_, ?_⟩
    · rintro q rfl
      rfl
    · rintro on rfl
      rfl
    · rintro v rfl
      rfl
    · rintro q bs rfl
      cases hpass with
      | wmc _ _ hq => rw [tail_packed_length]; omega
    · rintro q ws rfl
      cases hpass with
      | wmr _ _ hq => rw [tail_words_length]; omega

/-! ### A request as an instruction (30_encoding.md R84) -/

theorem exec_of_requestOf {i : Instr} {cmd : Command} {timeout : Option Nat} {now : Nat}
    (h : requestOf i = some (cmd, timeout, now)) (s : State) : exec i s = .next (dispatchOp cmd timeout now s) := by
  cases i <;> cases h <;> rfl

/-- A DISPATCH that passes in Idle starts a transaction with the Command's frame. -/
theorem dispatchOp_started {cmd : Command} {s : State} (hpass : paramsPass cmd = true) (hidle : s.fsm = .idle)
    (hwf : Memory.Wf 256 s.tx) (timeout : Option Nat) (now : Nat) :
    Started s (dispatchOp cmd timeout now s) (Command.frame cmd) timeout now := by
  have hlen := frame_length_le hpass
  rw [dispatchOp_idle hpass hidle]
  exact {
    txLen := rfl
    txFrame := fun i hi => by
      have := Memory.read_writeBytes_inside hwf (a := 0) (by omega) hi
      rwa [Nat.zero_add] at this
    txRest := fun i hi => Memory.read_writeBytes_outside (by omega)
    curSeq := rfl
    seqNext := rfl
    tStart := rfl
    timeoutL := rfl
    quietL := rfl
    retriesLeft := rfl
    attempts := rfl
    rxLen := rfl
    rxOvf := rfl
    tLastRx := rfl
    deadline := rfl
    fsm := rfl
    out := congrArg (fun bs => s.out ++ [Msg.tpWrite bs]) (txBytes_encodeOp hpass hwf)
    rxSame := rfl
    lastErrorSame := rfl
    cfgSame := ⟨rfl, rfl, rfl⟩
    storeSame := rfl
    historySame := rfl
    inboxSame := rfl }

theorem dispatchOp_req {cmd : Command} {s : State} (hpass : paramsPass cmd = true) (hidle : s.fsm = .idle)
    (timeout : Option Nat) (now : Nat) : (dispatchOp cmd timeout now s).req = Command.latch s.req cmd := by
  rw [dispatchOp_idle hpass hidle]
  rfl

/-- A passing request in Idle: the transaction is started and the request latched. -/
theorem exec_request_starts {i : Instr} {cmd : Command} {timeout : Option Nat} {now : Nat} {s : State}
    (hreq : requestOf i = some (cmd, timeout, now)) (hidle : s.fsm = .idle) (hwf : Memory.Wf 256 s.tx)
    (hpass : paramsPass cmd = true) :
    ∃ t, exec i s = .next t ∧ Started s t (Command.frame cmd) timeout now ∧ t.req = Command.latch s.req cmd :=
  ⟨_, exec_of_requestOf hreq s, dispatchOp_started hpass hidle hwf timeout now,
    dispatchOp_req hpass hidle timeout now⟩

/-- A request that does not pass, in any state. -/
theorem exec_request_refused {i : Instr} {cmd : Command} {timeout : Option Nat} {now : Nat}
    (hreq : requestOf i = some (cmd, timeout, now)) (hfail : paramsPass cmd = false) (s : State) :
    exec i s =
      .next { s with
        lastError := some .invalidParameter
        out := s.out ++ [.outcome (.failure .invalidParameter)] } := by
  rw [exec_of_requestOf hreq, dispatchOp_invalid hfail]
  rfl

/-! ### The obligations of R102 to R109 -/

/-- Settles O22: the frame and the latch are those of the Command, and the quantity decides whether it passes. -/
theorem readRequests : Obligations.ReadRequests := fun slave addr qty timeout now s => by
  refine ⟨fun hidle hwf hslave hmin hmax => ?_, fun hidle hwf hslave hmin hmax => ?_,
    fun hidle hwf hslave hmin hmax => ?_, fun hbad => ?_, fun hbad => ⟨?_, ?_⟩⟩
  · exact exec_request_starts (cmd := .structured 0x01#8 slave addr (.qty qty)) rfl hidle hwf
      (by simp [hslave, hmin, hmax])
  · exact exec_request_starts (cmd := .structured 0x03#8 slave addr (.qty qty)) rfl hidle hwf
      (by simp [hslave, hmin, hmax])
  · exact exec_request_starts (cmd := .structured 0x04#8 slave addr (.qty qty)) rfl hidle hwf
      (by simp [hslave, hmin, hmax])
  · exact exec_request_refused rfl (paramsPass_structured_eq_false (hbad.imp_right fun h => by simp; omega)) s
  · exact exec_request_refused rfl (paramsPass_structured_eq_false (hbad.imp_right fun h => by simp; omega)) s
  · exact exec_request_refused rfl (paramsPass_structured_eq_false (hbad.imp_right fun h => by simp; omega)) s

/-- Settles O23: the value word is computed for either coil value, and only the slave id can fail the check. -/
theorem writeSingleRequests : Obligations.WriteSingleRequests := fun slave addr value coil timeout now s => by
  refine ⟨fun hidle hwf hslave => ?_, fun hidle hwf hslave => ?_, fun hslave => ⟨?_, ?_⟩⟩
  · cases coil with
    | false =>
      exact exec_request_starts (cmd := .structured 0x05#8 slave addr (.coil false)) rfl hidle hwf (by simp [hslave])
    | true =>
      exact exec_request_starts (cmd := .structured 0x05#8 slave addr (.coil true)) rfl hidle hwf (by simp [hslave])
  · exact exec_request_starts (cmd := .structured 0x06#8 slave addr (.value value)) rfl hidle hwf (by simp [hslave])
  · exact exec_request_refused rfl (paramsPass_structured_eq_false (.inl hslave)) s
  · exact exec_request_refused rfl (paramsPass_structured_eq_false (.inl hslave)) s

theorem wordsToBytes_eq_flatMap (ws : List Word) : wordsToBytes ws = ws.flatMap (fun w => [hi8 w, lo8 w]) := by
  induction ws with
  | nil => rfl
  | cons w ws ih => rw [wordsToBytes, ih]; rfl

/-- Settles O24: the byte count of the frame is the length of the data, which the check holds to the quantity. -/
theorem writeMultipleRequests : Obligations.WriteMultipleRequests := fun slave addr qty packed words timeout now s => by
  refine ⟨fun hidle hwf hslave hmin hmax hlen => ?_, fun hidle hwf hslave hmin hmax hlen => ?_, fun hbad => ?_,
    fun hbad => ?_⟩
  · rw [hlen]
    exact exec_request_starts (cmd := .structured 0x0F#8 slave addr (.packed qty packed)) rfl hidle hwf
      (by simp [hslave, hmin, hmax, hlen])
  · rw [hlen, ← wordsToBytes_eq_flatMap]
    exact exec_request_starts (cmd := .structured 0x10#8 slave addr (.words qty words)) rfl hidle hwf
      (by simp [hslave, hmin, hmax, hlen])
  · exact exec_request_refused rfl (paramsPass_structured_eq_false (hbad.imp_right fun h => by simp; omega)) s
  · exact exec_request_refused rfl (paramsPass_structured_eq_false (hbad.imp_right fun h => by simp; omega)) s

/-- Settles O25: the body of a raw Command is its bytes, and its latch's kind is RAW. -/
theorem rawRequest : Obligations.RawRequest := fun bytes timeout now s => by
  refine ⟨fun hidle hwf hlen => ?_, fun hlen => ?_⟩
  · have hpass : paramsPass (.raw bytes) = true := decide_eq_true hlen
    obtain ⟨t, hexec, hstarted, hreq⟩ := exec_request_starts (i := .raw bytes timeout now) rfl hidle hwf hpass
    exact ⟨t, hexec, hstarted, congrArg Req.kind hreq⟩
  · exact exec_request_refused (cmd := .raw bytes) rfl (by simpa using hlen) s

end Sys2Proof.Machine
end

section
/-! The reply decoder (42_decode.md R120 to R129): the result of each step of `Decode`, each shape's two results, and
the data bytes and words of a read reply by position. -/

namespace Sys2Proof.Machine

open Sys2Proof.Safety

/-! ### The prologue (R120 steps 1 to 4) -/

theorem exec_decodeReply (f : List Byte) (ovf : Bool) (kind : Kind) (s : State) :
    exec (.decodeReply f ovf kind) s =
      .next { s with
        crc := crcAfterDecode s.crc f ovf
        out := s.out ++ [.decoded (decodeFrame f ovf kind)] } := rfl

theorem decodeWith_of_short {f : List Byte} {ovf : Bool} (h : ovf = true ∨ f.length < 5)
    (shape : List Byte → DecodeResult) : decodeWith shape f ovf = .malformed .length := if_pos h

theorem decodeWith_of_bad_crc {f : List Byte} (hlen : 5 ≤ f.length) (hcrc : verifyCrc f = false)
    (shape : List Byte → DecodeResult) : decodeWith shape f false = .malformed .crc := by
  simp [decodeWith, hcrc, Nat.not_lt.mpr hlen]

theorem decodeWith_of_good {f : List Byte} (hlen : 5 ≤ f.length) (hcrc : verifyCrc f = true)
    (shape : List Byte → DecodeResult) : decodeWith shape f false = shape f := by
  simp [decodeWith, hcrc, Nat.not_lt.mpr hlen]

theorem parseReply_raw (f : List Byte) : parseReply .raw f = .decoded (.rawReply f) := rfl

theorem parseReply_of_exception {kind : Kind} {f : List Byte} (hkind : kind ≠ .raw)
    (hbit : (byteAt f 1).getLsbD 7 = true) : parseReply kind f = parseException f := by
  rw [parseReply, if_neg hkind, if_pos hbit]

/-- For RAW too: its shape is the same before and after the exception's. -/
theorem parseReply_of_no_exception {f : List Byte} (hbit : (byteAt f 1).getLsbD 7 = false) (kind : Kind) :
    parseReply kind f = parseByKind kind f := by
  by_cases hkind : kind = .raw
  · rw [hkind, parseReply_raw]
    rfl
  · rw [parseReply, if_neg hkind, hbit, if_neg Bool.false_ne_true]

/-- A frame that passes the prologue has the result of its kind's shape. -/
theorem decodeFrame_of_reachesShape {f : List Byte} (h : ReachesShape f) (kind : Kind) :
    decodeFrame f false kind = parseByKind kind f := by
  obtain ⟨hlen, hcrc, hbit⟩ := h
  rw [decodeFrame, decodeWith_of_good hlen hcrc, parseReply_of_no_exception hbit]

theorem exec_decodeReply_of_reachesShape {f : List Byte} (h : ReachesShape f) (kind : Kind) (s : State) :
    exec (.decodeReply f false kind) s =
      .next { s with
        crc := crcAfterDecode s.crc f false
        out := s.out ++ [.decoded (parseByKind kind f)] } := by
  rw [exec_decodeReply, decodeFrame_of_reachesShape h]

/-! ### The shapes (R121 to R128) -/

/-- Both register reads have the shape RSP-RDREGS. -/
theorem parseByKind_registers {kind : Kind} (h : kind = .rhr ∨ kind = .rir) (f : List Byte) :
    parseByKind kind f = parseRegs f := by
  rcases h with rfl | rfl <;> rfl

/-- The four writes have one reply shape. -/
theorem parseByKind_writes {kind : Kind} (h : kind = .wsc ∨ kind = .wsr ∨ kind = .wmc ∨ kind = .wmr)
    (f : List Byte) : parseByKind kind f = parseEcho f := by
  rcases h with rfl | rfl | rfl | rfl <;> rfl

theorem parseException_of_length {f : List Byte} (h : f.length = 5) :
    parseException f = .decoded (.exception (byteAt f 0) (byteAt f 1) (byteAt f 2)) := if_neg (not_not_intro h)

theorem parseException_of_length_ne {f : List Byte} (h : f.length ≠ 5) : parseException f = .malformed .length :=
  if_pos h

theorem parseEcho_of_length {f : List Byte} (h : f.length = 8) :
    parseEcho f = .decoded (.echo (byteAt f 0) (byteAt f 1) (wordAt f 2) (wordAt f 4)) := if_neg (not_not_intro h)

theorem parseEcho_of_length_ne {f : List Byte} (h : f.length ≠ 8) : parseEcho f = .malformed .length := if_pos h

theorem parseBits_of_count {f : List Byte} (h : (byteAt f 2).toNat + 5 = f.length) :
    parseBits f = .decoded (.bits (byteAt f 0) (byteAt f 1) (byteAt f 2) (replyData f)) :=
  if_neg (not_not_intro (by omega))

/-- The length bound makes the shape's truncated subtraction exact. -/
theorem parseBits_of_count_ne {f : List Byte} (hlen : 5 ≤ f.length) (h : (byteAt f 2).toNat + 5 ≠ f.length) :
    parseBits f = .malformed .length := if_pos (by omega)

theorem parseRegs_of_count {f : List Byte} (h : (byteAt f 2).toNat + 5 = f.length)
    (heven : (byteAt f 2).toNat % 2 = 0) :
    parseRegs f = .decoded (.regs (byteAt f 0) (byteAt f 1) (byteAt f 2) (bytesToWords (replyData f))) := by
  rw [parseRegs, if_neg (by omega), if_neg (by omega)]

theorem parseRegs_of_bad_count {f : List Byte} (hlen : 5 ≤ f.length)
    (h : (byteAt f 2).toNat + 5 ≠ f.length ∨ (byteAt f 2).toNat % 2 = 1) : parseRegs f = .malformed .length := by
  rw [parseRegs]
  split
  · rfl
  · rw [if_pos (by omega)]

/-! ### The data of a read reply by position -/

theorem replyData_length {f : List Byte} (h : (byteAt f 2).toNat + 5 = f.length) :
    (replyData f).length = (byteAt f 2).toNat := by
  rw [replyData, List.length_take, List.length_drop]
  omega

theorem getD_replyData {f : List Byte} {k : Nat} (hk : k < (byteAt f 2).toNat) :
    (replyData f).getD k 0#8 = byteAt f (3 + k) := by
  rw [replyData, List.getD_eq_getElem?_getD, List.getElem?_take_of_lt hk, List.getElem?_drop,
    ← List.getD_eq_getElem?_getD, byteAt]

/-- Word `k` of a byte string is its bytes `2k` and `2k + 1`, high byte first. -/
theorem getElem_bytesToWords : ∀ (bs : List Byte) (k : Nat) (hk : k < (bytesToWords bs).length),
    (bytesToWords bs)[k] = be16 (bs.getD (2 * k) 0#8) (bs.getD (2 * k + 1) 0#8)
  | [], _, hk => absurd hk (Nat.not_lt_zero _)
  | [_], _, hk => absurd hk (Nat.not_lt_zero _)
  | _ :: _ :: _, 0, _ => rfl
  | _ :: _ :: bs, k + 1, hk => getElem_bytesToWords bs k (Nat.lt_of_succ_lt_succ hk)

/-! ### The obligations of R120 to R129 -/

/-- Settles O39: each premise selects one step of the prologue. -/
theorem decodePrologue : Obligations.DecodePrologue := fun f ovf kind s => by
  refine ⟨_, decodeFrame f ovf kind, exec_decodeReply f ovf kind s, fun hshort => decodeWith_of_short hshort _, ?_, ?_⟩
  · rintro rfl hlen hcrc
    exact decodeWith_of_bad_crc hlen hcrc _
  · rintro rfl hlen hcrc
    rw [decodeFrame, decodeWith_of_good hlen hcrc]
    refine ⟨?_, fun hkind hbit => ?_⟩
    · rintro rfl
      exact parseReply_raw f
    · rw [parseReply_of_exception hkind hbit]
      exact ⟨parseException_of_length, parseException_of_length_ne⟩

/-- Settles O40: the shape is RSP-RDBITS, whose data are the frame's bytes from byte 3 on. -/
theorem readBitsReply : Obligations.ReadBitsReply := fun f s hf => by
  refine ⟨_, parseBits f, exec_decodeReply_of_reachesShape hf .rc s, parseBits_of_count_ne hf.1, fun hcount => ?_⟩
  refine ⟨replyData f, parseBits_of_count hcount, replyData_length hcount, fun k hk => ?_⟩
  rw [← List.getD_eq_getElem _ 0#8 hk]
  exact getD_replyData (replyData_length hcount ▸ hk)

/-- Settles O41: the shape is RSP-RDREGS, whose words are the data bytes in pairs. -/
theorem readRegistersReply : Obligations.ReadRegistersReply := fun f kind s hkind hf => by
  have hexec := exec_decodeReply_of_reachesShape hf kind s
  rw [parseByKind_registers hkind] at hexec
  refine ⟨_, parseRegs f, hexec, parseRegs_of_bad_count hf.1, fun hcount heven => ?_⟩
  have hlen : (bytesToWords (replyData f)).length = (byteAt f 2).toNat / 2 := by
    rw [bytesToWords_length, replyData_length hcount]
  refine ⟨bytesToWords (replyData f), parseRegs_of_count hcount heven, hlen, fun k hk => ?_⟩
  have hk' : k < (byteAt f 2).toNat / 2 := hlen ▸ hk
  have hlow : 3 + (2 * k + 1) = 4 + 2 * k := by omega
  rw [getElem_bytesToWords, getD_replyData (by omega), getD_replyData (by omega), hlow]
  rfl

/-- Settles O42: the shape is the echo's for all four kinds. -/
theorem echoReplies : Obligations.EchoReplies := fun f kind s hkind hf => by
  have hexec := exec_decodeReply_of_reachesShape hf kind s
  rw [parseByKind_writes hkind] at hexec
  exact ⟨_, parseEcho f, hexec, parseEcho_of_length_ne, parseEcho_of_length⟩

end Sys2Proof.Machine
end

section
/-! The validator (43_validate.md R140 to R148): what a decoded reply to a structured request is, the results of the
checks in their order, and the verdicts that Decode then Validate can have. -/

namespace Sys2Proof.Machine

open Sys2Proof.Safety

/-! ### What a decoded reply is (42_decode.md R120 to R128) -/

theorem decodeFrame_eq_decoded {f : List Byte} {ovf : Bool} {kind : Kind} {d : Decoded}
    (h : decodeFrame f ovf kind = .decoded d) : verifyCrc f = true ∧ parseReply kind f = .decoded d := by
  rw [decodeFrame, decodeWith] at h
  split at h
  · cases h
  · split at h
    · cases h
    · next hcrc => exact ⟨by simpa using hcrc, h⟩

/-- A decoded reply in the shape of one of the seven kinds, not the exception's, with slave id `x` and function code
`fc`. -/
inductive NormalReply (x fc : Byte) : Decoded → Prop
  | bits (bc : Byte) (data : List Byte) : NormalReply x fc (.bits x fc bc data)
  | regs (bc : Byte) (values : List Word) : NormalReply x fc (.regs x fc bc values)
  | echo (a v : Word) : NormalReply x fc (.echo x fc a v)

theorem NormalReply.headerOf_eq {x fc : Byte} {d : Decoded} (h : NormalReply x fc d) : headerOf d = some (x, fc) := by
  cases h <;> rfl

theorem normalReply_of_parseBits {f : List Byte} {d : Decoded} (h : parseBits f = .decoded d) :
    NormalReply (byteAt f 0) (byteAt f 1) d := by
  rw [parseBits] at h
  split at h <;> cases h
  exact .bits _ _

theorem normalReply_of_parseRegs {f : List Byte} {d : Decoded} (h : parseRegs f = .decoded d) :
    NormalReply (byteAt f 0) (byteAt f 1) d := by
  rw [parseRegs] at h
  split at h
  · cases h
  · split at h <;> cases h
    exact .regs _ _

theorem normalReply_of_parseEcho {f : List Byte} {d : Decoded} (h : parseEcho f = .decoded d) :
    NormalReply (byteAt f 0) (byteAt f 1) d := by
  rw [parseEcho] at h
  split at h <;> cases h
  exact .echo _ _

theorem normalReply_of_parseByKind {kind : Kind} {f : List Byte} {d : Decoded} (hkind : kind ≠ .raw)
    (h : parseByKind kind f = .decoded d) : NormalReply (byteAt f 0) (byteAt f 1) d := by
  cases kind with
  | rc => exact normalReply_of_parseBits h
  | rhr | rir => exact normalReply_of_parseRegs h
  | wsc | wsr | wmc | wmr => exact normalReply_of_parseEcho h
  | raw => exact absurd rfl hkind

/-- Bit 7 of byte 1 tells the exception from the other shapes. -/
theorem parseReply_eq_decoded {kind : Kind} {f : List Byte} {d : Decoded} (hkind : kind ≠ .raw)
    (h : parseReply kind f = .decoded d) :
    ((byteAt f 1).getLsbD 7 = true ∧ f.length = 5 ∧ d = .exception (byteAt f 0) (byteAt f 1) (byteAt f 2)) ∨
    ((byteAt f 1).getLsbD 7 = false ∧ NormalReply (byteAt f 0) (byteAt f 1) d) := by
  cases hbit : (byteAt f 1).getLsbD 7 with
  | true =>
    rw [parseReply_of_exception hkind hbit, parseException] at h
    split at h
    · cases h
    · next hlen =>
      cases h
      exact .inl ⟨rfl, not_not.mp hlen, rfl⟩
  | false =>
    rw [parseReply_of_no_exception hbit] at h
    exact .inr ⟨rfl, normalReply_of_parseByKind hkind h⟩

/-! ### The checks (R140 to R145) -/

/-- Checks 1 and 2 look at the header alone. -/
theorem validateResponse_of_headerOf {d : Decoded} {x fc : Byte} (h : headerOf d = some (x, fc)) (req : Req) :
    validateResponse d req =
      if x ≠ req.slaveId then malformedVerdict .slaveId
      else if fc ≠ req.fc ∧ fc ≠ (req.fc ||| 0x80#8) then malformedVerdict .function
      else validateBody req d := by
  cases d <;> cases h <;> rfl

/-- A response with a header fails check 1 or 2, or passes both and goes on to the rest. -/
theorem validateResponse_cases {d : Decoded} {x fc : Byte} (h : headerOf d = some (x, fc)) (req : Req) :
    (∃ r, validateResponse d req = malformedVerdict r) ∨
    (x = req.slaveId ∧ (fc = req.fc ∨ fc = (req.fc ||| 0x80#8)) ∧ validateResponse d req = validateBody req d) := by
  rw [validateResponse_of_headerOf h]
  split
  · exact .inl ⟨_, rfl⟩
  · next hslave =>
    split
    · exact .inl ⟨_, rfl⟩
    · next hfc => exact .inr ⟨not_not.mp hslave, by tauto, rfl⟩

/-- No check past the second one answers a normal reply with an exception. -/
theorem NormalReply.validateBody_cases {x fc : Byte} {d : Decoded} (h : NormalReply x fc d) (req : Req) :
    (∃ r, validateBody req d = malformedVerdict r) ∨ (∃ p, validateBody req d = .success p) := by
  cases h <;>
  · rw [validateBody]
    split
    · exact .inl ⟨_, rfl⟩
    · exact .inr ⟨_, rfl⟩

/-! ### Function codes and their exception variants -/

theorem getLsbD_seven_exceptionVariant (fc : Byte) : (fc ||| 0x80#8).getLsbD 7 = true := by
  rw [BitVec.getLsbD_or]
  exact Bool.or_true _

theorem or_eq_self_of_getLsbD_seven {fc : Byte} (h : fc.getLsbD 7 = true) : (fc ||| 0x80#8) = fc := by
  revert fc
  decide

/-! ### Decode, then Validate (44_sequencer.md R163) -/

theorem judge_raw {req : Req} (hkind : req.kind = .raw) (f : List Byte) (ovf : Bool) :
    (∃ r, judge f ovf req = malformedVerdict r) ∨ judge f ovf req = .success (.raw f) := by
  rw [judge]
  split
  · exact .inl ⟨_, rfl⟩
  · next d hd =>
    have hparse := (decodeFrame_eq_decoded hd).2
    rw [hkind, parseReply_raw] at hparse
    cases hparse
    exact .inr rfl

/-- The verdicts on a structured request: malformed, the device's exception, or a success. -/
theorem judge_structured {req : Req} (hkind : req.kind ≠ .raw) (f : List Byte) (ovf : Bool) :
    (∃ r, judge f ovf req = malformedVerdict r) ∨
    (f.length = 5 ∧ verifyCrc f = true ∧ byteAt f 0 = req.slaveId ∧ byteAt f 1 = (req.fc ||| 0x80#8) ∧
      judge f ovf req = .failure (.deviceException (byteAt f 2))) ∨
    (byteAt f 0 = req.slaveId ∧ byteAt f 1 = req.fc ∧ ∃ p, judge f ovf req = .success p) := by
  rw [judge]
  split
  · exact .inl ⟨_, rfl⟩
  · next d hd =>
    obtain ⟨hcrc, hparse⟩ := decodeFrame_eq_decoded hd
    obtain ⟨hbit, hlen, rfl⟩ | ⟨hbit, hnormal⟩ := parseReply_eq_decoded hkind hparse
    · obtain hbad | ⟨hslave, hfc, hbody⟩ :=
        validateResponse_cases (d := .exception (byteAt f 0) (byteAt f 1) (byteAt f 2)) rfl req
      · exact .inl hbad
      · have hvariant : byteAt f 1 = (req.fc ||| 0x80#8) := by
          obtain hfc | hfc := hfc
          · rw [← hfc, or_eq_self_of_getLsbD_seven hbit]
          · exact hfc
        exact .inr (.inl ⟨hlen, hcrc, hslave, hvariant, hbody⟩)
    · obtain hbad | ⟨hslave, hfc, hbody⟩ := validateResponse_cases hnormal.headerOf_eq req
      · exact .inl hbad
      · have hsame : byteAt f 1 = req.fc := hfc.resolve_right fun hfc => by
          rw [hfc, getLsbD_seven_exceptionVariant] at hbit
          cases hbit
        rw [hbody]
        exact (hnormal.validateBody_cases req).imp_right fun hsuccess => .inr ⟨hslave, hsame, hsuccess⟩

/-! ### VALIDATE (44_sequencer.md R163) -/

theorem exec_validate_of_validating {s : State} (h : s.fsm = .validating) (now : Nat) :
    exec (.validate now) s = .next (validateOp now s) := congrArg Host.Outcome.next (if_pos h)

/-! ### The obligation of R148 -/

/-- Settles O46: the verdict on the frame is one of those of `judge_raw` or `judge_structured`, and VALIDATE closes. -/
theorem validatorLaws : Obligations.ValidatorLaws := by
  refine ⟨fun f ovf req code h => ?_, fun f ovf req p hkind h => ?_, fun now s hs => ?_⟩
  · by_cases hkind : req.kind = .raw
    · obtain ⟨r, hv⟩ | hv := judge_raw hkind f ovf <;> cases hv.symm.trans h
    · obtain ⟨r, hv⟩ | ⟨hlen, hcrc, hslave, hfc, hv⟩ | ⟨-, -, p, hv⟩ := judge_structured hkind f ovf <;>
        cases hv.symm.trans h
      exact ⟨hlen, hcrc, hslave, hfc, rfl⟩
  · obtain ⟨r, hv⟩ | ⟨-, -, -, -, hv⟩ | ⟨hslave, hfc, -⟩ := judge_structured hkind f ovf
    · cases hv.symm.trans h
    · cases hv.symm.trans h
    · exact ⟨hslave, hfc⟩
  · exact ⟨_, _, exec_validate_of_validating hs now, rfl, rfl, rfl⟩

end Sys2Proof.Machine
end

section
/-! The sequencer (44_sequencer.md R153 to R168): what each event does in the state that takes it and in the others, the
branches of EvalWait, and the closed form of a Close with a failure. -/

namespace Sys2Proof.Machine

open Sys2Proof.Safety

/-! ### DISPATCH (R153, R154) -/

theorem exec_encodeFrame_of_pass {cmd : Command} (hpass : paramsPass cmd = true) (s : State) :
    exec (.encodeFrame cmd) s = .next (encodeOp cmd s) := congrArg Host.Outcome.next (if_pos hpass)

/-- A request that passes outside Idle. -/
theorem exec_request_busy {i : Instr} {cmd : Command} {timeout : Option Nat} {now : Nat} {s : State}
    (hreq : requestOf i = some (cmd, timeout, now)) (hpass : paramsPass cmd = true) (hbusy : s.fsm ≠ .idle) :
    exec i s = .next { s with lastError := some .busy, out := s.out ++ [.outcome (.failure .busy)] } := by
  rw [exec_of_requestOf hreq, dispatchOp_busy hpass hbusy]
  rfl

/-- Settles O26: either instruction is a request, and its three ways are those of any request. -/
theorem dispatchThreeWays : Obligations.DispatchThreeWays := fun i cmd timeout now s hi => by
  have hreq : requestOf i = some (cmd, timeout, now) := by
    obtain ⟨bytes, rfl, rfl⟩ | ⟨fc, slave, addr, fields, rfl, rfl⟩ := hi <;> rfl
  refine ⟨fun hfail => exec_request_refused hreq hfail s, exec_request_busy hreq, fun hpass hidle hwf => ?_⟩
  obtain ⟨t, hexec, hstarted, hlatch⟩ := exec_request_starts hreq hidle hwf hpass
  exact ⟨t, encodeOp cmd s, hexec, hstarted, exec_encodeFrame_of_pass hpass s, hlatch⟩

/-! ### StartAttempt (R165) -/

/-- Settles O29. -/
theorem startAttemptSends : Obligations.StartAttemptSends := fun _ _ => rfl

/-! ### Close (R160) -/

theorem exec_close (v : Verdict) (now : Nat) (s : State) : exec (.close v now) s = .next (closeOp v now s) := rfl

/-- A close with a failure stores nothing and does not depend on the elapsed time. -/
theorem closeOp_failure (f : Failure) (now : Nat) (s : State) :
    closeOp (.failure f) now s =
      { s with
        fsm := .idle
        lastError := some f
        history := s.history ++
          [⟨s.curSeq, s.tStart, now, s.attempts, verdictTerm (.failure f), txBytes s, rxBytes s, .failure f⟩]
        out := s.out ++ [.outcome (.failure f)] } := rfl

theorem elapsedTime_of_le {tStart now : Nat} (h : tStart ≤ now) : elapsedTime tStart now = now - tStart := if_pos h

theorem verdictTerm_failed {f : Failure} (htime : f ≠ .timedOut) (hcancel : f ≠ .cancelled) :
    verdictTerm (.failure f) = .failed := by
  cases f with
  | timedOut => exact absurd rfl htime
  | cancelled => exact absurd rfl hcancel
  | malformedResponse _ | deviceException _ | transportError _ | invalidParameter | busy => rfl

/-- Only read values are stored. -/
theorem verdictStore_of_no_values {v : Verdict} (hregs : ∀ vs, v ≠ .success (.regValues vs))
    (hcoils : ∀ vs, v ≠ .success (.coilValues vs)) (addr : Word) (now : Nat) (st : Store) :
    verdictStore addr now st v = st := by
  cases v with
  | failure f => rfl
  | success p =>
    cases p with
    | regValues vs => exact absurd rfl (hregs vs)
    | coilValues vs => exact absurd rfl (hcoils vs)
    | written _ _ | raw _ => rfl

/-- Settles O31: the tag, the outcome and the elapsed time are those `closeOp` computes from the verdict. -/
theorem closeEndsTransaction : Obligations.CloseEndsTransaction := fun v now s => by
  refine ⟨closeOp v now s, verdictTerm v, verdictOutcome (elapsedTime s.tStart now) v, elapsedTime s.tStart now,
    exec_close v now s, rfl, elapsedTime_of_le, ?success, ?failure, ?timedOut, ?cancelled, ?failed, rfl, rfl,
    ?registers, ?coils, fun hregs hcoils => verdictStore_of_no_values hregs hcoils _ now s.store⟩
  case success => rintro p rfl; exact ⟨rfl, rfl, rfl⟩
  case failure => rintro f rfl; exact ⟨rfl, rfl⟩
  case timedOut => rintro rfl; rfl
  case cancelled => rintro rfl; rfl
  case failed => rintro f rfl htime hcancel; exact verdictTerm_failed htime hcancel
  case registers => rintro vs rfl; rfl
  case coils => rintro vs rfl; rfl

/-! ### EvalWait and TICK (R156, R158) -/

theorem frameComplete_iff {s : State} {now : Nat} :
    frameComplete s now = true ↔ 5 ≤ s.rxLen ∧ ∃ t, s.tLastRx = some t ∧ t + s.quietL ≤ now := by
  rw [frameComplete, Bool.and_eq_true, decide_eq_true_eq]
  refine and_congr Iff.rfl ?_
  cases s.tLastRx <;> simp

theorem evalWaitOp_of_complete {s : State} {now : Nat} (h : frameComplete s now = true) :
    evalWaitOp now s = { s with fsm := .validating } := if_pos h

theorem evalWaitOp_of_expired {s : State} {now : Nat} (h : ¬ frameComplete s now = true) (hdue : s.deadline ≤ now) :
    evalWaitOp now s = attemptFailOp .timedOut .nonfatal now s := by
  rw [evalWaitOp, if_neg h, deadlineHit, if_pos (decide_eq_true hdue)]

theorem evalWaitOp_of_pending {s : State} {now : Nat} (h : ¬ frameComplete s now = true) (hdue : now < s.deadline) :
    evalWaitOp now s = s := by
  rw [evalWaitOp, if_neg h, deadlineHit, if_neg (by simpa using hdue)]

theorem exec_tick_of_awaiting {s : State} (h : s.fsm = .awaitingResponse) (now : Nat) :
    exec (.tick now) s = .next (evalWaitOp now s) := congrArg Host.Outcome.next (if_pos h)

theorem exec_tick_ignored {s : State} (h : s.fsm ≠ .awaitingResponse) (now : Nat) : exec (.tick now) s = .next s :=
  congrArg Host.Outcome.next (if_neg h)

theorem exec_attemptFail (cls : AttemptClass) (sev : Severity) (now : Nat) (s : State) :
    exec (.attemptFail cls sev now) s = .next (attemptFailOp cls sev now s) := rfl

/-- Settles O32: both instructions are one `evalWaitOp`, whose first test is `frameComplete_iff`. -/
theorem evalWaitAndTick : Obligations.EvalWaitAndTick := by
  refine ⟨fun i now s hi => ?_, fun now _ h => exec_tick_ignored h now⟩
  have hexec : exec i s = .next (evalWaitOp now s) := by
    obtain rfl | ⟨rfl, hs⟩ := hi
    · rfl
    · exact exec_tick_of_awaiting hs now
  rw [hexec]
  refine ⟨fun t ht hle hlen hquiet => ?_, fun hwait => ?_⟩
  · rw [evalWaitOp_of_complete (frameComplete_iff.2 ⟨hlen, t, ht, by omega⟩)]
  · have hincomplete : ¬ frameComplete s now = true := by
      rw [frameComplete_iff]
      rintro ⟨hlen, t, ht, hquiet⟩
      obtain hshort | hnone | ⟨t', ht', hle, hnoise⟩ := hwait
      · omega
      · cases ht.symm.trans hnone
      · cases ht.symm.trans ht'
        omega
    refine ⟨fun hdue => ?_, fun hdue => ?_⟩
    · rw [evalWaitOp_of_expired hincomplete hdue, exec_attemptFail]
    · rw [evalWaitOp_of_pending hincomplete hdue]

/-! ### WRITE_RESULT (R155) -/

theorem exec_writeResult_ok {s : State} (h : s.fsm = .sending) (n now : Nat) :
    exec (.writeResult (.ok n) now) s =
      .next (if n < s.txLen then attemptFailOp (.transportError reasonShortWrite) .nonfatal now s
        else { s with fsm := .awaitingResponse }) := congrArg Host.Outcome.next (if_pos h)

theorem exec_writeResult_err {s : State} (h : s.fsm = .sending) (r : Text) (now : Nat) :
    exec (.writeResult (.err r) now) s = .next (attemptFailOp (.transportError r) .nonfatal now s) :=
  congrArg Host.Outcome.next (if_pos h)

theorem exec_writeResult_ignored {s : State} (h : s.fsm ≠ .sending) (res : WriteResult) (now : Nat) :
    exec (.writeResult res now) s = .next s := congrArg Host.Outcome.next (if_neg h)

/-- Settles O33: in Sending the count is compared with `tx_len`. -/
theorem writeResultDecides : Obligations.WriteResultDecides := by
  refine ⟨fun n now s hs => ⟨fun hall => ?_, fun hshort => ?_⟩, fun r now s hs => ?_,
    fun res now _ h => exec_writeResult_ignored h res now⟩
  · rw [exec_writeResult_ok hs, if_neg (Nat.not_lt.2 hall)]
  · rw [exec_writeResult_ok hs, if_pos hshort, exec_attemptFail]
  · rw [exec_writeResult_err hs, exec_attemptFail]

/-! ### CANCEL (R161) -/

theorem exec_cancel_of_awaiting {s : State} (h : s.fsm = .awaitingResponse) (now : Nat) :
    exec (.cancel now) s = .next (closeOp (.failure .cancelled) now s) := congrArg Host.Outcome.next (if_pos h)

theorem exec_cancel_ignored {s : State} (h : s.fsm ≠ .awaitingResponse) (now : Nat) : exec (.cancel now) s = .next s :=
  congrArg Host.Outcome.next (if_neg h)

/-- Settles O35: the wait is closed with `Cancelled`, whose tag is its own. -/
theorem cancelEndsWait : Obligations.CancelEndsWait :=
  ⟨fun now s hs => by
    rw [exec_cancel_of_awaiting hs, closeOp_failure]
    rfl,
  fun now _ h => exec_cancel_ignored h now⟩

/-! ### TP_FAULT and DISCONNECT (R162, R164) -/

theorem disconnectActions_true (s : State) :
    disconnectActions true s = { s with store := [], out := s.out ++ [.tpClose] } := rfl

theorem disconnectActions_false (s : State) : disconnectActions false s = { s with store := [] } := by
  rw [disconnectActions, if_neg Bool.false_ne_true, List.append_nil]

theorem exec_tpFault_of_active {s : State} (h : Fsm.active s.fsm = true) (reason : Text) (fatal : Bool) (now : Nat) :
    exec (.tpFault reason fatal now) s =
      .next (attemptFailOp (.transportError reason) (if fatal then .fatalTransport else .nonfatal) now s) :=
  congrArg Host.Outcome.next (if_pos h)

theorem exec_tpFault_of_idle {s : State} (h : s.fsm = .idle) (reason : Text) (fatal : Bool) (now : Nat) :
    exec (.tpFault reason fatal now) s = .next (if fatal then disconnectActions true s else s) := by
  simp [exec, execTpFault, h, Fsm.active]

theorem exec_disconnect_of_active {s : State} (h : Fsm.active s.fsm = true) (now : Nat) :
    exec (.disconnect now) s = .next (attemptFailOp (.transportError reasonDisconnected) .fatalHost now s) :=
  congrArg Host.Outcome.next (if_pos h)

theorem exec_disconnect_of_idle {s : State} (h : s.fsm = .idle) (now : Nat) :
    exec (.disconnect now) s = .next (disconnectActions false s) := by
  simp [exec, execDisconnect, h, Fsm.active]

/-- A fatal failure closes what the disconnect actions leave, whatever the budget. -/
theorem attemptFailOp_fatalTransport (cls : AttemptClass) (now : Nat) (s : State) :
    attemptFailOp cls .fatalTransport now s =
      closeOp (.failure (AttemptClass.failure cls)) now { s with store := [], out := s.out ++ [.tpClose] } := rfl

theorem attemptFailOp_fatalHost (cls : AttemptClass) (now : Nat) (s : State) :
    attemptFailOp cls .fatalHost now s =
      closeOp (.failure (AttemptClass.failure cls)) now { s with store := [] } := by
  rw [← disconnectActions_false]
  rfl

/-- Settles O36: in an active state the fatal causes are a Close after the disconnect actions; in Idle these alone. -/
theorem faultAndDisconnect : Obligations.FaultAndDisconnect := by
  refine ⟨fun reason now s hs => ⟨?_, ?_, ?_⟩, fun reason now s hs => ⟨?_, ?_, ?_⟩⟩
  · rw [exec_tpFault_of_active hs, exec_attemptFail]
    rfl
  · rw [exec_tpFault_of_active hs, if_pos rfl, attemptFailOp_fatalTransport, closeOp_failure, List.append_assoc]
    rfl
  · rw [exec_disconnect_of_active hs, attemptFailOp_fatalHost, closeOp_failure]
    rfl
  · rw [exec_tpFault_of_idle hs, if_pos rfl, disconnectActions_true]
  · rw [exec_tpFault_of_idle hs, if_neg Bool.false_ne_true]
  · rw [exec_disconnect_of_idle hs, disconnectActions_false]

/-! ### VALIDATE (R163) -/

theorem exec_validate_ignored {s : State} (h : s.fsm ≠ .validating) (now : Nat) : exec (.validate now) s = .next s :=
  congrArg Host.Outcome.next (if_neg h)

theorem judge_of_malformed {f : List Byte} {ovf : Bool} {req : Req} {r : MalformedReason}
    (h : decodeFrame f ovf req.kind = .malformed r) : judge f ovf req = malformedVerdict r := by
  rw [judge, h]

theorem judge_of_decoded {f : List Byte} {ovf : Bool} {req : Req} {d : Decoded}
    (h : decodeFrame f ovf req.kind = .decoded d) : judge f ovf req = validateResponse d req := by
  rw [judge, h]

/-- Settles O37: `validateOp` is a Close with the verdict of `judge`, once Decode has left its CRC. -/
theorem validateStepCloses : Obligations.ValidateStepCloses :=
  ⟨fun now s hs =>
    ⟨validateOp now s, judge (rxBytes s) s.rxOvf s.req, crcAfterDecode s.crc (rxBytes s) s.rxOvf,
      exec_validate_of_validating hs now, rfl, closeOp_fsm _ _ _, fun _ => judge_of_malformed,
      fun _ => judge_of_decoded⟩,
  fun now _ h => exec_validate_ignored h now⟩

/-! ### The operations that start and end nothing (R166 to R168, 45_register_store.md R181) -/

theorem exec_getRegister (a : Word) (now : Nat) (s : State) :
    exec (.getRegister a now) s =
      .next { s with out := s.out ++ [.register ((Store.get s.store a.toNat).map Entry.value)] } := rfl

theorem exec_cfgWrite (name : Text) (v now : Nat) (s : State) :
    exec (.cfgWrite name v now) s =
      .next (if name = nameTimeout then { s with cfgTimeout := v }
        else if name = nameQuiet then { s with cfgQuiet := v }
        else if name = nameRetry then { s with cfgRetry := v }
        else s) := rfl

theorem exec_cfgWrite_unknown {name : Text} (h : name ∉ [nameTimeout, nameQuiet, nameRetry]) (v now : Nat) (s : State) :
    exec (.cfgWrite name v now) s = .next s := by
  simp only [List.mem_cons, List.not_mem_nil, or_false, not_or] at h
  obtain ⟨htimeout, hquiet, hretry⟩ := h
  rw [exec_cfgWrite, if_neg htimeout, if_neg hquiet, if_neg hretry]

/-- Settles O38: the three register names differ, so each selects its own register. -/
theorem operationsThatDoNotMove : Obligations.OperationsThatDoNotMove := fun now v a name _ => by
  refine ⟨rfl, rfl, rfl, fun e he => ?_, fun hnone => ?_, ?_, ?_, ?_, fun h => exec_cfgWrite_unknown h v now _⟩
  · rw [exec_getRegister, he]
    rfl
  · rw [exec_getRegister, hnone]
    rfl
  · rw [exec_cfgWrite, if_pos rfl]
  · rw [exec_cfgWrite, if_neg (by decide), if_pos rfl]
  · rw [exec_cfgWrite, if_neg (by decide), if_neg (by decide), if_pos rfl]

end Sys2Proof.Machine
end

section
/-! The dispatch-time refusals (60_exceptions.md R192, R193): a request answered at once leaves the transaction in flight
as it is. -/

namespace Sys2Proof.Machine

open Sys2Proof.Safety

theorem ne_idle_of_inFlight {f : Fsm} (h : f = .sending ∨ f = .awaitingResponse ∨ f = .validating) : f ≠ .idle := by
  obtain rfl | rfl | rfl := h <;> exact Fsm.noConfusion

/-- Settles O28: every dispatching instruction is a request, and the three states of a transaction in flight are not
Idle. -/
theorem refusedAtOnce : Obligations.RefusedAtOnce := fun _ _ _ _ s hreq =>
  ⟨fun hfail => exec_request_refused hreq hfail s,
    fun hpass hflight => exec_request_busy hreq hpass (ne_idle_of_inFlight hflight)⟩

end Sys2Proof.Machine
end

section
/-! The packets (30_encoding.md sections 1, 2 and 6): decoding after encoding, encoding after decoding, and the packets
that are answered without being an instruction. -/

namespace Sys2Proof

/-! ### Decoding a packet that was encoded -/

theorem decode_requestPacket (timeout : Option Nat) (now : Nat) (frame : List Byte) :
    decode (requestPacket timeout now frame) = decodeRequest timeout now frame := by
  simp [requestPacket, decodeOp, bind, Except.bind]

@[simp] theorem decodeOp_reply (kind : Kind) (frame : List Byte) :
    decodeOp (.reply kind) frame = .ok (decodeReplyFrame kind frame) := rfl

theorem decodeReplyFrame_of_excBit {kind : Kind} {frame : List Byte} (hkind : kind ≠ .raw)
    (hexc : excBit frame = true) : decodeReplyFrame kind frame = .excReply kind frame := by
  cases kind with
  | raw => exact absurd rfl hkind
  | _ => exact if_pos hexc

/-- The frame of a request is read back by its function code; every other operand by its own reader. -/
theorem decode_encode {i : Instr} (h : WellFormed i = true) : decode (encode i) = .ok i := by
  cases i
  case rc | rhr | rir | wsr => simp [encode, decode_requestPacket, decodeRequest, requestBytes, kindOfFc]
  case wsc slave addr coil timeout now =>
    cases coil <;> simp [encode, decode_requestPacket, decodeRequest, requestBytes, kindOfFc, coilWord]
  case wmc slave addr qty packed timeout now =>
    have hlen : packed.length < 256 := of_decide_eq_true h
    simp [encode, decode_requestPacket, decodeRequest, requestBytes, kindOfFc, Nat.mod_eq_of_lt hlen]
  case wmr slave addr qty words timeout now =>
    have hlen : 2 * words.length < 256 := of_decide_eq_true h
    simp [encode, decode_requestPacket, decodeRequest, requestBytes, kindOfFc, Nat.mod_eq_of_lt hlen]
  case rcReply frame | rhrReply frame | rirReply frame | wscReply frame | wsrReply frame | wmcReply frame
      | wmrReply frame =>
    have hexc : excBit frame = false := by simpa [WellFormed] using h
    simp [encode, decodeReplyFrame, hexc]
  case excReply kind frame =>
    obtain ⟨hkind, hexc⟩ := Bool.and_eq_true_iff.mp h
    rw [encode, decode_code_cons, decodeOp_reply, decodeReplyFrame_of_excBit (of_decide_eq_true hkind) hexc]
  case rawReply => simp [encode, decodeReplyFrame]
  case rx bytes now =>
    have hne : bytes ≠ [] := of_decide_eq_true h
    simp [encode, decodeOp, bind, Except.bind, hne]
  all_goals simp [encode, decodeOp, finish, bind, Except.bind]

/-- Settles O6. -/
theorem decodeEncode : Obligations.DecodeEncode := fun _ => decode_encode

/-! ### Encoding what a packet decodes to -/

theorem decodeRequest_eq_ok {timeout : Option Nat} {now : Nat} {bs : List Byte} {i : Instr}
    (h : decodeRequest timeout now bs = .ok i) : WellFormed i = true ∧ encode i = requestPacket timeout now bs := by
  unfold decodeRequest at h
  split at h
  swap
  · cases h
  rename_i slave fc rest
  split at h
  · cases h
  rename_i kind hkind
  obtain rfl := kindOfFc_eq_some hkind
  split at h
  swap
  · cases h
  rename_i aH aL vH vL data
  dsimp only at h
  cases kind <;> dsimp only at h
  case rc | rhr | rir | wsr =>
    split at h <;> cases h
    subst data
    simp [WellFormed, encode, requestBytes, fcOfKind]
  case wsc =>
    split at h
    · cases h
    rename_i hdata
    obtain rfl := not_not.mp hdata
    split at h
    · rename_i hword
      cases h
      simp [WellFormed, encode, requestBytes, fcOfKind, ← hword]
    · split at h
      · rename_i hword
        cases h
        simp [WellFormed, encode, requestBytes, fcOfKind, ← hword]
      · cases h
  case wmc =>
    split at h
    · cases h
    rename_i bc packed
    split at h <;> cases h
    rename_i hlen
    simp [WellFormed, encode, requestBytes, fcOfKind, hlen, bc.isLt]
  case wmr =>
    split at h
    · cases h
    rename_i bc bytes
    split at h <;> cases h
    rename_i hlen
    obtain ⟨hlen, heven⟩ := hlen
    have hcount : 2 * (bytesToWords bytes).length = bc.toNat := by rw [bytesToWords_length]; omega
    simp [WellFormed, encode, requestBytes, fcOfKind, hcount, wordsToBytes_bytesToWords bytes (hlen ▸ heven), bc.isLt]
  case raw => cases h

/-- The row a reply frame is read under is the one its bit 7 selects (R71). -/
theorem encode_decodeReplyFrame (kind : Kind) (frame : List Byte) :
    WellFormed (decodeReplyFrame kind frame) = true ∧
      encode (decodeReplyFrame kind frame) = (Op.reply kind).code :: frame := by
  cases hexc : excBit frame <;> cases kind <;> simp [decodeReplyFrame, hexc, WellFormed, encode]

theorem decodeOp_eq_ok {op : Op} {bs : List Byte} {i : Instr} (h : decodeOp op bs = .ok i) :
    WellFormed i = true ∧ encode i = op.code :: bs := by
  cases op
  case crcInit =>
    obtain ⟨rfl, rfl⟩ := finish_eq_ok h
    exact ⟨rfl, rfl⟩
  case crcByte =>
    obtain ⟨⟨b, r₁⟩, h₁, h⟩ := bind_eq_ok h
    obtain ⟨rfl, rfl⟩ := finish_eq_ok h
    rw [getByte_eq_ok h₁]
    exact ⟨rfl, rfl⟩
  case crcBit =>
    obtain ⟨⟨b, r₁⟩, h₁, h⟩ := bind_eq_ok h
    obtain ⟨rfl, rfl⟩ := finish_eq_ok h
    rw [getBool_eq_ok h₁]
    simp [WellFormed, encode]
  case crc16 | appendCrc | verify => cases h; exact ⟨rfl, rfl⟩
  case reply kind => cases h; exact encode_decodeReplyFrame kind bs
  case checkParams | encodeFrame =>
    obtain ⟨⟨cmd, r₁⟩, h₁, h⟩ := bind_eq_ok h
    obtain ⟨rfl, rfl⟩ := finish_eq_ok h
    rw [getCommand_eq_ok h₁]
    simp [WellFormed, encode]
  case decodeReply =>
    obtain ⟨⟨kind, r₁⟩, h₁, h⟩ := bind_eq_ok h
    obtain ⟨⟨ovf, r₂⟩, h₂, h⟩ := bind_eq_ok h
    cases h
    rw [getKind_eq_ok h₁, getBool_eq_ok h₂]
    exact ⟨rfl, rfl⟩
  case validateReply =>
    obtain ⟨⟨resp, r₁⟩, h₁, h⟩ := bind_eq_ok h
    obtain ⟨⟨req, r₂⟩, h₂, h⟩ := bind_eq_ok h
    obtain ⟨rfl, rfl⟩ := finish_eq_ok h
    rw [getDecoded_eq_ok h₁, getReq_eq_ok h₂]
    simp [WellFormed, encode]
  all_goals
    obtain ⟨⟨now, r₁⟩, h₁, h⟩ := bind_eq_ok h
    rw [getNat_eq_ok h₁]
  case cancel | readHistory | readLastError | disconnect | tick | validate | startAttempt | evalWait =>
    obtain ⟨rfl, rfl⟩ := finish_eq_ok h
    simp [WellFormed, encode]
  case dispatch =>
    obtain ⟨⟨timeout, r₂⟩, h₂, h⟩ := bind_eq_ok h
    obtain ⟨⟨fc, r₃⟩, h₃, h⟩ := bind_eq_ok h
    obtain ⟨⟨slave, r₄⟩, h₄, h⟩ := bind_eq_ok h
    obtain ⟨⟨addr, r₅⟩, h₅, h⟩ := bind_eq_ok h
    obtain ⟨⟨fields, r₆⟩, h₆, h⟩ := bind_eq_ok h
    obtain ⟨rfl, rfl⟩ := finish_eq_ok h
    rw [getTimeout_eq_ok h₂, getByte_eq_ok h₃, getByte_eq_ok h₄, getWord_eq_ok h₅, getFields_eq_ok h₆]
    simp [WellFormed, encode]
  case dispatchRaw | rawRequest =>
    obtain ⟨⟨timeout, r₂⟩, h₂, h⟩ := bind_eq_ok h
    rw [getTimeout_eq_ok h₂]
    cases h
    simp [WellFormed, encode]
  case getRegister =>
    obtain ⟨⟨addr, r₂⟩, h₂, h⟩ := bind_eq_ok h
    obtain ⟨rfl, rfl⟩ := finish_eq_ok h
    rw [getWord_eq_ok h₂]
    simp [WellFormed, encode]
  case cfgWrite | connect =>
    obtain ⟨⟨name, r₂⟩, h₂, h⟩ := bind_eq_ok h
    obtain ⟨⟨v, r₃⟩, h₃, h⟩ := bind_eq_ok h
    obtain ⟨rfl, rfl⟩ := finish_eq_ok h
    rw [getBytes_eq_ok h₂, getNat_eq_ok h₃]
    simp [WellFormed, encode]
  case writeResult =>
    obtain ⟨⟨res, r₂⟩, h₂, h⟩ := bind_eq_ok h
    obtain ⟨rfl, rfl⟩ := finish_eq_ok h
    rw [getWriteResult_eq_ok h₂]
    simp [WellFormed, encode]
  case rx =>
    dsimp only at h
    split at h <;> cases h
    next hne => simp [WellFormed, encode, hne]
  case tpFault =>
    obtain ⟨⟨fatal, r₂⟩, h₂, h⟩ := bind_eq_ok h
    rw [getBool_eq_ok h₂]
    cases h
    simp [WellFormed, encode]
  case attemptFail =>
    obtain ⟨⟨sev, r₂⟩, h₂, h⟩ := bind_eq_ok h
    obtain ⟨⟨cls, r₃⟩, h₃, h⟩ := bind_eq_ok h
    obtain ⟨rfl, rfl⟩ := finish_eq_ok h
    rw [getSeverity_eq_ok h₂, getAttemptClass_eq_ok h₃]
    simp [WellFormed, encode]
  case close =>
    obtain ⟨⟨v, r₂⟩, h₂, h⟩ := bind_eq_ok h
    obtain ⟨rfl, rfl⟩ := finish_eq_ok h
    rw [getVerdict_eq_ok h₂]
    simp [WellFormed, encode]
  case storeUpdate =>
    obtain ⟨⟨addr, r₂⟩, h₂, h⟩ := bind_eq_ok h
    obtain ⟨⟨vs, r₃⟩, h₃, h⟩ := bind_eq_ok h
    obtain ⟨rfl, rfl⟩ := finish_eq_ok h
    rw [getWord_eq_ok h₂, getValues_eq_ok h₃]
    simp [WellFormed, encode]
  case request =>
    obtain ⟨⟨timeout, r₂⟩, h₂, h⟩ := bind_eq_ok h
    rw [getTimeout_eq_ok h₂]
    obtain ⟨hwf, henc⟩ := decodeRequest_eq_ok h
    exact ⟨hwf, by simp [henc, requestPacket]⟩

theorem decode_eq_ok {p : List Byte} {i : Instr} (h : decode p = .ok i) :
    ∃ op bs, p = Op.code op :: bs ∧ decodeOp op bs = .ok i := by
  cases p with
  | nil => cases h
  | cons b bs =>
    rw [decode] at h
    split at h
    · cases h
    · next op hop => exact ⟨op, bs, by rw [ofByte_eq_ok hop], h⟩

/-- Settles O7: no reader reads anything but what its writer writes. -/
theorem decodedPacketIsEncoding : Obligations.DecodedPacketIsEncoding := fun p i h => by
  obtain ⟨op, bs, rfl, hop⟩ := decode_eq_ok h
  exact decodeOp_eq_ok hop

/-! ### Fixed packets and op numbers (R81, R72) -/

/-- Settles O8. -/
theorem frameWordsDecode : Obligations.FrameWordsDecode := ⟨rfl, rfl, rfl, rfl, rfl, rfl⟩

/-- No op has a code from 9 to 15. -/
theorem ofByte_unused {b : Byte} (hlow : 9 ≤ b.toNat) (hhigh : b.toNat ≤ 15) :
    Op.ofByte b = .error (.unusedOp b.toNat) := by
  have hcodes : ∀ o ∈ Op.all, (Op.code o).toNat < 9 ∨ 15 < (Op.code o).toNat := by decide
  have hnone : Op.all.find? (fun o => o.code == b) = none := by
    rw [List.find?_eq_none]
    intro o ho heq
    have := hcodes o ho
    rw [beq_iff_eq.mp heq] at this
    omega
  rw [Op.ofByte, hnone]
  exact if_pos hhigh

theorem decodeRequest_reserved {fc : Byte} (hfc : kindOfFc fc = none) (timeout : Option Nat) (now : Nat) (slave : Byte)
    (body : List Byte) : decodeRequest timeout now (slave :: fc :: body) = .error (.reservedFunction fc) := by
  rw [decodeRequest, hfc]

end Sys2Proof

namespace Sys2Proof.Machine

open Sys2Proof.Laws

/-- Settles O4: the first nine clauses are the model's laws of packets; the last one is a rejected packet. -/
theorem hostOpNumbers : Obligations.HostOpNumbers := by
  refine ⟨PacketOp.dispatch, PacketOp.dispatchRaw, PacketOp.cancel, PacketOp.getRegister, PacketOp.readHistory,
    PacketOp.readLastError, PacketOp.cfgWrite, PacketOp.connect, PacketOp.disconnect,
    fun s op body rest hlow hhigh hinbox => ?_⟩
  have hreject : decode (op :: body) = .error (.unusedOp op.toNat) := by rw [decode, ofByte_unused hlow hhigh]
  rw [step_reject hinbox hreject]
  rfl

theorem fieldsOk_of_reserved {fc : Byte} (hfc : kindOfFc fc = none) (fields : Fields) : fieldsOk fc fields = false := by
  simp [fieldsOk, hfc]

/-- Settles O5: the check has no case for the code, the decoder rejects it by name, and RAW looks at the length only. -/
theorem reservedFunctionCodes : Obligations.ReservedFunctionCodes := by
  refine ⟨fun fc hfc => ?_, fun bytes timeout now s hlen hidle hwf => ?_⟩
  · have hfc := (kindOfFc_eq_none_iff fc).mpr hfc
    refine ⟨fun slave addr fields timeout now s => ?_, fun s rest timeout now slave body hinbox => ?_⟩
    · exact exec_request_refused rfl (paramsPass_structured_eq_false (.inr (fieldsOk_of_reserved hfc fields))) s
    · have hreject := (decode_requestPacket timeout now (slave :: fc :: body)).trans
        (decodeRequest_reserved hfc timeout now slave body)
      rw [step_reject hinbox hreject]
      rfl
  · obtain ⟨t, hexec, hstarted, -⟩ := (rawRequest bytes timeout now s).1 hidle hwf hlen
    exact ⟨t, hexec, hstarted.out⟩

end Sys2Proof.Machine
end

section
/-! What a step of the block does, said once with its shared operations taken apart (00_scope.md R8, 44_sequencer.md
R151 to R165): the moves of the sequencer, the time each is made at, and what a received chunk leaves alone. -/

namespace Sys2Proof.Machine

open Sys2Proof.Safety

/-! ### A chunk entering RX (R157) -/

/-- The receive side of RX(bytes), before the wait is tested. -/
def hearOp (bytes : List Byte) (now : Nat) (s : State) : State :=
  { bytes.foldl rxByte s with tLastRx := some now }

theorem foldl_rxByte_frame (bytes : List Byte) (s : State) :
    bytes.foldl rxByte s =
      { s with
        rx := (bytes.foldl rxByte s).rx
        rxLen := (bytes.foldl rxByte s).rxLen
        rxOvf := (bytes.foldl rxByte s).rxOvf } := by
  induction bytes generalizing s with
  | nil => rfl
  | cons b bytes ih =>
    rw [List.foldl_cons, ih, rxByte]
    split <;> rfl

/-- A chunk changes the receive side alone. -/
theorem hearOp_frame (bytes : List Byte) (now : Nat) (s : State) :
    hearOp bytes now s =
      { s with
        rx := (hearOp bytes now s).rx
        rxLen := (hearOp bytes now s).rxLen
        rxOvf := (hearOp bytes now s).rxOvf
        tLastRx := some now } := by
  rw [hearOp, foldl_rxByte_frame]

/-- The closed form of a chunk, for a length in range. -/
theorem hearOp_eq {s : State} (h : s.rxLen ≤ 256) (bytes : List Byte) (now : Nat) :
    hearOp bytes now s =
      { s with
        rx := Memory.writeBytes s.rx s.rxLen (bytes.take (256 - s.rxLen))
        rxLen := min 256 (s.rxLen + bytes.length)
        rxOvf := s.rxOvf || decide (256 < s.rxLen + bytes.length)
        tLastRx := some now } := by
  rw [hearOp, foldl_rxByte bytes s h]

section
variable (bytes : List Byte) (now : Nat) (s : State)

@[simp] theorem hearOp_req : (hearOp bytes now s).req = s.req := by rw [hearOp_frame]
@[simp] theorem hearOp_tx : (hearOp bytes now s).tx = s.tx := by rw [hearOp_frame]
@[simp] theorem hearOp_txLen : (hearOp bytes now s).txLen = s.txLen := by rw [hearOp_frame]
@[simp] theorem hearOp_fsm : (hearOp bytes now s).fsm = s.fsm := by rw [hearOp_frame]
@[simp] theorem hearOp_cfgRetry : (hearOp bytes now s).cfgRetry = s.cfgRetry := by rw [hearOp_frame]
@[simp] theorem hearOp_seqNext : (hearOp bytes now s).seqNext = s.seqNext := by rw [hearOp_frame]
@[simp] theorem hearOp_curSeq : (hearOp bytes now s).curSeq = s.curSeq := by rw [hearOp_frame]
@[simp] theorem hearOp_retriesLeft : (hearOp bytes now s).retriesLeft = s.retriesLeft := by rw [hearOp_frame]
@[simp] theorem hearOp_attempts : (hearOp bytes now s).attempts = s.attempts := by rw [hearOp_frame]
@[simp] theorem hearOp_tStart : (hearOp bytes now s).tStart = s.tStart := by rw [hearOp_frame]
@[simp] theorem hearOp_deadline : (hearOp bytes now s).deadline = s.deadline := by rw [hearOp_frame]
@[simp] theorem hearOp_timeoutL : (hearOp bytes now s).timeoutL = s.timeoutL := by rw [hearOp_frame]
@[simp] theorem hearOp_quietL : (hearOp bytes now s).quietL = s.quietL := by rw [hearOp_frame]
@[simp] theorem hearOp_store : (hearOp bytes now s).store = s.store := by rw [hearOp_frame]
@[simp] theorem hearOp_history : (hearOp bytes now s).history = s.history := by rw [hearOp_frame]
@[simp] theorem hearOp_inbox : (hearOp bytes now s).inbox = s.inbox := by rw [hearOp_frame]
@[simp] theorem hearOp_out : (hearOp bytes now s).out = s.out := by rw [hearOp_frame]

end

/-! ### The moves -/

/-- The instructions that run the disconnect actions: DISCONNECT and a fatal TP_FAULT (44_sequencer.md R164). -/
def Disconnects (i : Option Instr) : Prop :=
  (∃ now, i = some (.disconnect now)) ∨ ∃ reason now, i = some (.tpFault reason true now)

/-- What a step of the block other than a reset does to the state once its input is removed, `i` being the instruction
it runs, if any, and `now` the time it carries. `hear` is followed by the move that tests the wait. -/
inductive Move (i : Option Instr) (now : Nat) : State → State → Prop
  | stay (s : State) : Move i now s s
  | answer (s : State) (m : Msg) (ho : ∀ o, m ≠ .outcome o) (hw : ∀ b, m ≠ .tpWrite b) : Move i now s (emit m s)
  | configure (s : State) (timeout quiet retry : Nat) :
      Move i now s { s with cfgTimeout := timeout, cfgQuiet := quiet, cfgRetry := retry }
  | refuse (s : State) (f : Failure) (hf : f = .invalidParameter ∨ f = .busy) : Move i now s (answerAtOnce f s)
  | start (s : State) (cmd : Command) (timeout : Option Nat) (hpass : paramsPass cmd = true) (hs : s.fsm = .idle) :
      Move i now s (startAttemptOp now (beginTransaction timeout now (encodeOp cmd s)))
  | listen (s : State) (hs : s.fsm = .sending) : Move i now s { s with fsm := .awaitingResponse }
  | hear (s t : State) (bytes : List Byte) (hs : s.fsm = .awaitingResponse) (h : Move i now (hearOp bytes now s) t) :
      Move i now s t
  | complete (s : State) (hs : s.fsm = .awaitingResponse) (hc : frameComplete s now = true) :
      Move i now s { s with fsm := .validating }
  | retry (s : State) (hs : Fsm.active s.fsm = true) (hr : 0 < s.retriesLeft) : Move i now s (retryOp now s)
  | fail (s : State) (f : Failure) (hs : Fsm.active s.fsm = true) : Move i now s (closeOp (.failure f) now s)
  | validate (s : State) (hs : s.fsm = .validating) (hi : i = some (.validate now)) : Move i now s (validateOp now s)
  | disconnect (s : State) (byTransport : Bool) (hs : s.fsm = .idle) (hi : Disconnects i) :
      Move i now s (disconnectActions byTransport s)
  | abort (s : State) (f : Failure) (byTransport : Bool) (hs : Fsm.active s.fsm = true) (hi : Disconnects i) :
      Move i now s (closeOp (.failure f) now (disconnectActions byTransport s))

theorem resting_of_active {f : Fsm} (h : Fsm.active f = true) : Fsm.resting f = true := by
  cases f with
  | sending | awaitingResponse | validating => rfl
  | idle | terminal _ => cases h

theorem active_of_awaiting {f : Fsm} (h : f = .awaitingResponse) : Fsm.active f = true := h ▸ rfl

theorem active_of_validating {f : Fsm} (h : f = .validating) : Fsm.active f = true := h ▸ rfl

theorem active_of_sending {f : Fsm} (h : f = .sending) : Fsm.active f = true := h ▸ rfl

theorem not_active_of_idle {f : Fsm} (h : f = .idle) : ¬ Fsm.active f = true := by rw [h]; exact Bool.false_ne_true

theorem move_dispatchOp (i : Option Instr) (cmd : Command) (timeout : Option Nat) (now : Nat) (s : State) :
    Move i now s (dispatchOp cmd timeout now s) := by
  obtain ⟨-, h⟩ | ⟨-, -, h⟩ | ⟨hpass, hidle, h⟩ := dispatchOp_cases cmd timeout now s <;> rw [h]
  · exact .refuse s _ (.inl rfl)
  · exact .refuse s _ (.inr rfl)
  · exact .start s cmd timeout hpass hidle

theorem move_attemptFailOp {i : Option Instr} {s : State} {sev : Severity} (hs : Fsm.active s.fsm = true)
    (hi : sev ≠ .nonfatal → Disconnects i) (cls : AttemptClass) (now : Nat) :
    Move i now s (attemptFailOp cls sev now s) := by
  obtain ⟨-, hr, h⟩ | ⟨-, -, h⟩ | ⟨hfatal, h⟩ := attemptFailOp_cases cls sev now s <;> rw [h]
  · exact .retry s hs hr
  · exact .fail s _ hs
  · exact .abort s _ _ hs (hi hfatal)

theorem move_evalWaitOp (i : Option Instr) {s : State} (hs : s.fsm = .awaitingResponse) (now : Nat) :
    Move i now s (evalWaitOp now s) := by
  obtain ⟨hc, h⟩ | ⟨-, -, h⟩ | ⟨-, -, h⟩ := evalWaitOp_cases now s <;> rw [h]
  · exact .complete s hs hc
  · exact move_attemptFailOp (active_of_awaiting hs) (fun hfatal => absurd rfl hfatal) _ now
  · exact .stay s

theorem disconnects_of_instr {i : Instr} {now : Nat} (h : i = .disconnect now ∨ ∃ r, i = .tpFault r true now) :
    Disconnects (some i) := by
  obtain rfl | ⟨r, rfl⟩ := h
  · exact .inl ⟨now, rfl⟩
  · exact .inr ⟨r, now, rfl⟩

/-- The effect of an event is a move at the event's time. -/
theorem move_of_effect {i : Instr} {now : Nat} {s t : State} (hnow : i.eventTime = some now) (h : EventEffect s i t) :
    Move (some i) now s t := by
  cases h with
  | ignored => exact .stay s
  | read _ m ho hw => exact .answer s m ho hw
  | configured => exact .configure s _ _ _
  | dispatched _ cmd timeout now' ht =>
    obtain rfl := Option.some.inj (hnow.symm.trans ht)
    exact move_dispatchOp _ cmd timeout now s
  | cancelled now' hf =>
    obtain rfl := Option.some.inj hnow
    exact .fail s _ (active_of_awaiting hf)
  | written n now' hf => exact .listen s hf
  | failed _ reason sev now' ht hf hi =>
    obtain rfl := Option.some.inj (hnow.symm.trans ht)
    exact move_attemptFailOp hf (fun hfatal => disconnects_of_instr (hi hfatal)) _ now
  | disconnected _ byTransport now' hf hi => exact .disconnect s _ hf (disconnects_of_instr hi)
  | received bytes now' hb hf =>
    obtain rfl := Option.some.inj hnow
    exact .hear s _ bytes hf (move_evalWaitOp _ ((hearOp_fsm bytes now' s).trans hf) now')
  | waited _ now' ht hf =>
    obtain rfl := Option.some.inj (hnow.symm.trans ht)
    exact move_evalWaitOp _ hf now
  | validated now' hf =>
    obtain rfl := Option.some.inj hnow
    exact .validate s hf rfl

theorem exists_eventTime {i : Instr} (h : i.isEvent = true) : ∃ now, i.eventTime = some now := by
  cases i <;> simp [Instr.isEvent, Instr.eventTime] at h ⊢

/-- A step of the block is a reset, or a move from the state without its next input, at a time that the rest of a run
whose times rise does not fall below. -/
theorem step_move {s t : State} (hev : nextIsEvent s = true) (h : step s = .next t) (earlier : Nat) :
    (nextIsReset s = true ∧ ∃ rest, s.inbox = .reset :: rest ∧ t = resetOp { s with inbox := rest }) ∨
    (nextIsReset s = false ∧ ∃ rest now, Move (nextInstr s) now { s with inbox := rest } t ∧
      (TimesRise earlier s.inbox → earlier ≤ now ∧ TimesRise now rest)) := by
  obtain ⟨hin, rfl⟩ | ⟨rest, hin, rfl⟩ | ⟨p, rest, i, hin, hdec, hexec⟩ | ⟨p, rest, r, hin, hdec, hrej⟩ := step_cases h
  · exact .inr ⟨by simp [nextIsReset, hin], t.inbox, earlier, .stay t, fun hrise => ⟨Nat.le_refl _, hrise⟩⟩
  · exact .inl ⟨by simp [nextIsReset, hin], rest, hin, rfl⟩
  · have hi : i.isEvent = true := by simpa [nextIsEvent, hin, hdec] using hev
    have hnext : nextInstr s = some i := by simp [nextInstr, hin, hdec]
    obtain ⟨now, hnow⟩ := exists_eventTime hi
    refine .inr ⟨by simp [nextIsReset, hin], rest, now, hnext ▸ move_of_effect hnow (event_effect hi hexec), ?_⟩
    simp [hin, TimesRise, hdec, hnow]
  · refine .inr ⟨by simp [nextIsReset, hin], rest, earlier, ?_, by simp [hin, TimesRise, hdec]⟩
    obtain rfl | rfl := onReject_cases hrej
    · exact .stay _
    · exact .refuse _ _ (.inl rfl)

theorem step_move_of_not_reset {s t : State} (hev : nextIsEvent s = true) (hreset : nextIsReset s = false)
    (h : step s = .next t) : ∃ rest now, Move (nextInstr s) now { s with inbox := rest } t := by
  obtain ⟨htrue, -⟩ | ⟨-, rest, now, hm, -⟩ := step_move hev h 0
  · exact absurd (hreset.symm.trans htrue) Bool.false_ne_true
  · exact ⟨rest, now, hm⟩

end Sys2Proof.Machine
end

section
/-! The invariants (44_sequencer.md R169 (a), (d), (f), 20_memory.md): what each shared operation keeps, then that every
step keeps `Inv` and every step of the block keeps `ProtocolInv`. -/

namespace Sys2Proof.Machine

open Sys2Proof.Safety

/-! ### The plain invariant -/

theorem verdictStore_wf {st : Store} (h : Store.Wf st) (addr : Word) (now : Nat) (v : Verdict) :
    Store.Wf (verdictStore addr now st v) := by
  cases v with
  | failure f => exact h
  | success p =>
    cases p with
    | regValues vs => exact Store.update_wf h addr _ now
    | coilValues vs => exact Store.update_wf h addr _ now
    | written _ _ | raw _ => exact h

/-- No clause of `Inv` reads a register that an output, a configuration write or the CRC engine changes. -/
theorem inv_congr {s t : State} (h : Inv s) (hfsm : t.fsm = s.fsm) (htx : t.tx = s.tx) (htxLen : t.txLen = s.txLen)
    (hrx : t.rx = s.rx) (hrxLen : t.rxLen = s.rxLen) (hstore : t.store = s.store) : Inv t :=
  ⟨hfsm ▸ h.fsmRests, htxLen ▸ h.txLenLe, hrxLen ▸ h.rxLenLe, htx ▸ h.txWf, hrx ▸ h.rxWf, hstore ▸ h.storeWf⟩

theorem inv_reset : Inv State.reset :=
  ⟨rfl, Nat.zero_le _, Nat.zero_le _, by decide, by decide, Store.empty_wf⟩

theorem inv_setFsm {s : State} (h : Inv s) {f : Fsm} (hf : Fsm.resting f = true) : Inv { s with fsm := f } :=
  { h with fsmRests := hf }

theorem inv_closeOp {s : State} (h : Inv s) (v : Verdict) (now : Nat) : Inv (closeOp v now s) :=
  { h with fsmRests := rfl, storeWf := verdictStore_wf h.storeWf _ now v }

theorem inv_disconnectActions {s : State} (h : Inv s) (byTransport : Bool) : Inv (disconnectActions byTransport s) :=
  { h with storeWf := Store.empty_wf }

theorem inv_startAttemptOp {s : State} (h : Inv s) (now : Nat) : Inv (startAttemptOp now s) :=
  { h with fsmRests := rfl, rxLenLe := Nat.zero_le _ }

theorem inv_encodeOp {s : State} (h : Inv s) {cmd : Command} (hpass : paramsPass cmd = true) : Inv (encodeOp cmd s) :=
  { h with
    txLenLe := frame_length_le hpass
    txWf := Memory.writeBytes_wf h.txWf (by have := frame_length_le hpass; omega) }

theorem inv_hearOp {s : State} (h : Inv s) (bytes : List Byte) (now : Nat) : Inv (hearOp bytes now s) := by
  have hlen := h.rxLenLe
  rw [hearOp_eq hlen]
  exact { h with
    rxLenLe := Nat.min_le_left _ _
    rxWf := Memory.writeBytes_wf h.rxWf (by rw [List.length_take]; omega) }

theorem inv_retryOp {s : State} (h : Inv s) (now : Nat) : Inv (retryOp now s) :=
  inv_congr (inv_startAttemptOp h now) rfl rfl rfl rfl rfl rfl

theorem inv_move {i : Option Instr} {now : Nat} {s t : State} (hm : Move i now s t) (h : Inv s) : Inv t := by
  induction hm with
  | stay => exact h
  | answer | configure | refuse => exact inv_congr h rfl rfl rfl rfl rfl rfl
  | start s cmd timeout hpass => exact inv_congr (inv_startAttemptOp (inv_encodeOp h hpass) now) rfl rfl rfl rfl rfl rfl
  | listen | complete => exact inv_setFsm h rfl
  | hear s t bytes _ _ ih => exact ih (inv_hearOp h bytes now)
  | retry => exact inv_retryOp h now
  | fail s f => exact inv_closeOp h _ now
  | validate s => exact inv_congr (inv_closeOp h (judge (rxBytes s) s.rxOvf s.req) now) rfl rfl rfl rfl rfl rfl
  | disconnect s byTransport => exact inv_disconnectActions h byTransport
  | abort s f byTransport => exact inv_closeOp (inv_disconnectActions h byTransport) _ now

theorem inv_attemptFailOp {s : State} (h : Inv s) (cls : AttemptClass) (sev : Severity) (now : Nat) :
    Inv (attemptFailOp cls sev now s) := by
  obtain ⟨-, -, heq⟩ | ⟨-, -, heq⟩ | ⟨-, heq⟩ := attemptFailOp_cases cls sev now s <;> rw [heq]
  · exact inv_retryOp h now
  · exact inv_closeOp h _ now
  · exact inv_closeOp (inv_disconnectActions h _) _ now

theorem inv_evalWaitOp {s : State} (h : Inv s) (now : Nat) : Inv (evalWaitOp now s) := by
  obtain ⟨-, heq⟩ | ⟨-, -, heq⟩ | ⟨-, -, heq⟩ := evalWaitOp_cases now s <;> rw [heq]
  · exact inv_setFsm h rfl
  · exact inv_attemptFailOp h _ _ now
  · exact h

/-- The reply rows and the procedures on their own (log entries 6, 7). -/
theorem inv_exec_of_not_event {i : Instr} {s t : State} (h : Inv s) (hi : i.isEvent = false)
    (hexec : exec i s = .next t) : Inv t := by
  cases i <;> simp only [Instr.isEvent, Bool.true_eq_false] at hi <;> cases hexec
  case encodeFrame cmd =>
    split
    · next hpass => exact inv_encodeOp h hpass
    · exact inv_congr h rfl rfl rfl rfl rfl rfl
  case startAttempt now => exact inv_startAttemptOp h now
  case evalWait now => exact inv_evalWaitOp h now
  case attemptFail cls sev now => exact inv_attemptFailOp h cls sev now
  case close v now => exact inv_closeOp h v now
  case storeUpdate addr vs now => exact { h with storeWf := Store.update_wf h.storeWf addr vs now }
  all_goals exact inv_congr h rfl rfl rfl rfl rfl rfl

theorem inv_exec {i : Instr} {s t : State} (h : Inv s) (hexec : exec i s = .next t) : Inv t := by
  cases hi : i.isEvent with
  | true =>
    obtain ⟨now, hnow⟩ := exists_eventTime hi
    exact inv_move (move_of_effect hnow (event_effect hi hexec)) h
  | false => exact inv_exec_of_not_event h hi hexec

/-- Settles O49. -/
theorem stepKeepsInv : Obligations.StepKeepsInv := fun s t h hstep => by
  obtain ⟨-, rfl⟩ | ⟨rest, -, rfl⟩ | ⟨p, rest, i, -, -, hexec⟩ | ⟨p, rest, r, -, -, hrej⟩ := step_cases hstep
  · exact h
  · exact inv_congr inv_reset rfl rfl rfl rfl rfl rfl
  · exact inv_exec (s := { s with inbox := rest }) (inv_congr h rfl rfl rfl rfl rfl rfl) hexec
  · obtain rfl | rfl := onReject_cases hrej <;> exact inv_congr h rfl rfl rfl rfl rfl rfl

/-! ### The protocol invariant -/

/-- Settles O3. -/
theorem resetMeetsInvariants : Obligations.ResetMeetsInvariants where
  inv := inv_reset
  started := rfl
  seqs := rfl
  current := fun h => absurd h (not_active_of_idle rfl)
  frameGood := fun h => absurd h (not_active_of_idle rfl)
  requestsGood := fun _ hr => absurd hr List.not_mem_nil
  sendingEmpty := Fsm.noConfusion
  validatingFull := Fsm.noConfusion
  overflowFull := Bool.noConfusion

/-- No clause of `ProtocolInv` reads a register that an output, a configuration write or the run's input changes. -/
theorem protocolInv_congr {s t : State} (h : ProtocolInv s) (hinv : Inv t) (hfsm : t.fsm = s.fsm)
    (htx : txBytes t = txBytes s) (hrxLen : t.rxLen = s.rxLen) (hrxOvf : t.rxOvf = s.rxOvf)
    (hlast : t.tLastRx = s.tLastRx) (hnext : t.seqNext = s.seqNext) (hcur : t.curSeq = s.curSeq)
    (hattempts : t.attempts = s.attempts) (hhist : t.history = s.history) : ProtocolInv t where
  inv := hinv
  started := by rw [hnext, hhist, hfsm]; exact h.started
  seqs := by rw [hhist]; exact h.seqs
  current := by rw [hfsm, hcur, hhist, hattempts]; exact h.current
  frameGood := by rw [hfsm, htx]; exact h.frameGood
  requestsGood := by rw [hhist]; exact h.requestsGood
  sendingEmpty := by rw [hfsm, hrxLen, hrxOvf, hlast]; exact h.sendingEmpty
  validatingFull := by rw [hfsm, hrxLen]; exact h.validatingFull
  overflowFull := by rw [hrxLen, hrxOvf]; exact h.overflowFull

theorem seqNext_of_active {s : State} (h : ProtocolInv s) (hs : Fsm.active s.fsm = true) :
    s.seqNext = s.history.length + 1 := by rw [h.started, if_pos hs]

theorem seqNext_of_idle {s : State} (h : ProtocolInv s) (hs : s.fsm = .idle) : s.seqNext = s.history.length := by
  rw [h.started, if_neg (not_active_of_idle hs), Nat.add_zero]

/-- The first attempt: the frame is the Command's, the transaction has the next number. -/
theorem protocolInv_start {s : State} (h : ProtocolInv s) {cmd : Command} (hpass : paramsPass cmd = true)
    (hs : s.fsm = .idle) (timeout : Option Nat) (now : Nat) :
    ProtocolInv (startAttemptOp now (beginTransaction timeout now (encodeOp cmd s))) where
  inv := inv_move (.start (i := none) s cmd timeout hpass hs) h.inv
  started := congrArg (· + 1) (seqNext_of_idle (s := s) h hs)
  seqs := h.seqs
  current := fun _ => ⟨seqNext_of_idle (s := s) h hs, Nat.le_refl 1⟩
  frameGood := fun _ => (congrArg verifyCrc (txBytes_encodeOp hpass h.inv.txWf)).trans (verifyCrc_appendCrc _)
  requestsGood := h.requestsGood
  sendingEmpty := fun _ => ⟨rfl, rfl, rfl⟩
  validatingFull := Fsm.noConfusion
  overflowFull := Bool.noConfusion

/-- Another attempt sends the frame that is already in `TX`. -/
theorem protocolInv_retryOp {s : State} (h : ProtocolInv s) (hs : Fsm.active s.fsm = true) (now : Nat) :
    ProtocolInv (retryOp now s) where
  inv := inv_retryOp h.inv now
  started := seqNext_of_active (s := s) h hs
  seqs := h.seqs
  current := fun _ => ⟨(h.current hs).1, Nat.le_add_left 1 s.attempts⟩
  frameGood := fun _ => h.frameGood hs
  requestsGood := h.requestsGood
  sendingEmpty := fun _ => ⟨rfl, rfl, rfl⟩
  validatingFull := Fsm.noConfusion
  overflowFull := Bool.noConfusion

/-- From one active state to another that is not Sending, the transaction goes on. -/
theorem protocolInv_setFsm {s : State} (h : ProtocolInv s) (hs : Fsm.active s.fsm = true) {f : Fsm}
    (hf : Fsm.active f = true) (hsending : f ≠ .sending) (hfull : f = .validating → 5 ≤ s.rxLen) :
    ProtocolInv { s with fsm := f } where
  inv := inv_setFsm h.inv (resting_of_active hf)
  started := by rw [if_pos hf]; exact seqNext_of_active (s := s) h hs
  seqs := h.seqs
  current := fun _ => h.current hs
  frameGood := fun _ => h.frameGood hs
  requestsGood := h.requestsGood
  sendingEmpty := fun hf => absurd hf hsending
  validatingFull := hfull
  overflowFull := h.overflowFull

theorem protocolInv_hearOp {s : State} (h : ProtocolInv s) (hs : s.fsm = .awaitingResponse) (bytes : List Byte)
    (now : Nat) : ProtocolInv (hearOp bytes now s) where
  inv := inv_hearOp h.inv bytes now
  started := by simpa using h.started
  seqs := by simpa using h.seqs
  current := by simpa using h.current
  frameGood := by simpa [txBytes] using h.frameGood
  requestsGood := by simpa using h.requestsGood
  sendingEmpty := by simp [hs]
  validatingFull := by simp [hs]
  overflowFull := by
    have hfull := h.overflowFull
    rw [hearOp_eq h.inv.rxLenLe]
    simp only [Bool.or_eq_true, decide_eq_true_eq]
    rintro (hovf | hlong)
    · have := hfull hovf; omega
    · omega

/-- A close records the transaction in flight under its number. -/
theorem protocolInv_closeOp {s : State} (h : ProtocolInv s) (hs : Fsm.active s.fsm = true) (v : Verdict) (now : Nat) :
    ProtocolInv (closeOp v now s) where
  inv := inv_closeOp h.inv v now
  started := by simp [seqNext_of_active h hs, Fsm.active]
  seqs := by simp [List.range_succ, h.seqs, closeRecord, (h.current hs).1]
  current := fun hf => absurd hf (not_active_of_idle rfl)
  frameGood := fun hf => absurd hf (not_active_of_idle rfl)
  requestsGood := by
    intro r hr
    rw [closeOp_history, List.mem_append, List.mem_singleton] at hr
    obtain hr | rfl := hr
    · exact h.requestsGood r hr
    · exact h.frameGood hs
  sendingEmpty := Fsm.noConfusion
  validatingFull := Fsm.noConfusion
  overflowFull := h.overflowFull

theorem protocolInv_disconnectActions {s : State} (h : ProtocolInv s) (byTransport : Bool) :
    ProtocolInv (disconnectActions byTransport s) :=
  protocolInv_congr h (inv_disconnectActions h.inv byTransport) rfl rfl rfl rfl rfl rfl rfl rfl rfl

theorem protocolInv_move {i : Option Instr} {now : Nat} {s t : State} (hm : Move i now s t) (h : ProtocolInv s) :
    ProtocolInv t := by
  induction hm with
  | stay => exact h
  | answer | configure | refuse =>
    exact protocolInv_congr h (inv_congr h.inv rfl rfl rfl rfl rfl rfl) rfl rfl rfl rfl rfl rfl rfl rfl rfl
  | start s cmd timeout hpass hs => exact protocolInv_start h hpass hs timeout now
  | listen s hs => exact protocolInv_setFsm h (active_of_sending hs) rfl Fsm.noConfusion Fsm.noConfusion
  | hear s t bytes hs _ ih => exact ih (protocolInv_hearOp h hs bytes now)
  | complete s hs hc =>
    exact protocolInv_setFsm h (active_of_awaiting hs) rfl Fsm.noConfusion fun _ => minReply_le_of_frameComplete hc
  | retry s hs => exact protocolInv_retryOp h hs now
  | fail s f hs => exact protocolInv_closeOp h hs _ now
  | validate s hs hi =>
    have hclose := protocolInv_closeOp h (active_of_validating hs) (judge (rxBytes s) s.rxOvf s.req) now
    exact protocolInv_congr hclose (inv_move (.validate s hs hi) h.inv) rfl rfl rfl rfl rfl rfl rfl rfl rfl
  | disconnect s byTransport => exact protocolInv_disconnectActions h byTransport
  | abort s f byTransport hs => exact protocolInv_closeOp (protocolInv_disconnectActions h byTransport) hs _ now

theorem protocolInv_setInbox {s : State} (h : ProtocolInv s) (rest : List Input) :
    ProtocolInv { s with inbox := rest } :=
  protocolInv_congr h (inv_congr h.inv rfl rfl rfl rfl rfl rfl) rfl rfl rfl rfl rfl rfl rfl rfl rfl

/-- Settles O50. -/
theorem eventKeepsProtocolInv : Obligations.EventKeepsProtocolInv := fun s t h hev hstep => by
  obtain ⟨-, rest, -, rfl⟩ | ⟨-, rest, now, hm, -⟩ := step_move hev hstep 0
  · exact protocolInv_congr resetMeetsInvariants (inv_congr inv_reset rfl rfl rfl rfl rfl rfl)
      rfl rfl rfl rfl rfl rfl rfl rfl rfl
  · exact protocolInv_move hm (protocolInv_setInbox h rest)

end Sys2Proof.Machine
end

section
/-! The CRC laws of 40_crc.md R94: every single-bit error is detected, and linearity. -/

namespace Sys2Proof.Machine

open Sys2Proof.Safety

/-! ### The fold is one-to-one in the register and in a byte -/

theorem crcByteStep_injective_left (b : Byte) : Function.Injective fun c => crcByteStep c b := fun _ _ h =>
  (BitVec.xor_left_inj _).mp (crcShifts_injective 8 h)

theorem crcByteStep_injective_right (c : Word) : Function.Injective (crcByteStep c) := fun x y h => by
  have hw : x.setWidth 16 = y.setWidth 16 := (BitVec.xor_right_inj _).mp (crcShifts_injective 8 h)
  have := congrArg (BitVec.setWidth 8) hw
  rwa [BitVec.setWidth_setWidth_of_le _ (by decide), BitVec.setWidth_setWidth_of_le _ (by decide), BitVec.setWidth_eq,
    BitVec.setWidth_eq] at this

theorem crcFold_injective (bs : List Byte) : Function.Injective fun c => crcFold c bs := by
  induction bs with
  | nil => exact fun _ _ h => h
  | cons b bs ih => exact ih.comp (crcByteStep_injective_left b)

/-- Two strings that differ in one byte have different CRCs. -/
theorem crc16_set_ne {f : List Byte} {k : Nat} (hk : k < f.length) {b : Byte} (hb : b ≠ f[k]) :
    crc16 (f.set k b) ≠ crc16 f := by
  have hset : f.set k b = f.take k ++ b :: f.drop (k + 1) := List.set_eq_take_append_cons_drop .. |>.trans (if_pos hk)
  have hself : f = f.take k ++ f[k] :: f.drop (k + 1) := by simp
  intro h
  rw [hset, crc16, crcFold_append, crcFold_cons] at h
  conv_rhs at h => rw [hself, crc16, crcFold_append, crcFold_cons]
  exact hb (crcByteStep_injective_right _ (crcFold_injective _ h))

/-- Settles O15. -/
theorem generatorMeetsValidator : Obligations.GeneratorMeetsValidator := verifyCrc_appendCrc

/-- Settles O16: a frame verifies exactly when its CRC is 0, and one changed byte changes the CRC. -/
theorem singleBitErrorDetected : Obligations.SingleBitErrorDetected := fun bs i hi => by
  have hk : i / 8 < (appendCrc bs).length := by rw [appendCrc_length]; omega
  have hgood : crc16 (appendCrc bs) = 0x0000#16 :=
    (streamingResidue _ (by simp)).mp (verifyCrc_appendCrc bs)
  have hbyte : (appendCrc bs).getD (i / 8) 0#8 ^^^ BitVec.twoPow 8 (i % 8) ≠ (appendCrc bs)[i / 8] := by
    rw [List.getD_eq_getElem _ _ hk]
    intro h
    have hbit := congrArg (fun x : Byte => x.getLsbD (i % 8)) h
    simp [Nat.mod_lt] at hbit
  rw [← Bool.not_eq_true, streamingResidue _ (by simp [flipBit]), ← hgood]
  exact crc16_set_ne hk hbyte

/-! ### Linearity -/

theorem crcFold_zipWith_xor {as bs : List Byte} (h : as.length = bs.length) (x y z : Word) :
    crcFold (x ^^^ y ^^^ z) (List.zipWith (· ^^^ ·) as bs) =
      crcFold x as ^^^ crcFold y bs ^^^ crcFold z (List.replicate as.length 0x00#8) := by
  induction as generalizing bs x y z with
  | nil =>
    obtain rfl := List.eq_nil_of_length_eq_zero h.symm
    rfl
  | cons a as ih =>
    cases bs with
    | nil => cases h
    | cons b bs =>
      have hstep : crcByteStep (x ^^^ y ^^^ z) (a ^^^ b) =
          crcByteStep x a ^^^ crcByteStep y b ^^^ crcByteStep z 0x00#8 := by
        rw [← crcByteStep_xor, ← crcByteStep_xor, BitVec.xor_zero]
      rw [List.zipWith_cons_cons, List.length_cons, List.replicate_succ, crcFold_cons, crcFold_cons, crcFold_cons,
        crcFold_cons, hstep, ih (Nat.succ.inj h)]

/-- Settles O17: the start values are three of the same, which XOR to one. -/
theorem crcLinear : Obligations.CrcLinear := fun as bs h => by
  have hinit : Config.crcInit ^^^ Config.crcInit ^^^ Config.crcInit = Config.crcInit := by decide
  have := crcFold_zipWith_xor h Config.crcInit Config.crcInit Config.crcInit
  rwa [hinit] at this

end Sys2Proof.Machine
end

section
/-! The multiplexer of 41_encode.md R101, the reply rows and the echo law of 42_decode.md, Validate's order
(43_validate.md R140) and the store update (45_register_store.md R182). -/

namespace Sys2Proof.Machine

open Sys2Proof.Safety

/-! ### Encode (41_encode.md R101, R109) -/

/-- After `Encode` a byte of `TX` below the length is the frame's. -/
theorem read_encodeOp_tx {cmd : Command} {s : State} (hpass : paramsPass cmd = true) (hwf : Memory.Wf 256 s.tx)
    {i : Nat} (hi : i < (Command.frame cmd).length) :
    Memory.read (encodeOp cmd s).tx i = byteAt (Command.frame cmd) i := by
  have hlen := frame_length_le hpass
  have hread := Memory.read_writeBytes_inside hwf (a := 0) (by omega) hi
  rw [Nat.zero_add] at hread
  rw [byteAt, List.getD_eq_getElem _ _ hi, ← hread, encodeOp_tx]

theorem frame_eq (cmd : Command) :
    Command.frame cmd =
      Command.body cmd ++ [lo8 (crc16 (Command.body cmd)), hi8 (crc16 (Command.body cmd))] := rfl

theorem frame_length (cmd : Command) : (Command.frame cmd).length = (Command.body cmd).length + 2 :=
  appendCrc_length _

theorem byteAt_frame_body {cmd : Command} {i : Nat} (hi : i < (Command.body cmd).length) :
    byteAt (Command.frame cmd) i = (Command.body cmd)[i] := by
  rw [byteAt, frame_eq, List.getD_append _ _ _ _ hi, List.getD_eq_getElem _ _ hi]

/-- Below the last two bytes `TX` holds the body. -/
theorem readBytes_encodeOp_tx {cmd : Command} {s : State} (hpass : paramsPass cmd = true) (hwf : Memory.Wf 256 s.tx) :
    Memory.readBytes (encodeOp cmd s).tx 0 (Command.body cmd).length = Command.body cmd :=
  List.ext_getElem (Memory.readBytes_length ..) fun i _ hi => by
    rw [Memory.readBytes_getElem, Nat.zero_add, read_encodeOp_tx hpass hwf (by rw [frame_length]; omega),
      byteAt_frame_body hi]

/-- Byte `7 + i` of a request is byte `i` after the byte count. -/
theorem byteAt_frame_data (fc slave : Byte) (addr : Word) (fields : Fields) (i : Nat)
    (hi : i + 1 < (Fields.tail fields).length) :
    byteAt (Command.frame (.structured fc slave addr fields)) (7 + i) = (Fields.tail fields)[i + 1] := by
  have hlen : (Command.body (.structured fc slave addr fields)).length = (Fields.tail fields).length + 6 := by
    simp [Command.body, requestBytes]
  rw [byteAt_frame_body (by omega)]
  simp only [Command.body, requestBytes, show 7 + i = i + 1 + 1 + 1 + 1 + 1 + 1 + 1 by omega,
    List.getElem_cons_succ]

theorem getElem_wordsToBytes_high : ∀ (ws : List Word) (i : Nat) (hi : i < ws.length),
    (wordsToBytes ws)[2 * i]'(by rw [wordsToBytes_length]; omega) = hi8 ws[i]
  | _ :: _, 0, _ => rfl
  | _ :: ws, i + 1, hi => getElem_wordsToBytes_high ws i (Nat.lt_of_succ_lt_succ hi)

theorem getElem_wordsToBytes_low : ∀ (ws : List Word) (i : Nat) (hi : i < ws.length),
    (wordsToBytes ws)[2 * i + 1]'(by rw [wordsToBytes_length]; omega) = lo8 ws[i]
  | _ :: _, 0, _ => rfl
  | _ :: ws, i + 1, hi => getElem_wordsToBytes_low ws i (Nat.lt_of_succ_lt_succ hi)

theorem PassingFields.kindOfFc_eq {fc : Byte} {fields : Fields} (h : PassingFields fc fields) (old : Kind) :
    kindOfFc fc = some ((kindOfFc fc).getD old) := by
  cases h <;> rfl

/-- Settles O20: `TX` holds the frame, whose bytes are the body's and the two of the CRC. -/
theorem encodeMultiplexer : Obligations.EncodeMultiplexer := fun cmd s hpass hwf => by
  have hlen := frame_length cmd
  have htx := fun {i : Nat} (hi : i < (Command.frame cmd).length) => read_encodeOp_tx (s := s) hpass hwf hi
  refine ⟨encodeOp cmd s, exec_encodeFrame_of_pass hpass s, rfl, fun i hi => ?rest, ?low, ?high, ?raw, ?structured⟩
  case rest => exact Memory.read_writeBytes_outside (.inr (by rw [Nat.zero_add]; exact hi))
  case low =>
    rw [encodeOp_txLen, hlen, Nat.add_sub_cancel, readBytes_encodeOp_tx hpass hwf, htx (by omega)]
    simp [byteAt, frame_eq]
  case high =>
    rw [encodeOp_txLen, hlen, Nat.add_sub_cancel, readBytes_encodeOp_tx hpass hwf, htx (by omega)]
    simp [byteAt, frame_eq]
  case raw =>
    rintro bytes rfl
    refine ⟨hlen, rfl, fun i hi => ?_⟩
    rw [htx (by rw [hlen]; exact Nat.lt_add_right 2 hi)]
    exact byteAt_frame_body (cmd := .raw bytes) hi
  case structured =>
    rintro fc slave addr fields rfl
    have hfields := passingFields_of_paramsPass hpass
    have hlen := frame_structured_length fc slave addr fields
    refine ⟨htx (by omega), htx (by omega), htx (by omega), htx (by omega), hfields.kindOfFc_eq s.req.kind, rfl, rfl, rfl,
      htx (by omega), htx (by omega), ?qty, ?coil, ?value, ?packed, ?words⟩
    case qty => rintro q rfl; exact ⟨rfl, hlen⟩
    case coil => rintro on rfl; exact ⟨rfl, hlen⟩
    case value => rintro v rfl; exact ⟨rfl, hlen⟩
    case packed =>
      rintro q bs rfl
      have htail := tail_packed_length q bs
      cases hfields with
      | wmc _ _ hq =>
        refine ⟨rfl, ?_, hlen.trans (by omega), fun i hi => ?_⟩
        · rw [htx (by omega)]
          show (BitVec.ofNat 8 (coilBytes q.toNat)).toNat = _
          rw [BitVec.toNat_ofNat, coilBytes]
          omega
        · rw [htx (by omega), byteAt_frame_data _ _ _ _ i (by omega)]
          rfl
    case words =>
      rintro q ws rfl
      have htail := tail_words_length q ws
      cases hfields with
      | wmr _ _ hq =>
        refine ⟨rfl, ?_, hlen.trans (by omega), fun i hi => ⟨?_, ?_⟩⟩
        · rw [htx (by omega)]
          show (BitVec.ofNat 8 (2 * q.toNat)).toNat = _
          rw [BitVec.toNat_ofNat]
          omega
        · rw [htx (by omega), byteAt_frame_data _ _ _ _ (2 * i) (by omega)]
          exact getElem_wordsToBytes_high ws i hi
        · rw [htx (by omega), show 8 + 2 * i = 7 + (2 * i + 1) by omega, byteAt_frame_data _ _ _ _ (2 * i + 1) (by omega)]
          exact getElem_wordsToBytes_low ws i hi

/-! ### The reply rows (30_encoding.md R71) -/

theorem decodeWith_congr {shape shape' : List Byte → DecodeResult} {f : List Byte} (h : shape f = shape' f)
    (ovf : Bool) : decodeWith shape f ovf = decodeWith shape' f ovf := by
  rw [decodeWith, decodeWith, h]

/-- A row that decodes by `shape` answers as `Decode` for a kind whose shape it is on that frame. -/
theorem exec_reply_row {i : Instr} {f : List Byte} {s : State} {shape : List Byte → DecodeResult} {kind : Kind}
    (hexec : exec i s = .next (emitDecode (decodeWith shape f false) f false s)) (hshape : parseReply kind f = shape f) :
    ∃ c, exec i s = .next { s with crc := c, out := s.out ++ [.decoded (decodeFrame f false kind)] } := by
  refine ⟨crcAfterDecode s.crc f false, ?_⟩
  rw [hexec, decodeFrame, decodeWith_congr hshape]
  rfl

/-- Settles O43: bit 7 of byte 1 selects the shape, which is the row's. -/
theorem replyRowsDecode : Obligations.ReplyRowsDecode := by
  refine ⟨fun f s hexc => ?_, fun k f s hkind hexc => ?_, fun f s => ?_⟩
  · have hshape := parseReply_of_no_exception (f := f) hexc
    exact ⟨exec_reply_row rfl (hshape .rc), exec_reply_row rfl (hshape .rhr), exec_reply_row rfl (hshape .rir),
      exec_reply_row rfl (hshape .wsc), exec_reply_row rfl (hshape .wsr), exec_reply_row rfl (hshape .wmc),
      exec_reply_row rfl (hshape .wmr)⟩
  · exact exec_reply_row rfl (parseReply_of_exception hkind hexc)
  · exact exec_reply_row rfl (parseReply_raw f)

/-! ### The request of a single write as its reply (42_decode.md R131 (c)) -/

/-- For a function code without bit 7 and no tail, the frame is an echo of its own fields. -/
theorem decodeFrame_frame_of_echo {fc slave : Byte} {addr : Word} {fields : Fields} {kind : Kind}
    (hkind : kind = .wsc ∨ kind = .wsr ∨ kind = .wmc ∨ kind = .wmr) (hbit : fc.getLsbD 7 = false)
    (htail : Fields.tail fields = []) :
    decodeFrame (Command.frame (.structured fc slave addr fields)) false kind =
      .decoded (.echo slave fc addr (Fields.word fields)) := by
  have hlen : (Command.frame (.structured fc slave addr fields)).length = 8 := by
    rw [frame_structured_length, htail]; rfl
  have hreaches : ReachesShape (Command.frame (.structured fc slave addr fields)) :=
    ⟨by omega, verifyCrc_appendCrc _, hbit⟩
  rw [decodeFrame_of_reachesShape hreaches, parseByKind_writes hkind, parseEcho_of_length hlen, wordAt_frame_addr,
    wordAt_frame_word]
  rfl

theorem validateResponse_echo_of_match (req : Req) :
    validateResponse (.echo req.slaveId req.fc req.addr req.f2) req = .success (.written req.addr req.f2) := by
  simp [validateResponse, Decoded.slave, Decoded.fc, validateBody]

/-- Settles O44: the latch holds the very fields the frame carries. -/
theorem singleWriteEchoes : Obligations.SingleWriteEchoes := fun fc slave addr fields old hfc hpass => by
  have hdecode : decodeFrame (Command.frame (.structured fc slave addr fields)) false
      (Command.latch old (.structured fc slave addr fields)).kind =
      .decoded (.echo slave fc addr (Fields.word fields)) := by
    cases passingFields_of_paramsPass hpass with
    | wsc on => exact decodeFrame_frame_of_echo (.inl rfl) rfl rfl
    | wsr v => exact decodeFrame_frame_of_echo (.inr (.inl rfl)) rfl rfl
    | rc | rhr | rir | wmc | wmr => exact absurd hfc (by decide)
  exact ⟨hdecode, (judge_of_decoded hdecode).trans
    (validateResponse_echo_of_match (Command.latch old (.structured fc slave addr fields)))⟩

/-! ### Validate in its order (43_validate.md R140) -/

theorem exec_validateReply (d : Decoded) (req : Req) (s : State) :
    exec (.validateReply d req) s = .next { s with out := s.out ++ [.validated (validateResponse d req)] } := rfl

theorem coilsOf_length (data : List Byte) (qty : Nat) : (coilsOf data qty).length = qty := by simp [coilsOf]

theorem getElem_coilsOf (data : List Byte) (qty i : Nat) (h : i < (coilsOf data qty).length) :
    (coilsOf data qty)[i] = (data.getD (i / 8) (Config.absentCoilByte data (i / 8))).getLsbD (i % 8) := by
  simp [coilsOf]

/-- Settles O45: a header decides the first two checks, the constructor the last. -/
theorem validateInOrder : Obligations.ValidateInOrder := fun d req s => by
  refine ⟨validateResponse d req, exec_validateReply d req s, ?_, fun x fc hheader => ?_⟩
  · rintro bytes rfl
    rfl
  rw [validateResponse_of_headerOf hheader]
  refine ⟨fun hx => if_pos hx, fun hx h₁ h₂ => ?_, fun hx hfc => ?_⟩
  · rw [if_neg (not_not_intro hx), if_pos ⟨h₁, h₂⟩]
    rfl
  rw [if_neg (not_not_intro hx), if_neg (by tauto)]
  refine ⟨?exception, ?echo, ?bits, ?regs⟩
  case exception =>
    rintro code rfl
    rfl
  case echo =>
    rintro a w rfl
    exact ⟨fun ha hw => if_neg (by tauto), fun hne => if_pos hne⟩
  case bits =>
    rintro bc data rfl
    exact ⟨fun hbc => ⟨coilsOf data req.f2.toNat, if_neg (not_not_intro hbc), coilsOf_length _ _, getElem_coilsOf _ _⟩,
      fun hbc => if_pos hbc⟩
  case regs =>
    rintro bc values rfl
    exact ⟨fun hbc => if_neg (not_not_intro hbc), fun hbc => if_pos hbc⟩

/-! ### The store update (45_register_store.md R182) -/

theorem exec_storeUpdate (addr : Word) (vs : Values) (now : Nat) (s : State) :
    exec (.storeUpdate addr vs now) s = .next { s with store := Store.update s.store addr vs now } := rfl

/-- Settles O47: the run of addresses does not reach itself again, so each key holds its own value. -/
theorem storeUpdateEntries : Obligations.StoreUpdateEntries := fun addr vs words now s hvs hlen => by
  have hwords : valueWords vs = words := by obtain rfl | ⟨bits, rfl, rfl⟩ := hvs <;> rfl
  refine ⟨_, exec_storeUpdate addr vs now s, rfl, fun i hi => ?_, fun a ha => ?_⟩
  · rw [Store.update, hwords]
    exact Store.get_putWords_inside hlen hi
  · rw [Store.update, hwords]
    exact Store.get_putWords_outside fun i hi => Store.toNat_add_ofNat addr i ▸ ha i hi

end Sys2Proof.Machine
end

section
/-! The step and the wait (00_scope.md R8, 44_sequencer.md R156 to R159): what AttemptFail and RX come to, and that the
deadline ends a wait. -/

namespace Sys2Proof.Machine

open Sys2Proof.Safety

/-- Settles O2. -/
theorem stepTakesNextInput : Obligations.StepTakesNextInput :=
  ⟨fun _ _ _ _ hin hdec => step_packet hin hdec, fun _ _ hin => step_reset hin, fun _ hin => step_nil hin⟩

/-- Settles O27: both instructions dispatch the same Command. -/
theorem requestKindsAreDispatch : Obligations.RequestKindsAreDispatch := fun _ _ _ _ _ _ _ _ _ _ =>
  ⟨rfl, rfl, rfl, rfl, rfl, rfl, rfl, rfl⟩

/-! ### AttemptFail (R159) -/

theorem attemptFailOp_of_budget {s : State} (h : 0 < s.retriesLeft) (cls : AttemptClass) (now : Nat) :
    attemptFailOp cls .nonfatal now s = retryOp now s := if_pos h

theorem attemptFailOp_of_no_budget {s : State} (h : s.retriesLeft = 0) (cls : AttemptClass) (now : Nat) :
    attemptFailOp cls .nonfatal now s = closeOp (.failure (AttemptClass.failure cls)) now s :=
  if_neg (by omega)

/-- Settles O30: the class closes with the failure of its name. -/
theorem attemptFailRetriesOrCloses : Obligations.AttemptFailRetriesOrCloses := fun cls f now s hcls => by
  have hf : AttemptClass.failure cls = f := by obtain ⟨rfl, rfl⟩ | ⟨r, rfl, rfl⟩ := hcls <;> rfl
  simp only [exec_attemptFail, exec_close, ← hf]
  refine ⟨fun hbudget => ?_, fun hbudget => ?_, ?_, ?_⟩
  · rw [attemptFailOp_of_budget hbudget]
    rfl
  · rw [attemptFailOp_of_no_budget hbudget]
  · rw [attemptFailOp_fatalTransport]
  · rw [attemptFailOp_fatalHost]

/-! ### RX (R157) -/

theorem rxBytes_length (s : State) : (rxBytes s).length = s.rxLen := Memory.readBytes_length ..

/-- The bytes of `RX` after a chunk: the old ones followed by the chunk, cut at the buffer's size. -/
theorem rxBytes_hearOp {s : State} (hlen : s.rxLen ≤ 256) (hwf : Memory.Wf 256 s.rx) (bytes : List Byte) (now : Nat) :
    rxBytes (hearOp bytes now s) = (rxBytes s ++ bytes).take 256 := by
  have hfit : s.rxLen + (bytes.take (256 - s.rxLen)).length ≤ 256 := by rw [List.length_take]; omega
  have hnew : min 256 (s.rxLen + bytes.length) = s.rxLen + (bytes.take (256 - s.rxLen)).length := by
    rw [List.length_take]; omega
  have hold : Memory.readBytes (Memory.writeBytes s.rx s.rxLen (bytes.take (256 - s.rxLen))) 0 s.rxLen = rxBytes s :=
    Memory.readBytes_congr fun i hi => Memory.read_writeBytes_outside (.inl (by omega))
  have hall : (rxBytes s).take 256 = rxBytes s := List.take_of_length_le (by rw [rxBytes_length]; exact hlen)
  rw [hearOp_eq hlen, rxBytes, hnew, Memory.readBytes_add, hold, Nat.zero_add, Memory.readBytes_writeBytes hwf hfit,
    List.take_append, rxBytes_length, hall]

theorem receiveOp_of_ne_nil {bytes : List Byte} (h : bytes ≠ []) (now : Nat) (s : State) :
    receiveOp bytes now s = evalWaitOp now (hearOp bytes now s) := if_neg h

theorem exec_rx_of_awaiting {s : State} (h : s.fsm = .awaitingResponse) (bytes : List Byte) (now : Nat) :
    exec (.rx bytes now) s = .next (receiveOp bytes now s) := congrArg Host.Outcome.next (if_pos h)

theorem exec_rx_ignored {s : State} (h : s.fsm ≠ .awaitingResponse) (bytes : List Byte) (now : Nat) :
    exec (.rx bytes now) s = .next s := congrArg Host.Outcome.next (if_neg h)

/-- Settles O34: the chunk enters `RX` by `hearOp`, then the wait is tested. -/
theorem rxAppends : Obligations.RxAppends := by
  refine ⟨fun bytes now s hne hs hlen hwf => ?_, fun bytes now s hs => exec_rx_ignored hs bytes now⟩
  refine ⟨hearOp bytes now s, evalWaitOp now (hearOp bytes now s), ?_, rfl, hearOp_frame bytes now s, ?_, ?_,
    rxBytes_hearOp hlen hwf bytes now, fun i hi => ?_⟩
  · rw [exec_rx_of_awaiting hs, receiveOp_of_ne_nil hne]
  · rw [hearOp_eq hlen]
  · rw [hearOp_eq hlen, Bool.or_eq_true, decide_eq_true_eq]
  · rw [hearOp_eq hlen]
    exact Memory.read_writeBytes_outside (hi.imp_right fun hi => by rw [List.length_take]; omega)

/-! ### The deadline (R156, 20_memory.md R48) -/

theorem attemptFailOp_ends_wait (cls : AttemptClass) (sev : Severity) (now : Nat) (s : State) :
    (attemptFailOp cls sev now s).fsm ≠ .awaitingResponse := by
  obtain ⟨-, -, h⟩ | ⟨-, -, h⟩ | ⟨-, h⟩ := attemptFailOp_cases cls sev now s <;> rw [h] <;> exact Fsm.noConfusion

theorem evalWaitOp_ends_wait {now : Nat} {s : State} (hdue : s.deadline ≤ now) :
    (evalWaitOp now s).fsm ≠ .awaitingResponse := by
  obtain ⟨-, h⟩ | ⟨-, -, h⟩ | ⟨-, hpending, -⟩ := evalWaitOp_cases now s
  · rw [h]; exact Fsm.noConfusion
  · rw [h]; exact attemptFailOp_ends_wait _ _ now s
  · omega

/-- Settles O56: either event tests the wait, and a chunk leaves the deadline alone. -/
theorem deadlineEndsWait : Obligations.DeadlineEndsWait := fun i now s hi hs _ hdue => by
  obtain rfl | ⟨bytes, rfl⟩ := hi
  · exact ⟨_, exec_tick_of_awaiting hs now, evalWaitOp_ends_wait hdue⟩
  · refine ⟨_, exec_rx_of_awaiting hs bytes now, ?_⟩
    by_cases hne : bytes = []
    · rw [receiveOp, if_pos hne]
      exact evalWaitOp_ends_wait hdue
    · rw [receiveOp_of_ne_nil hne]
      exact evalWaitOp_ends_wait (by rw [hearOp_deadline]; exact hdue)

end Sys2Proof.Machine
end

section
/-! The rules of a whole step of the block (44_sequencer.md R169 (b) to (g), 20_memory.md R49, premise R152 (a)): each is
shown of every move, then of the step. -/

namespace Sys2Proof.Machine

open Sys2Proof.Safety

@[simp] theorem txBytes_hearOp (bytes : List Byte) (now : Nat) (s : State) :
    txBytes (hearOp bytes now s) = txBytes s := by simp [txBytes]

/-! ### Who writes the store (R169 (e)) -/

/-- The kinds whose values are stored (45_register_store.md R184). -/
def ReadKind (k : Kind) : Prop := k = .rc ∨ k = .rhr ∨ k = .rir

theorem parseReply_of_not_read {k : Kind} (h : ¬ ReadKind k) (f : List Byte) :
    parseReply k f = parseRaw f ∨ parseReply k f = parseException f ∨ parseReply k f = parseEcho f := by
  by_cases hraw : k = .raw
  · exact .inl (if_pos hraw)
  cases hbit : (byteAt f 1).getLsbD 7 with
  | true => exact .inr (.inl (parseReply_of_exception hraw hbit))
  | false =>
    rw [parseReply_of_no_exception hbit]
    refine .inr (.inr (parseByKind_writes ?_ f))
    cases k <;> simp [ReadKind] at h hraw ⊢

/-- The replies that do not validate to read values. -/
inductive NoReadReply : Decoded → Prop
  | echo (s fc : Byte) (a v : Word) : NoReadReply (.echo s fc a v)
  | exception (s fc code : Byte) : NoReadReply (.exception s fc code)
  | rawReply (bytes : List Byte) : NoReadReply (.rawReply bytes)

theorem noReadReply_of_decoded {f : List Byte} {ovf : Bool} {k : Kind} {d : Decoded} (h : ¬ ReadKind k)
    (hd : decodeFrame f ovf k = .decoded d) : NoReadReply d := by
  have hparse := (decodeFrame_eq_decoded hd).2
  obtain hshape | hshape | hshape := parseReply_of_not_read h f <;> rw [hshape] at hparse
  · cases hparse; exact .rawReply f
  · rw [parseException] at hparse
    split at hparse <;> cases hparse
    exact .exception ..
  · rw [parseEcho] at hparse
    split at hparse <;> cases hparse
    exact .echo ..

theorem NoReadReply.verdictStore_validateResponse {d : Decoded} (h : NoReadReply d) (req : Req) (addr : Word)
    (now : Nat) (st : Store) : verdictStore addr now st (validateResponse d req) = st := by
  cases h with
  | rawReply => rfl
  | exception s fc code =>
    obtain ⟨r, h⟩ | ⟨-, -, h⟩ := validateResponse_cases (d := .exception s fc code) rfl req <;> rw [h] <;> rfl
  | echo s fc a v =>
    obtain ⟨r, h⟩ | ⟨-, -, h⟩ := validateResponse_cases (d := .echo s fc a v) rfl req <;> rw [h]
    · rfl
    · rw [validateBody]
      split <;> rfl

/-- The reply to a request that reads nothing stores nothing. -/
theorem verdictStore_judge_of_not_read {req : Req} (h : ¬ ReadKind req.kind) (f : List Byte) (ovf : Bool)
    (addr : Word) (now : Nat) (st : Store) : verdictStore addr now st (judge f ovf req) = st := by
  cases hd : decodeFrame f ovf req.kind with
  | malformed r => rw [judge_of_malformed hd]; rfl
  | decoded d => rw [judge_of_decoded hd]; exact (noReadReply_of_decoded h hd).verdictStore_validateResponse ..

/-- The store after a VALIDATE: as it was, or the reply to a read succeeded. -/
theorem validateOp_store (now : Nat) (s : State) :
    (validateOp now s).store = s.store ∨
    (ReadKind s.req.kind ∧ ∃ r, (validateOp now s).history = s.history ++ [r] ∧ r.term = .completed) := by
  by_cases hkind : ReadKind s.req.kind
  · cases hv : judge (rxBytes s) s.rxOvf s.req with
    | failure f => left; rw [validateOp, hv]; rfl
    | success p => exact .inr ⟨hkind, _, rfl, by rw [hv]; rfl⟩
  · exact .inl (verdictStore_judge_of_not_read hkind _ _ _ now s.store)

theorem move_store {i : Option Instr} {now : Nat} {s t : State} (hm : Move i now s t) :
    t.store = s.store ∨ (Disconnects i ∧ t.store = []) ∨
    (i = some (.validate now) ∧ ReadKind s.req.kind ∧ ∃ r, t.history = s.history ++ [r] ∧ r.term = .completed) := by
  induction hm with
  | stay | answer | configure | refuse | start | listen | complete | retry | fail => exact .inl rfl
  | hear s t bytes _ _ ih => simpa using ih
  | validate s _ hi => exact (validateOp_store now s).imp_right fun hread => .inr ⟨hi, hread⟩
  | disconnect s byTransport _ hi | abort s f byTransport _ hi => exact .inr (.inl ⟨hi, rfl⟩)

/-- Settles O48. -/
theorem storeWritersAre : Obligations.StoreWritersAre := fun s t hev hstep hchanged => by
  obtain ⟨hreset, rest, -, rfl⟩ | ⟨-, rest, now, hm, -⟩ := step_move hev hstep 0
  · exact .inl ⟨hreset, rfl⟩
  obtain hsame | ⟨hdisc | hfault, hempty⟩ | ⟨hi, hread, hrecord⟩ := move_store hm
  · exact absurd hsame hchanged
  · exact .inr (.inl ⟨hdisc, hempty⟩)
  · exact .inr (.inr (.inl ⟨hfault, hempty⟩))
  · exact .inr (.inr (.inr ⟨⟨now, hi⟩, hread, hrecord⟩))

/-! ### The retry budget (R169 (g)) -/

theorem move_budget {i : Option Instr} {now : Nat} {s t : State} (hm : Move i now s t)
    (ht : Fsm.active t.fsm = true) :
    (Fsm.active s.fsm = true → t.attempts + t.retriesLeft = s.attempts + s.retriesLeft) ∧
    (s.fsm = .idle → t.attempts + t.retriesLeft = 1 + s.cfgRetry) := by
  induction hm with
  | stay s | answer s | configure s | refuse s => exact ⟨fun _ => rfl, fun hs => absurd ht (not_active_of_idle hs)⟩
  | start s _ _ _ hs => exact ⟨fun ha => absurd ha (not_active_of_idle hs), fun _ => rfl⟩
  | listen s hs | complete s hs => exact ⟨fun _ => rfl, fun hi => Fsm.noConfusion (hs.symm.trans hi)⟩
  | hear s t bytes _ _ ih => simpa using ih ht
  | retry s hs hr =>
    refine ⟨fun _ => ?_, fun hi => absurd hs (not_active_of_idle hi)⟩
    show s.attempts + 1 + (s.retriesLeft - 1) = _
    omega
  | fail | validate | abort => exact absurd ht (not_active_of_idle rfl)
  | disconnect s _ hs => exact absurd ht (not_active_of_idle hs)

/-- Settles O51: after a reset nothing is active. -/
theorem retryBudgetConstant : Obligations.RetryBudgetConstant := fun s t hev hstep => by
  obtain ⟨-, rest, -, rfl⟩ | ⟨-, rest, now, hm, -⟩ := step_move hev hstep 0
  · exact ⟨fun _ ht => absurd ht (not_active_of_idle rfl), fun _ ht => absurd ht (not_active_of_idle rfl)⟩
  · exact ⟨fun hs ht => (move_budget hm ht).1 hs, fun hs ht => (move_budget hm ht).2 hs⟩

/-! ### What a transaction in flight keeps (10_state.md R13, 20_memory.md R49) -/

theorem move_request {i : Option Instr} {now : Nat} {s t : State} (hm : Move i now s t)
    (hs : Fsm.active s.fsm = true) :
    t.tx = s.tx ∧ t.txLen = s.txLen ∧ t.req = s.req ∧ t.curSeq = s.curSeq ∧ t.tStart = s.tStart ∧
      t.timeoutL = s.timeoutL ∧ t.quietL = s.quietL := by
  induction hm with
  | start s _ _ _ hidle => exact absurd hs (not_active_of_idle hidle)
  | hear s t bytes _ _ ih => simpa [hs] using ih
  | _ => exact ⟨rfl, rfl, rfl, rfl, rfl, rfl, rfl⟩

/-- Settles O53. -/
theorem requestImmutable : Obligations.RequestImmutable := fun s t hev hreset hs hstep => by
  obtain ⟨rest, now, hm⟩ := step_move_of_not_reset hev hreset hstep
  exact (move_request hm hs :)

/-! ### What goes to the wire (R169 (c), (f)) -/

/-- From `s` to `t` the messages added hold a `tp.write` only of the verified frame then in `TX`, for the first attempt
or for another one of the transaction in flight. -/
def SendsOwnFrame (s t : State) : Prop :=
  ∃ ms, t.out = s.out ++ ms ∧
    ∀ b, .tpWrite b ∈ ms →
      t.fsm = .sending ∧ b = txBytes t ∧ verifyCrc b = true ∧
      (s.fsm = .idle ∨ (Fsm.active s.fsm = true ∧ b = txBytes s ∧ t.curSeq = s.curSeq))

theorem sendsOwnFrame_of_silent {s t : State} {ms : List Msg} (hout : t.out = s.out ++ ms)
    (hms : ∀ b, .tpWrite b ∉ ms) : SendsOwnFrame s t :=
  ⟨ms, hout, fun b hb => absurd hb (hms b)⟩

theorem sendsOwnFrame_of_out_eq {s t : State} (hout : t.out = s.out) : SendsOwnFrame s t :=
  sendsOwnFrame_of_silent (ms := []) (by rw [hout, List.append_nil]) fun _ => List.not_mem_nil

/-- An attempt sends what is in `TX`, which the invariant says verifies. -/
theorem sendsOwnFrame_of_attempt {s t : State} (ht : ProtocolInv t) (hfsm : t.fsm = .sending)
    (hout : t.out = s.out ++ [.tpWrite (txBytes t)])
    (hs : s.fsm = .idle ∨ (Fsm.active s.fsm = true ∧ txBytes t = txBytes s ∧ t.curSeq = s.curSeq)) :
    SendsOwnFrame s t :=
  ⟨_, hout, fun b hb => by
    obtain rfl := Msg.tpWrite.inj (List.mem_singleton.mp hb)
    exact ⟨hfsm, rfl, ht.frameGood (active_of_sending hfsm), hs⟩⟩

theorem move_sendsOwnFrame {i : Option Instr} {now : Nat} {s t : State} (hm : Move i now s t) (h : ProtocolInv s) :
    SendsOwnFrame s t := by
  induction hm with
  | stay | configure | listen | complete => exact sendsOwnFrame_of_out_eq rfl
  | answer s m _ hw =>
    exact sendsOwnFrame_of_silent rfl fun b hb => hw b (List.mem_singleton.mp hb).symm
  | refuse | fail | validate => exact sendsOwnFrame_of_silent rfl (by simp)
  | disconnect s byTransport => exact sendsOwnFrame_of_silent rfl (by cases byTransport <;> simp)
  | abort s f byTransport =>
    exact sendsOwnFrame_of_silent (List.append_assoc ..) (by cases byTransport <;> simp)
  | start s cmd timeout hpass hs =>
    exact sendsOwnFrame_of_attempt (protocolInv_start h hpass hs timeout now) rfl rfl (.inl hs)
  | retry s hs => exact sendsOwnFrame_of_attempt (protocolInv_retryOp h hs now) rfl rfl (.inr ⟨hs, rfl, rfl⟩)
  | hear s t bytes hs _ ih => simpa [SendsOwnFrame] using ih (protocolInv_hearOp h hs bytes now)

/-- Settles O52. -/
theorem wireDiscipline : Obligations.WireDiscipline := fun s t h hev hreset hstep => by
  obtain ⟨rest, now, hm⟩ := step_move_of_not_reset hev hreset hstep
  exact (move_sendsOwnFrame hm (protocolInv_setInbox h rest) :)

/-! ### One outcome for each close (R169 (b), (d)) -/

/-- From `s` to `t` history gains the record of the transaction that closes, and the messages added hold its outcome
alone; or history stays and an outcome is a refusal. -/
def OutcomeIsRecorded (s t : State) : Prop :=
  ∃ ms, t.out = s.out ++ ms ∧
    ((∃ r, t.history = s.history ++ [r] ∧ r.seq = s.curSeq ∧ Fsm.active s.fsm = true ∧ t.fsm = .idle ∧
        outcomesOf ms = [r.outcome]) ∨
      (t.history = s.history ∧
        (outcomesOf ms = [] ∨ outcomesOf ms = [.failure .invalidParameter] ∨ outcomesOf ms = [.failure .busy])))

theorem outcomeIsRecorded_of_none {s t : State} {ms : List Msg} (hout : t.out = s.out ++ ms)
    (hhist : t.history = s.history) (hms : outcomesOf ms = []) : OutcomeIsRecorded s t :=
  ⟨ms, hout, .inr ⟨hhist, .inl hms⟩⟩

theorem outcomeIsRecorded_of_out_eq {s t : State} (hout : t.out = s.out) (hhist : t.history = s.history) :
    OutcomeIsRecorded s t :=
  outcomeIsRecorded_of_none (ms := []) (by rw [hout, List.append_nil]) hhist rfl

theorem outcomesOf_singleton_of_ne {m : Msg} (h : ∀ o, m ≠ .outcome o) : outcomesOf [m] = [] := by
  cases m with
  | outcome o => exact absurd rfl (h o)
  | _ => rfl

theorem move_outcomeIsRecorded {i : Option Instr} {now : Nat} {s t : State} (hm : Move i now s t) :
    OutcomeIsRecorded s t := by
  induction hm with
  | stay | configure | listen | complete => exact outcomeIsRecorded_of_out_eq rfl rfl
  | answer s m ho => exact outcomeIsRecorded_of_none rfl rfl (outcomesOf_singleton_of_ne ho)
  | start | retry => exact outcomeIsRecorded_of_none rfl rfl rfl
  | disconnect s byTransport => exact outcomeIsRecorded_of_none rfl rfl (by cases byTransport <;> rfl)
  | refuse s f hf => exact ⟨_, rfl, .inr ⟨rfl, .inr (by obtain rfl | rfl := hf <;> simp [outcomesOf])⟩⟩
  | fail s f hs => exact ⟨_, rfl, .inl ⟨_, rfl, rfl, hs, rfl, rfl⟩⟩
  | validate s hs => exact ⟨_, rfl, .inl ⟨_, rfl, rfl, active_of_validating hs, rfl, rfl⟩⟩
  | abort s f byTransport hs =>
    exact ⟨_, List.append_assoc .., .inl ⟨_, rfl, rfl, hs, rfl, by cases byTransport <;> rfl⟩⟩
  | hear s t bytes _ _ ih => simpa [OutcomeIsRecorded] using ih

/-- Settles O55. -/
theorem oneOutcomePerClose : Obligations.OneOutcomePerClose := fun s t hev hreset hstep => by
  obtain ⟨rest, now, hm⟩ := step_move_of_not_reset hev hreset hstep
  exact (move_outcomeIsRecorded hm :)

/-! ### Times that rise (premise R152 (a)) -/

/-- A close at `now` records a transaction that began at or before it. -/
theorem timeInv_close {now : Nat} {s t : State} (h : TimeInv now s) (hs : Fsm.active s.fsm = true)
    (hinbox : t.inbox = s.inbox) (hidle : t.fsm = .idle) {r : Record} (hhist : t.history = s.history ++ [r])
    (hstart : r.tStart = s.tStart) (hend : r.tEnd = now) : TimeInv now t where
  rises := hinbox ▸ h.rises
  begun := fun ha => absurd ha (not_active_of_idle hidle)
  heard := fun _ _ ha => absurd ha (not_active_of_idle hidle)
  records := by
    intro q hq
    rw [hhist, List.mem_append, List.mem_singleton] at hq
    obtain hq | rfl := hq
    · exact h.records q hq
    · rw [hstart, hend]; exact h.begun hs

theorem timeInv_move {i : Option Instr} {now : Nat} {s t : State} (hm : Move i now s t) (h : TimeInv now s) :
    TimeInv now t := by
  induction hm with
  | stay => exact h
  | answer | configure | refuse | disconnect => exact ⟨h.rises, h.begun, h.heard, h.records⟩
  | start => exact ⟨h.rises, fun _ => Nat.le_refl now, fun _ hu => (nomatch hu), h.records⟩
  | listen s hs =>
    exact ⟨h.rises, fun _ => h.begun (active_of_sending hs), fun u hu _ => h.heard u hu (active_of_sending hs), h.records⟩
  | complete s hs =>
    exact ⟨h.rises, fun _ => h.begun (active_of_awaiting hs), fun u hu _ => h.heard u hu (active_of_awaiting hs),
      h.records⟩
  | retry s hs => exact ⟨h.rises, fun _ => h.begun hs, fun _ hu => (nomatch hu), h.records⟩
  | hear s t bytes _ _ ih =>
    refine ih ⟨by simpa using h.rises, by simpa using h.begun, fun u hu _ => ?_, by simpa using h.records⟩
    exact Nat.le_of_eq (Option.some.inj hu).symm
  | fail s f hs => exact timeInv_close h hs rfl rfl rfl rfl rfl
  | validate s hs => exact timeInv_close h (active_of_validating hs) rfl rfl rfl rfl rfl
  | abort s f byTransport hs => exact timeInv_close h hs rfl rfl rfl rfl rfl

/-- Settles O57: the later time is that of the event, or the same one when the step carries none. -/
theorem timesStayOrdered : Obligations.TimesStayOrdered := fun earlier s t h hev hstep => by
  obtain ⟨-, rest, hin, rfl⟩ | ⟨-, rest, now, hm, htimes⟩ := step_move hev hstep earlier
  · have hrises : TimesRise earlier rest := by simpa [hin, TimesRise] using h.rises
    exact ⟨earlier, Nat.le_refl _, hrises, fun ha => absurd ha (not_active_of_idle rfl),
      fun _ _ ha => absurd ha (not_active_of_idle rfl), fun _ hr => absurd hr List.not_mem_nil⟩
  · obtain ⟨hle, hrises⟩ := htimes h.rises
    exact ⟨now, hle, timeInv_move hm ⟨hrises, fun ha => (h.begun ha).trans hle,
      fun u hu ha => (h.heard u hu ha).trans hle, h.records⟩⟩

end Sys2Proof.Machine
end

section
/-! What a step of the block depends on (10_state.md R36, 44_sequencer.md section 5): each shared operation takes states
that agree on it to states that agree on it. -/

namespace Sys2Proof.Machine

open Sys2Proof.Safety

theorem sameSeen_refl (s : State) : SameSeen s s :=
  ⟨rfl, rfl, rfl, rfl, rfl, rfl, rfl, rfl, rfl, rfl, rfl, rfl, rfl, rfl, rfl, fun _ => ⟨rfl, rfl⟩,
    fun _ => ⟨rfl, fun _ => rfl⟩, fun _ => ⟨rfl, rfl, rfl, rfl, rfl, rfl⟩⟩

/-! ### The request latch and the verdict -/

/-- Two latches hold the same, but for the fields that no raw request has (R12). -/
theorem latch_agrees {cmd : Command} (hpass : paramsPass cmd = true) (old old' : Req) :
    (Command.latch old' cmd).kind = (Command.latch old cmd).kind ∧
      ((Command.latch old cmd).kind ≠ .raw → Command.latch old' cmd = Command.latch old cmd) := by
  cases cmd with
  | raw bytes => exact ⟨rfl, fun hraw => absurd rfl hraw⟩
  | structured fc slave addr fields =>
    have hlatch : Command.latch old' (.structured fc slave addr fields) =
        Command.latch old (.structured fc slave addr fields) := by
      cases passingFields_of_paramsPass hpass <;> rfl
    exact ⟨congrArg Req.kind hlatch, fun _ => hlatch⟩

/-- The verdict on a reply needs the kind of the request and, for a structured one, the whole latch (R147). -/
theorem judge_agrees {req req' : Req} (hkind : req'.kind = req.kind) (hreq : req.kind ≠ .raw → req' = req)
    (f : List Byte) (ovf : Bool) : judge f ovf req' = judge f ovf req := by
  by_cases hraw : req.kind = .raw
  · cases hd : decodeFrame f ovf req.kind with
    | malformed r => rw [judge_of_malformed hd, judge_of_malformed (hkind.symm ▸ hd)]
    | decoded d =>
      rw [judge_of_decoded hd, judge_of_decoded (hkind.symm ▸ hd)]
      have hparse := (decodeFrame_eq_decoded hd).2
      rw [hraw, parseReply_raw] at hparse
      cases hparse
      rfl
  · rw [hreq hraw]

/-- A reply to RAW stores nothing, so its close does not read the latched address. -/
theorem verdictStore_judge_agrees {req req' : Req} (hreq : req.kind ≠ .raw → req' = req) (f : List Byte) (ovf : Bool)
    (now : Nat) (st : Store) :
    verdictStore req'.addr now st (judge f ovf req) = verdictStore req.addr now st (judge f ovf req) := by
  by_cases hraw : req.kind = .raw
  · have hread : ¬ ReadKind req.kind := by rw [hraw]; simp [ReadKind]
    rw [verdictStore_judge_of_not_read hread, verdictStore_judge_of_not_read hread]
  · rw [hreq hraw]

section
variable {s s' : State} (h : SameSeen s s')
include h

/-! ### Outputs and the disconnect actions -/

theorem sameSeen_emit {m m' : Msg} (hm : m' = m) : SameSeen (emit m s) (emit m' s') :=
  { h with out := by rw [emit_out, emit_out, h.out, hm] }

theorem sameSeen_answerAtOnce (f : Failure) : SameSeen (answerAtOnce f s) (answerAtOnce f s') :=
  { h with lastError := rfl, out := by rw [answerAtOnce_out, answerAtOnce_out, h.out] }

theorem sameSeen_disconnectActions (byTransport : Bool) :
    SameSeen (disconnectActions byTransport s) (disconnectActions byTransport s') :=
  { h with store := rfl, out := by rw [disconnectActions_out, disconnectActions_out, h.out] }

/-! ### Attempts -/

theorem sameSeen_setFsm (hs : Fsm.active s.fsm = true) (f : Fsm) :
    SameSeen { s with fsm := f } { s' with fsm := f } :=
  { h with
    fsm := rfl
    activeTx := fun _ => h.activeTx hs
    activeReq := fun _ => h.activeReq hs
    activeTimes := fun _ => h.activeTimes hs }

/-- An attempt sets the receive side and reads only what an active transaction fixes. -/
theorem sameSeen_startAttemptOp (hs : Fsm.active s.fsm = true) (now : Nat) :
    SameSeen (startAttemptOp now s) (startAttemptOp now s') := by
  obtain ⟨htx, -⟩ := h.activeTx hs
  obtain ⟨hcur, hstart, -, -, htimeout, hquiet⟩ := h.activeTimes hs
  exact { h with
    rxLen := rfl
    rxOvf := rfl
    fsm := rfl
    out := by rw [startAttemptOp_out, startAttemptOp_out, h.out, htx]
    activeTx := fun _ => ⟨htx, rfl⟩
    activeReq := fun _ => h.activeReq hs
    activeTimes := fun _ => ⟨hcur, hstart, congrArg (now + ·) htimeout, rfl, htimeout, hquiet⟩ }

theorem sameSeen_retryOp (hs : Fsm.active s.fsm = true) (now : Nat) : SameSeen (retryOp now s) (retryOp now s') :=
  { sameSeen_startAttemptOp h hs now with
    retriesLeft := congrArg (· - 1) h.retriesLeft
    attempts := congrArg (· + 1) h.attempts }

/-- Starting a transaction writes every register that was dead in Idle. -/
theorem sameSeen_start {cmd : Command} (hpass : paramsPass cmd = true) (hwf : Memory.Wf 256 s.tx)
    (hwf' : Memory.Wf 256 s'.tx) (timeout : Option Nat) (now : Nat) :
    SameSeen (startAttemptOp now (beginTransaction timeout now (encodeOp cmd s)))
      (startAttemptOp now (beginTransaction timeout now (encodeOp cmd s'))) := by
  have htx : txBytes (encodeOp cmd s') = txBytes (encodeOp cmd s) := by
    rw [txBytes_encodeOp hpass hwf, txBytes_encodeOp hpass hwf']
  have htimeout : timeout.getD s'.cfgTimeout = timeout.getD s.cfgTimeout := congrArg _ h.cfgTimeout
  exact { h with
    txLen := rfl
    rxLen := rfl
    rxOvf := rfl
    fsm := rfl
    seqNext := congrArg (· + 1) h.seqNext
    retriesLeft := h.cfgRetry
    attempts := rfl
    out := congrArg₂ (fun out bs => out ++ [Msg.tpWrite bs]) h.out htx
    activeTx := fun _ => ⟨htx, rfl⟩
    activeReq := fun _ => latch_agrees hpass s.req s'.req
    activeTimes := fun _ => ⟨h.seqNext, rfl, congrArg (now + ·) htimeout, rfl, htimeout, h.cfgQuiet⟩ }

theorem sameSeen_dispatchOp (hinv : Inv s) (hinv' : Inv s') (cmd : Command) (timeout : Option Nat) (now : Nat) :
    SameSeen (dispatchOp cmd timeout now s) (dispatchOp cmd timeout now s') := by
  obtain ⟨hfail, heq⟩ | ⟨hpass, hbusy, heq⟩ | ⟨hpass, hidle, heq⟩ := dispatchOp_cases cmd timeout now s <;> rw [heq]
  · rw [dispatchOp_invalid hfail]
    exact sameSeen_answerAtOnce h _
  · rw [dispatchOp_busy hpass (h.fsm ▸ hbusy)]
    exact sameSeen_answerAtOnce h _
  · rw [dispatchOp_idle hpass (h.fsm ▸ hidle)]
    exact sameSeen_start h hpass hinv.txWf hinv'.txWf timeout now

/-! ### Closing -/

theorem closeRecord_agrees (hs : Fsm.active s.fsm = true) (v : Verdict) (now : Nat) :
    closeRecord v now s' = closeRecord v now s := by
  obtain ⟨htx, hrx⟩ := h.activeTx hs
  obtain ⟨hcur, hstart, -⟩ := h.activeTimes hs
  rw [closeRecord, closeRecord, hcur, hstart, h.attempts, htx, hrx]

/-- A close reads nothing dead, if the store it leaves does not. -/
theorem sameSeen_closeOp (hs : Fsm.active s.fsm = true) {v : Verdict} {now : Nat}
    (hstore : verdictStore s'.req.addr now s.store v = verdictStore s.req.addr now s.store v) :
    SameSeen (closeOp v now s) (closeOp v now s') :=
  { h with
    fsm := rfl
    lastError := congrArg (verdictLastError · v) h.lastError
    store := by rw [closeOp_store, closeOp_store, h.store, hstore]
    history := by rw [closeOp_history, closeOp_history, h.history, closeRecord_agrees h hs]
    out := by rw [closeOp_out, closeOp_out, h.out, (h.activeTimes hs).2.1]
    activeTx := fun ha => absurd ha (not_active_of_idle rfl)
    activeReq := fun ha => absurd ha (not_active_of_idle rfl)
    activeTimes := fun ha => absurd ha (not_active_of_idle rfl) }

theorem sameSeen_attemptFailOp (hs : Fsm.active s.fsm = true) (cls : AttemptClass) (sev : Severity) (now : Nat) :
    SameSeen (attemptFailOp cls sev now s) (attemptFailOp cls sev now s') := by
  cases sev with
  | nonfatal =>
    by_cases hbudget : 0 < s.retriesLeft
    · rw [attemptFailOp_of_budget hbudget, attemptFailOp_of_budget (h.retriesLeft ▸ hbudget)]
      exact sameSeen_retryOp h hs now
    · have hzero : s.retriesLeft = 0 := by omega
      rw [attemptFailOp_of_no_budget hzero, attemptFailOp_of_no_budget (h.retriesLeft.trans hzero)]
      exact sameSeen_closeOp h hs rfl
  | fatalTransport => exact sameSeen_closeOp (sameSeen_disconnectActions h true) hs rfl
  | fatalHost => exact sameSeen_closeOp (sameSeen_disconnectActions h false) hs rfl

theorem sameSeen_validateOp (hs : s.fsm = .validating) (now : Nat) : SameSeen (validateOp now s) (validateOp now s') := by
  have ha := active_of_validating hs
  obtain ⟨hkind, hreq⟩ := h.activeReq ha
  have hverdict : judge (rxBytes s') s'.rxOvf s'.req = judge (rxBytes s) s.rxOvf s.req := by
    rw [(h.activeTx ha).2, h.rxOvf, judge_agrees hkind hreq]
  have hclose := sameSeen_closeOp h ha (verdictStore_judge_agrees hreq (rxBytes s) s.rxOvf now s.store)
  rw [validateOp, validateOp, hverdict]
  exact { hclose with }

/-! ### Waiting -/

theorem frameComplete_agrees (hs : Fsm.active s.fsm = true) (now : Nat) : frameComplete s' now = frameComplete s now := by
  obtain ⟨-, -, -, hlast, -, hquiet⟩ := h.activeTimes hs
  rw [frameComplete, frameComplete, h.rxLen, hlast, hquiet]

theorem deadlineHit_agrees (hs : Fsm.active s.fsm = true) (now : Nat) : deadlineHit s' now = deadlineHit s now := by
  obtain ⟨-, -, hdeadline, -⟩ := h.activeTimes hs
  rw [deadlineHit, deadlineHit, hdeadline]

theorem sameSeen_evalWaitOp (hs : s.fsm = .awaitingResponse) (now : Nat) :
    SameSeen (evalWaitOp now s) (evalWaitOp now s') := by
  have ha := active_of_awaiting hs
  rw [evalWaitOp, evalWaitOp, frameComplete_agrees h ha, deadlineHit_agrees h ha]
  split
  · exact sameSeen_setFsm h ha .validating
  · split
    · exact sameSeen_attemptFailOp h ha _ _ now
    · exact h

theorem sameSeen_hearOp (hinv : Inv s) (hinv' : Inv s') (hs : Fsm.active s.fsm = true) (bytes : List Byte) (now : Nat) :
    SameSeen (hearOp bytes now s) (hearOp bytes now s') := by
  obtain ⟨htx, hrx⟩ := h.activeTx hs
  have hbytes : rxBytes (hearOp bytes now s') = rxBytes (hearOp bytes now s) := by
    rw [rxBytes_hearOp hinv.rxLenLe hinv.rxWf, rxBytes_hearOp hinv'.rxLenLe hinv'.rxWf, hrx]
  have htxBytes : txBytes (hearOp bytes now s') = txBytes (hearOp bytes now s) := by simpa using htx
  obtain ⟨hcur, hstart, hdeadline, -, htimeout, hquiet⟩ := h.activeTimes hs
  rw [hearOp_eq hinv.rxLenLe, hearOp_eq hinv'.rxLenLe] at hbytes htxBytes ⊢
  exact { h with
    rxLen := by rw [h.rxLen]
    rxOvf := by rw [h.rxLen, h.rxOvf]
    activeTx := fun _ => ⟨htxBytes, hbytes⟩
    activeTimes := fun _ => ⟨hcur, hstart, hdeadline, rfl, htimeout, hquiet⟩ }

theorem sameSeen_receiveOp (hinv : Inv s) (hinv' : Inv s') (hs : s.fsm = .awaitingResponse) (bytes : List Byte)
    (now : Nat) : SameSeen (receiveOp bytes now s) (receiveOp bytes now s') := by
  rw [receiveOp, receiveOp]
  split
  · exact sameSeen_evalWaitOp h hs now
  · exact sameSeen_evalWaitOp (sameSeen_hearOp h hinv hinv' (active_of_awaiting hs) bytes now)
      ((hearOp_fsm bytes now s).trans hs) now

/-! ### Events -/

/-- An event takes states that agree to states that agree: its own test is of `fsm`, which does. -/
theorem sameSeen_exec {i : Instr} (hinv : Inv s) (hinv' : Inv s') (hi : i.isEvent = true) {t : State}
    (hexec : exec i s = .next t) : ∃ t', exec i s' = .next t' ∧ SameSeen t t' := by
  cases i <;> simp only [Instr.isEvent, Bool.false_eq_true] at hi <;> cases hexec <;> refine ⟨_, rfl, ?_⟩
  case getRegister => exact sameSeen_emit h (by rw [h.store])
  case readHistory => exact sameSeen_emit h (by rw [h.history])
  case readLastError => exact sameSeen_emit h (by rw [h.lastError])
  case connect => exact h
  case cfgWrite =>
    split
    · exact { h with cfgTimeout := rfl }
    · split
      · exact { h with cfgQuiet := rfl }
      · split
        · exact { h with cfgRetry := rfl }
        · exact h
  case cancel now =>
    rw [h.fsm]
    split
    · next hs => exact sameSeen_closeOp h (active_of_awaiting hs) rfl
    · exact h
  case disconnect now =>
    rw [h.fsm]
    split
    · next hs => exact sameSeen_attemptFailOp h hs _ _ now
    · split
      · exact sameSeen_disconnectActions h false
      · exact h
  case writeResult res now =>
    rw [h.fsm]
    split
    · next hs =>
      have ha := active_of_sending hs
      cases res with
      | ok n =>
        dsimp only
        by_cases hshort : n < s.txLen
        · rw [if_pos hshort, if_pos (h.txLen ▸ hshort)]
          exact sameSeen_attemptFailOp h ha _ _ now
        · rw [if_neg hshort, if_neg (h.txLen ▸ hshort)]
          exact sameSeen_setFsm h ha .awaitingResponse
      | err reason => exact sameSeen_attemptFailOp h ha _ _ now
    · exact h
  case rx bytes now =>
    rw [h.fsm]
    split
    · next hs => exact sameSeen_receiveOp h hinv hinv' hs bytes now
    · exact h
  case tick now =>
    rw [h.fsm]
    split
    · next hs => exact sameSeen_evalWaitOp h hs now
    · exact h
  case tpFault reason fatal now =>
    rw [h.fsm]
    split
    · next hs => exact sameSeen_attemptFailOp h hs _ _ now
    · split
      · exact sameSeen_disconnectActions h true
      · exact h
  case validate now =>
    rw [h.fsm]
    split
    · next hs => exact sameSeen_validateOp h hs now
    · exact h
  all_goals exact sameSeen_dispatchOp h hinv hinv' _ _ _

theorem sameSeen_onReject {r : Reject} {t : State} (hrej : onReject r s = .next t) :
    ∃ t', onReject r s' = .next t' ∧ SameSeen t t' := by
  cases r <;> cases hrej
  case unusedOp => exact ⟨_, rfl, h⟩
  case reservedFunction => exact ⟨_, rfl, sameSeen_answerAtOnce h _⟩

theorem sameSeen_setInbox (rest : List Input) : SameSeen { s with inbox := rest } { s' with inbox := rest } :=
  { h with inbox := rfl }

theorem resetOp_agrees (rest : List Input) : resetOp { s' with inbox := rest } = resetOp { s with inbox := rest } := by
  simp only [resetOp, h.out]

end

/-- Settles O54: both states take the same input. -/
theorem deadStateUnobserved : Obligations.DeadStateUnobserved := fun s s' t hinv hinv' h hev hstep => by
  obtain ⟨hin, rfl⟩ | ⟨rest, hin, rfl⟩ | ⟨p, rest, i, hin, hdec, hexec⟩ | ⟨p, rest, r, hin, hdec, hrej⟩ :=
    step_cases hstep
  · exact ⟨s', step_nil (h.inbox.trans hin), h⟩
  · exact ⟨_, step_reset (h.inbox.trans hin), resetOp_agrees h rest ▸ sameSeen_refl _⟩
  · have hi : i.isEvent = true := by simpa [nextIsEvent, hin, hdec] using hev
    rw [step_packet (h.inbox.trans hin) hdec]
    exact sameSeen_exec (sameSeen_setInbox h rest) (inv_congr hinv rfl rfl rfl rfl rfl rfl)
      (inv_congr hinv' rfl rfl rfl rfl rfl rfl) hi hexec
  · rw [step_reject (h.inbox.trans hin) hdec]
    exact sameSeen_onReject (sameSeen_setInbox h rest) hrej

end Sys2Proof.Machine
end
